-- ==== Sys2Proof/Word.lean ====
section
/-! DEFINITION. The one word type of the machine: a byte (00_scope.md R12: "A byte is 8 bits, 7 down to 0"). Every
other number of the spec is an unbounded natural (R12, R16), or an integer where the engine may answer a negative
error (20_memory.md R58). -/

namespace Sys2Proof

/-- A byte, 8 bits numbered from 0 at the least significant bit (00_scope.md R12). -/
abbrev Byte := BitVec 8

/-- `byte(v)`: a value written into a byte is first reduced mod 256 (00_scope.md R12). -/
def byte (v : Nat) : Byte := BitVec.ofNat 8 v

end Sys2Proof
end

