-- ==== Sys2Proof/Config.lean ====
section
/-! DEFINITION. What an implementation fixes (the parameters of 00_scope.md R10), the words in which the block and the
engine talk (10_state.md R38), and the FREE VALUES: opaque constants with no body, one for each value the spec leaves
to the engine, the target or the hardware. Nothing in Lean can evaluate them, so a claim holds whatever they are. -/

namespace Sys2Proof

/-- What a `read(n)` answers: bytes, or an error (`none`) (20_memory.md R59). -/
abbrev ReadAnswer := Option (List Byte)

/-- One engine interaction of the block (10_state.md R38). -/
inductive Event where
  /-- `CONFIGURE(mode, pin_cfg, hz) -> ok / err` -/
  | configure (mode pinCfg clockHz : Nat) (ok : Bool)
  /-- `IDENTITY -> s / err` -/
  | identity (name : Option String)
  /-- `ENQ(bs)` -/
  | enq (bytes : List Byte)
  /-- `FLUSH(n) -> r`: the returned count, or a negative error -/
  | flush (n : Nat) (returned : Int)
  /-- `READ(n) -> bs / err` -/
  | read (n : Nat) (answer : ReadAnswer)
  /-- `DRAIN(n) -> bs / err` -/
  | drain (n : Nat) (answer : ReadAnswer)
  deriving DecidableEq, Repr

/-- One TCK period: the levels driven and the level sampled (45_engine_frames.md R149, R150). -/
structure Pulse where
  tms : Bool
  tdi : Bool
  tdo : Bool
  deriving DecidableEq, Repr

/-- `QUIRK_MATCH`, the OPEN predicate on the product name (00_scope.md R10, 40_initializer.md R103), as plain data.
The spec gives neither the string nor whether the match is exact, prefix or substring (91 N-INIT-1): the three
methods are given, and `unspecified` is an arbitrary predicate. DESIGN CHOICE (log 22), safe. -/
inductive QuirkMatch where
  | exact (name : String)
  | hasPrefix (name : String)
  | contains (name : String)
  | unspecified
  deriving DecidableEq, Repr

/-- The opcode parameters (00_scope.md R10 `OP_*`, 30_encoding.md R80 and R81, 93_implementation_defined.md I-1): the
weights of the flag bits, of which every shift frame's opcode is composed (R80), and the five opcodes that R81 calls
fixed. The ten opcodes that R81 composes are functions of the weights (log 1). -/
structure OpCodes where
  /-- `WRITE_NEG`: TDI and TMS change on the falling edge; in every shift frame -/
  writeNeg : Byte
  /-- `BITMODE` -/
  bitMode : Byte
  /-- `READ_NEG`: the read edge, in frames that read -/
  readNeg : Byte
  /-- `LSB`: least significant bit first -/
  lsb : Byte
  /-- `DO_WRITE`: TDI present -/
  doWrite : Byte
  /-- `DO_READ`: TDO present -/
  doRead : Byte
  /-- `WRITE_TMS`: TMS frames and exit frames -/
  writeTms : Byte
  /-- `OP_CLK_BYTES` -/
  clkBytes : Byte
  /-- `OP_CLK_BITS` -/
  clkBits : Byte
  /-- `OP_SET_LOW` -/
  setLow : Byte
  /-- `OP_SET_HIGH` -/
  setHigh : Byte
  /-- `OP_LOOPBACK_ON` -/
  loopbackOn : Byte
  deriving DecidableEq, Repr

/-- The implementation parameters of 00_scope.md R10. No request writes them (10_state.md R22). The last two fields
describe the reference engine (45_engine_frames.md R169, R170). -/
structure Config where
  /-- `B`, the engine's `max_buffer_size()`; admitted range 4 ≤ B ≤ 65539 -/
  bufSize : Nat
  /-- `CLK_ONLY_CAPABLE` -/
  clkOnlyCapable : Bool
  /-- `TMS_TDI_LEVEL` -/
  tmsTdiLevel : Bool
  /-- `RD_NEG` -/
  rdNeg : Bool
  /-- `OP_*` and the flag weights -/
  ops : OpCodes
  /-- `QUIRK_MATCH` -/
  quirkMatch : QuirkMatch
  /-- `ENGINE_MODE`, an opaque constant that only `configure` sees (log 23) -/
  engineMode : Nat
  /-- `PROBE` -/
  probe : List Byte
  /-- `TD_LOW_VAL` -/
  tdLowVal : Byte
  /-- `TD_LOW_DIR` -/
  tdLowDir : Byte
  /-- `TD_HIGH_VAL` -/
  tdHighVal : Byte
  /-- `TD_HIGH_DIR` -/
  tdHighDir : Byte
  /-- the USB product name the reference engine's `device_identity()` returns, `none` where it cannot be read (R170) -/
  productName : Option String
  /-- whether the reference engine is the quirked bridge chip (R169) -/
  quirkedChip : Bool
  deriving DecidableEq, Repr

/-! The oracle of 70_reset_and_hazards.md R221: "a function from the trace so far and the call to an answer". -/

/-- FREE VALUE: whether `configure(mode, pin_cfg, hz)` succeeds (R221; log 9). -/
opaque Config.oracleConfigure : List Event → Nat → Nat → Nat → Bool

/-- FREE VALUE: what `device_identity()` answers (R221; log 9). -/
opaque Config.oracleIdentity : List Event → Option String

/-- FREE VALUE: what `flush()` answers with `n` bytes pending, any integer (R221; log 9). -/
opaque Config.oracleFlush : List Event → Nat → Int

/-- FREE VALUE: what `read(n)` answers; the reader cuts it to at most `n` bytes (R221; log 9). -/
opaque Config.oracleRead : List Event → Nat → ReadAnswer

/-- FREE VALUE: an arbitrary `QUIRK_MATCH` (00_scope.md R10, OPEN; log 22). -/
opaque Config.openQuirkMatch : String → Bool

/-- FREE VALUE: byte `a` of a TDO buffer after the step that should have stored it failed (43_data_shifter.md R138;
log 15). -/
opaque Config.freeTdoByte : List Event → Nat → Byte

/-- FREE VALUE: the TDO level the target draws on a pulse, from the pulses so far and the levels driven
(45_engine_frames.md R149; log 26). -/
opaque Config.freeTdo : List Pulse → Bool → Bool → Bool

/-- FREE VALUE: the `k`-th level the engine draws (45_engine_frames.md R170; log 9, 13, 24). -/
opaque Config.freeBit : Nat → Bool

/-- FREE VALUE: the `k`-th byte the engine draws (45_engine_frames.md R153, R159, R170; log 9, 16, 24). -/
opaque Config.freeByte : Nat → Byte

/-- FREE VALUE: the `k`-th byte string the engine draws (45_engine_frames.md R169, "any length and content"; log 17). -/
opaque Config.freeBytes : Nat → List Byte

/-- FREE VALUE: the pulses the engine made of a transfer that failed (70_reset_and_hazards.md R215; log 13). -/
opaque Config.freePulses : Nat → List Pulse

end Sys2Proof
end

