-- ==== Sys2Proof/Machine/Params.lean ====
section
/-! DEFINITION. The values of the parameters: the opcode defaults of 30_encoding.md, and the configuration of the test
vectors. -/

namespace Sys2Proof

/-- The default opcode parameters (30_encoding.md R80, R81), which the spec marks general knowledge: PRESUMED (log 1),
unsafe for a claim that names them. -/
def OpCodes.defaults : OpCodes where
  writeNeg := 0x01
  bitMode := 0x02
  readNeg := 0x04
  lsb := 0x08
  doWrite := 0x10
  doRead := 0x20
  writeTms := 0x40
  clkBytes := 0x8F
  clkBits := 0x8E
  setLow := 0x80
  setHigh := 0x82
  loopbackOn := 0x84

/-- The parameter values of the test vectors (95_test_vectors.md, Conventions and 2.5), the configuration of
`State.reset`. The spec leaves them OPEN: DESIGN CHOICE (log 11), unsafe for a claim about `State.reset` alone. -/
def Config.vectors : Config where
  bufSize := 4096
  clkOnlyCapable := true
  tmsTdiLevel := true
  rdNeg := false
  ops := OpCodes.defaults
  quirkMatch := .exact "Sipeed-Debug"
  engineMode := 0
  probe := [0xAA#8, 0x55#8, 0x00#8, 0xFF#8, 0xAA#8]
  tdLowVal := 0
  tdLowDir := 0
  tdHighVal := 0
  tdHighDir := 0
  productName := some "Other"
  quirkedChip := false

end Sys2Proof
end

