-- ==== Sys2Proof/Syntax.lean ====
section
/-! DEFINITION. The instructions, one constructor for each row of spec/opcode_table.json: the five requests a caller
issues (30_encoding.md R76) and the fifteen frames the engine executes (30_encoding.md R81, 45_engine_frames.md). -/

namespace Sys2Proof

/-- A caller buffer: its first byte and its size in the caller's memory (20_memory.md R41; log 3). -/
structure Buf where
  base : Nat
  size : Nat
  deriving DecidableEq, Repr

/-- The instructions of the machine. In a frame a count is the number of units itself, not the count minus one that
its field holds (30_encoding.md R79); `neg` is the opcode's READ_NEG bit (R80). -/
inductive Instr where
  /-- INIT (R99) -/
  | init (pinCfg clockHz : Nat)
  /-- TMS_SHIFT (R105) -/
  | tmsShift (tms : Buf) (len : Nat)
  /-- CLOCK_TICK (R115) -/
  | clockTick (tmsLevel tdiLevel : Bool) (count : Nat)
  /-- DATA_SHIFT (R127) -/
  | dataShift (tdi tdo : Option Buf) (len : Nat) (last : Bool)
  /-- TEARDOWN (R141) -/
  | teardown
  /-- OP_TMS_W `[op, n-1, d]` (R152) -/
  | opTmsW (n : Nat) (d : Byte)
  /-- OP_TMS_WR `[op, n-1, d]` (R153) -/
  | opTmsWr (neg : Bool) (n : Nat) (d : Byte)
  /-- OP_DB_N `[op, c-1 lo, c-1 hi]` (R157) -/
  | opByteN (c : Nat)
  /-- OP_DB_W `[op, c-1 lo, c-1 hi] ++ payload` (R154) -/
  | opByteW (payload : List Byte)
  /-- OP_DB_R `[op, c-1 lo, c-1 hi]` (R155) -/
  | opByteR (neg : Bool) (c : Nat)
  /-- OP_DB_WR `[op, c-1 lo, c-1 hi] ++ payload` (R156) -/
  | opByteWr (neg : Bool) (payload : List Byte)
  /-- OP_Db_N `[op, m-1]` (R161) -/
  | opBitN (m : Nat)
  /-- OP_Db_W `[op, m-1, p]` (R158) -/
  | opBitW (m : Nat) (p : Byte)
  /-- OP_Db_R `[op, m-1]` (R159) -/
  | opBitR (neg : Bool) (m : Nat)
  /-- OP_Db_WR `[op, m-1, p]` (R160) -/
  | opBitWr (neg : Bool) (m : Nat) (p : Byte)
  /-- OP_CLK_BYTES `[op, g-1 lo, g-1 hi]` (R162) -/
  | opClkBytes (g : Nat)
  /-- OP_CLK_BITS `[op, r-1]` (R163) -/
  | opClkBits (r : Nat)
  /-- OP_SET_LOW `[op, value, direction]` (R164) -/
  | opSetLow (value direction : Byte)
  /-- OP_SET_HIGH `[op, value, direction]` (R165) -/
  | opSetHigh (value direction : Byte)
  /-- OP_LOOPBACK_ON `[op]` (R166) -/
  | opLoopbackOn
  deriving DecidableEq, Repr

/-- Whether the instruction is a request of the caller (30_encoding.md R75, R76); the others are frames. -/
def Instr.isRequest : Instr → Bool
  | .init _ _ => true
  | .tmsShift _ _ => true
  | .clockTick _ _ _ => true
  | .dataShift _ _ _ _ => true
  | .teardown => true
  | .opTmsW _ _ => false
  | .opTmsWr _ _ _ => false
  | .opByteN _ => false
  | .opByteW _ => false
  | .opByteR _ _ => false
  | .opByteWr _ _ => false
  | .opBitN _ => false
  | .opBitW _ _ => false
  | .opBitR _ _ => false
  | .opBitWr _ _ _ => false
  | .opClkBytes _ => false
  | .opClkBits _ => false
  | .opSetLow _ _ => false
  | .opSetHigh _ _ => false
  | .opLoopbackOn => false

end Sys2Proof
end

