-- ==== Sys2Proof/WellFormed.lean ====
section
/-! DEFINITION. Which instructions an encoding can express. A request's naturals must fit the 8-byte fields of the
record layout (log 2); that a length is below 2^31 is no matter of form, since such a request is answered by a refusal
of its own (30_encoding.md R76). A frame's count must lie in the range of its count field (30_encoding.md R79, R83,
R86, R88; log 18). -/

namespace Sys2Proof

/-- A natural that fits an 8-byte field of a request record (log 2). -/
def fitsField (n : Nat) : Bool := decide (n < 2 ^ 64)

/-- A buffer whose start and size fit their fields. -/
def Buf.wellFormed (b : Buf) : Bool := fitsField b.base && fitsField b.size

/-- An optional buffer operand: absent, or well formed. -/
def bufWellFormed : Option Buf → Bool
  | none => true
  | some b => b.wellFormed

/-- 1 ≤ n ≤ 6: "TMS frames never encode more than 6 bits", the 7th and 8th positions are reserved (30_encoding.md R83). -/
def tmsCount (n : Nat) : Bool := decide (1 ≤ n ∧ n ≤ 6)

/-- 1 ≤ m ≤ 8, the range of a bit-mode count (30_encoding.md R79; log 18). -/
def bitCount (m : Nat) : Bool := decide (1 ≤ m ∧ m ≤ 8)

/-- 1 ≤ c ≤ 65536, the range of a 16-bit count (30_encoding.md R79). -/
def byteCount (c : Nat) : Bool := decide (1 ≤ c ∧ c ≤ 65536)

/-- The instructions that have an encoding. -/
def Instr.wellFormed : Instr → Bool
  | .init pinCfg clockHz => fitsField pinCfg && fitsField clockHz
  | .tmsShift tms len => tms.wellFormed && fitsField len
  | .clockTick _ _ count => fitsField count
  | .dataShift tdi tdo len _ => bufWellFormed tdi && bufWellFormed tdo && fitsField len
  | .teardown => true
  | .opTmsW n _ => tmsCount n
  | .opTmsWr _ n _ => tmsCount n
  | .opByteN c => byteCount c
  | .opByteW payload => byteCount payload.length
  | .opByteR _ c => byteCount c
  | .opByteWr _ payload => byteCount payload.length
  | .opBitN m => bitCount m
  | .opBitW m _ => bitCount m
  | .opBitR _ m => bitCount m
  | .opBitWr _ m _ => bitCount m
  | .opClkBytes g => byteCount g
  | .opClkBits r => bitCount r
  | .opSetLow _ _ => true
  | .opSetHigh _ _ => true
  | .opLoopbackOn => true

end Sys2Proof
end

