-- ==== Sys2Proof/Decode.lean ====
section
/-! DEFINITION. The encodings (30_encoding.md): opcode bytes, the decoder of request records and frames, total on any
bytes, and the encoder beside it. Frames are laid out as 30_encoding.md R83 to R90 say. Requests have no bit encoding in
the spec (R75); the record layout below is the model's own: DESIGN CHOICE (log 2), safe. -/

namespace Sys2Proof

/-! ### Opcode values (30_encoding.md R80, R81)

The opcodes that R81 composes, from the flag weights of R80, which are parameters (log 1). -/

/-- The READ_NEG weight where the bit is set (30_encoding.md R80). -/
def OpCodes.readEdge (o : OpCodes) (neg : Bool) : Byte := if neg then o.readNeg else 0

/-- `OP_TMS_W` -/
def OpCodes.tmsW (o : OpCodes) : Byte := o.writeTms ||| o.lsb ||| o.bitMode ||| o.writeNeg
/-- `OP_TMS_WR` -/
def OpCodes.tmsWr (o : OpCodes) (neg : Bool) : Byte :=
  o.writeTms ||| o.doRead ||| o.lsb ||| o.bitMode ||| o.writeNeg ||| o.readEdge neg
/-- `OP_DB_N` -/
def OpCodes.byteN (o : OpCodes) : Byte := o.lsb ||| o.writeNeg
/-- `OP_DB_W` -/
def OpCodes.byteW (o : OpCodes) : Byte := o.doWrite ||| o.lsb ||| o.writeNeg
/-- `OP_DB_R` -/
def OpCodes.byteR (o : OpCodes) (neg : Bool) : Byte := o.doRead ||| o.lsb ||| o.writeNeg ||| o.readEdge neg
/-- `OP_DB_WR` -/
def OpCodes.byteWr (o : OpCodes) (neg : Bool) : Byte :=
  o.doRead ||| o.doWrite ||| o.lsb ||| o.writeNeg ||| o.readEdge neg
/-- `OP_Db_N` -/
def OpCodes.bitN (o : OpCodes) : Byte := o.lsb ||| o.bitMode ||| o.writeNeg
/-- `OP_Db_W` -/
def OpCodes.bitW (o : OpCodes) : Byte := o.doWrite ||| o.lsb ||| o.bitMode ||| o.writeNeg
/-- `OP_Db_R` -/
def OpCodes.bitR (o : OpCodes) (neg : Bool) : Byte :=
  o.doRead ||| o.lsb ||| o.bitMode ||| o.writeNeg ||| o.readEdge neg
/-- `OP_Db_WR` -/
def OpCodes.bitWr (o : OpCodes) (neg : Bool) : Byte :=
  o.doRead ||| o.doWrite ||| o.lsb ||| o.bitMode ||| o.writeNeg ||| o.readEdge neg

/-! ### The opcode table -/

/-- One name for each row of spec/opcode_table.json. -/
inductive OpKind where
  | init | tmsShift | clockTick | dataShift | teardown
  | tmsW | tmsWr | byteN | byteW | byteR | byteWr | bitN | bitW | bitR | bitWr
  | clkBytes | clkBits | setLow | setHigh | loopbackOn
  deriving DecidableEq, Repr

/-- What a first byte stands for: its value, the kind, and the READ_NEG bit of an opcode that reads (false in the
others). -/
structure OpRow where
  kind : OpKind
  value : Byte
  neg : Bool
  deriving DecidableEq, Repr

/-- The request tags (30_encoding.md R76). -/
def tagRows : List OpRow :=
  [⟨.init, 0x01, false⟩, ⟨.tmsShift, 0x02, false⟩, ⟨.clockTick, 0x03, false⟩, ⟨.dataShift, 0x04, false⟩,
    ⟨.teardown, 0x05, false⟩]

/-- The opcodes of the frames (30_encoding.md R81), one that reads with READ_NEG clear and set (log 29). -/
def opRows (o : OpCodes) : List OpRow :=
  [⟨.tmsW, o.tmsW, false⟩, ⟨.tmsWr, o.tmsWr false, false⟩, ⟨.tmsWr, o.tmsWr true, true⟩] ++
  [⟨.byteN, o.byteN, false⟩, ⟨.byteW, o.byteW, false⟩, ⟨.byteR, o.byteR false, false⟩, ⟨.byteR, o.byteR true, true⟩,
    ⟨.byteWr, o.byteWr false, false⟩, ⟨.byteWr, o.byteWr true, true⟩] ++
  [⟨.bitN, o.bitN, false⟩, ⟨.bitW, o.bitW, false⟩, ⟨.bitR, o.bitR false, false⟩, ⟨.bitR, o.bitR true, true⟩,
    ⟨.bitWr, o.bitWr false, false⟩, ⟨.bitWr, o.bitWr true, true⟩] ++
  [⟨.clkBytes, o.clkBytes, false⟩, ⟨.clkBits, o.clkBits, false⟩, ⟨.setLow, o.setLow, false⟩,
    ⟨.setHigh, o.setHigh, false⟩, ⟨.loopbackOn, o.loopbackOn, false⟩]

/-- No two opcodes have one value, so that an engine can tell the frames apart. -/
def OpCodes.distinct (o : OpCodes) : Bool := decide ((opRows o).map (·.value)).Nodup

/-- The row of a first byte; `none` for a reserved one (30_encoding.md R77, R95). -/
def rowOf (rows : List OpRow) (b : Byte) : Option OpRow := rows.find? (·.value == b)

/-! ### Fields -/

/-- The `k` bytes of a natural, least significant first (30_encoding.md R50 for the 16-bit counts). -/
def leBytes : Nat → Nat → List Byte
  | 0, _ => []
  | k + 1, v => byte v :: leBytes k (v / 256)

/-- Reads `k` bytes, least significant first. -/
def takeNat : Nat → List Byte → Option (Nat × List Byte)
  | 0, bs => some (0, bs)
  | _ + 1, [] => none
  | k + 1, b :: bs =>
    match takeNat k bs with
    | some (v, rest) => some (b.toNat + 256 * v, rest)
    | none => none

/-- A bit field of a record: one byte, 0 or 1; anything else is malformed (30_encoding.md R77). -/
def bitByte (b : Bool) : Byte := if b then 1 else 0

def takeBit : List Byte → Option (Bool × List Byte)
  | [] => none
  | b :: bs => if b = 0 then some (false, bs) else if b = 1 then some (true, bs) else none

def takeByte : List Byte → Option (Byte × List Byte)
  | [] => none
  | b :: bs => some (b, bs)

/-- Reads `n` bytes. -/
def takeBytes (n : Nat) (bs : List Byte) : Option (List Byte × List Byte) :=
  if n ≤ bs.length then some (bs.take n, bs.drop n) else none

/-- A buffer operand of a record: start and size, 8 bytes each (log 2). -/
def bufBytes (b : Buf) : List Byte := leBytes 8 b.base ++ leBytes 8 b.size

def takeBuf (bs : List Byte) : Option (Buf × List Byte) :=
  match takeNat 8 bs with
  | none => none
  | some (base, bs) =>
    match takeNat 8 bs with
    | none => none
    | some (size, bs) => some (⟨base, size⟩, bs)

/-- An optional buffer operand: a presence bit, then the buffer if present (log 2). -/
def optBufBytes : Option Buf → List Byte
  | none => [bitByte false]
  | some b => bitByte true :: bufBytes b

def takeOptBuf (bs : List Byte) : Option (Option Buf × List Byte) :=
  match takeBit bs with
  | none => none
  | some (false, bs) => some (none, bs)
  | some (true, bs) => (takeBuf bs).map fun p => (some p.1, p.2)

/-- A one-byte count field, which holds the count minus one (30_encoding.md R79). -/
def bitCountByte (m : Nat) : Byte := byte (m - 1)

/-- A two-byte count field, which holds the count minus one, low byte first (30_encoding.md R79, R50, R85). -/
def byteCountBytes (c : Nat) : List Byte := leBytes 2 (c - 1)

/-- Reads a one-byte count of at most `top` units; a larger one is no frame (45_engine_frames.md R168; log 18). -/
def takeBitCount (top : Nat) (bs : List Byte) : Option (Nat × List Byte) :=
  match takeByte bs with
  | none => none
  | some (b, bs) => if b.toNat < top then some (b.toNat + 1, bs) else none

def takeByteCount (bs : List Byte) : Option (Nat × List Byte) :=
  (takeNat 2 bs).map fun p => (p.1 + 1, p.2)

/-! ### The decoder -/

/-- Why bytes are no instruction. A request record that does not decode is `RefusedMalformedRequest` (30_encoding.md
R77); engine bytes that do not decode are `EngineUnmodelled` (45_engine_frames.md R168). -/
inductive DecodeError where
  /-- there is no first byte -/
  | noBytes
  /-- the first byte is no tag and no opcode -/
  | unknownCode (code : Byte)
  /-- the bytes end too early, or a field is outside its range -/
  | badFields (code : Byte)
  deriving DecidableEq, Repr

/-- The fields after the first byte of a row, and the bytes left over; `neg` is the first byte's READ_NEG bit. -/
def decodeFields (neg : Bool) (bs : List Byte) : OpKind → Option (Instr × List Byte)
  | .init => do
    let (pinCfg, bs) ← takeNat 8 bs
    let (clockHz, bs) ← takeNat 8 bs
    some (.init pinCfg clockHz, bs)
  | .tmsShift => do
    let (tms, bs) ← takeBuf bs
    let (len, bs) ← takeNat 8 bs
    some (.tmsShift tms len, bs)
  | .clockTick => do
    let (tmsLevel, bs) ← takeBit bs
    let (tdiLevel, bs) ← takeBit bs
    let (count, bs) ← takeNat 8 bs
    some (.clockTick tmsLevel tdiLevel count, bs)
  | .dataShift => do
    let (tdi, bs) ← takeOptBuf bs
    let (tdo, bs) ← takeOptBuf bs
    let (len, bs) ← takeNat 8 bs
    let (last, bs) ← takeBit bs
    some (.dataShift tdi tdo len last, bs)
  | .teardown => some (.teardown, bs)
  | .tmsW => do
    let (n, bs) ← takeBitCount 6 bs
    let (d, bs) ← takeByte bs
    some (.opTmsW n d, bs)
  | .tmsWr => do
    let (n, bs) ← takeBitCount 6 bs
    let (d, bs) ← takeByte bs
    some (.opTmsWr (neg) n d, bs)
  | .byteN => do
    let (c, bs) ← takeByteCount bs
    some (.opByteN c, bs)
  | .byteW => do
    let (c, bs) ← takeByteCount bs
    let (payload, bs) ← takeBytes c bs
    some (.opByteW payload, bs)
  | .byteR => do
    let (c, bs) ← takeByteCount bs
    some (.opByteR (neg) c, bs)
  | .byteWr => do
    let (c, bs) ← takeByteCount bs
    let (payload, bs) ← takeBytes c bs
    some (.opByteWr (neg) payload, bs)
  | .bitN => do
    let (m, bs) ← takeBitCount 8 bs
    some (.opBitN m, bs)
  | .bitW => do
    let (m, bs) ← takeBitCount 8 bs
    let (p, bs) ← takeByte bs
    some (.opBitW m p, bs)
  | .bitR => do
    let (m, bs) ← takeBitCount 8 bs
    some (.opBitR (neg) m, bs)
  | .bitWr => do
    let (m, bs) ← takeBitCount 8 bs
    let (p, bs) ← takeByte bs
    some (.opBitWr (neg) m p, bs)
  | .clkBytes => do
    let (g, bs) ← takeByteCount bs
    some (.opClkBytes g, bs)
  | .clkBits => do
    let (r, bs) ← takeBitCount 8 bs
    some (.opClkBits r, bs)
  | .setLow => do
    let (value, bs) ← takeByte bs
    let (direction, bs) ← takeByte bs
    some (.opSetLow value direction, bs)
  | .setHigh => do
    let (value, bs) ← takeByte bs
    let (direction, bs) ← takeByte bs
    some (.opSetHigh value direction, bs)
  | .loopbackOn => some (.opLoopbackOn, bs)

/-- The instruction at the head of a byte string and the bytes after it, its first byte being one of these rows'. -/
def decodeBy (rows : List OpRow) : List Byte → Except DecodeError (Instr × List Byte)
  | [] => .error .noBytes
  | op :: bs =>
    match rowOf rows op with
    | none => .error (.unknownCode op)
    | some row =>
      match decodeFields row.neg bs row.kind with
      | none => .error (.badFields op)
      | some r => .ok r

/-- The instruction at the head of a byte string, a request or a frame. -/
def decode (o : OpCodes) (bytes : List Byte) : Except DecodeError (Instr × List Byte) :=
  decodeBy (tagRows ++ opRows o) bytes

/-- A request record: one request and nothing after it. Anything else is not a request of this block (30_encoding.md
R77). -/
def decodeRequest (record : List Byte) : Option Instr :=
  match decodeBy tagRows record with
  | .ok (i, []) => some i
  | .ok (_, _ :: _) => none
  | .error _ => none

/-- The frame at the head of a transfer. Anything else does not parse as a frame (45_engine_frames.md R168). -/
def decodeFrame (o : OpCodes) (bytes : List Byte) : Option (Instr × List Byte) :=
  match decodeBy (opRows o) bytes with
  | .ok r => some r
  | .error _ => none

/-! ### The encoder, from the same formats -/

/-- The bytes of a well-formed instruction: a request record (log 2) or a frame (30_encoding.md R83 to R90). -/
def encode (o : OpCodes) : Instr → List Byte
  | .init pinCfg clockHz => 0x01 :: (leBytes 8 pinCfg ++ leBytes 8 clockHz)
  | .tmsShift tms len => 0x02 :: (bufBytes tms ++ leBytes 8 len)
  | .clockTick tmsLevel tdiLevel count => 0x03 :: bitByte tmsLevel :: bitByte tdiLevel :: leBytes 8 count
  | .dataShift tdi tdo len last => 0x04 :: (optBufBytes tdi ++ (optBufBytes tdo ++ (leBytes 8 len ++ [bitByte last])))
  | .teardown => [0x05]
  | .opTmsW n d => [o.tmsW, bitCountByte n, d]
  | .opTmsWr neg n d => [o.tmsWr neg, bitCountByte n, d]
  | .opByteN c => o.byteN :: byteCountBytes c
  | .opByteW payload => o.byteW :: (byteCountBytes payload.length ++ payload)
  | .opByteR neg c => o.byteR neg :: byteCountBytes c
  | .opByteWr neg payload => o.byteWr neg :: (byteCountBytes payload.length ++ payload)
  | .opBitN m => [o.bitN, bitCountByte m]
  | .opBitW m p => [o.bitW, bitCountByte m, p]
  | .opBitR neg m => [o.bitR neg, bitCountByte m]
  | .opBitWr neg m p => [o.bitWr neg, bitCountByte m, p]
  | .opClkBytes g => o.clkBytes :: byteCountBytes g
  | .opClkBits r => [o.clkBits, bitCountByte r]
  | .opSetLow value direction => [o.setLow, value, direction]
  | .opSetHigh value direction => [o.setHigh, value, direction]
  | .opLoopbackOn => [o.loopbackOn]

/-! ### The opcode table's numbering -/

/-- The bytes of a table word, first byte first, then zero bytes up to the longest instruction that zero operand bytes
can make (a TMS_SHIFT record, 25 bytes). -/
def tableBytes (nbits w : Nat) : List Byte := leBytes (nbits / 8) w ++ List.replicate 32 0

/-- The instruction the decoder reads from a word of spec/opcode_table.json, every bit above `nbits` zero. The table has
the default opcodes. -/
def decodeTableWord (nbits w : Nat) : Option Instr :=
  match decode OpCodes.defaults (tableBytes nbits w) with
  | .ok (i, _) => some i
  | .error _ => none

end Sys2Proof
end

