-- ==== Sys2Proof/Machine/Flags.lean ====
section
/-! DEFINITION. The block has no condition codes (10_state.md R31). The flags the spec computes are the flag bits of an
opcode byte (30_encoding.md R80, R82). -/

namespace Sys2Proof.Machine

/-- A flag's weight where it is set. -/
def flagIf (b : Bool) (weight : Byte) : Byte := if b then weight else 0

/-- `op_data(w, rd, bm)` (30_encoding.md R82). -/
def opData (cfg : Config) (w rd bm : Bool) : Byte :=
  cfg.ops.lsb ||| cfg.ops.writeNeg ||| flagIf w cfg.ops.doWrite
    ||| flagIf rd (cfg.ops.doRead ||| flagIf cfg.rdNeg cfg.ops.readNeg) ||| flagIf bm cfg.ops.bitMode

/-- `op_exit(rd)` (30_encoding.md R82). -/
def opExit (cfg : Config) (rd : Bool) : Byte :=
  cfg.ops.writeTms ||| cfg.ops.lsb ||| cfg.ops.bitMode ||| cfg.ops.writeNeg
    ||| flagIf rd (cfg.ops.doRead ||| flagIf cfg.rdNeg cfg.ops.readNeg)

end Sys2Proof.Machine
end

