-- ==== Sys2Proof/Machine/State.lean ====
section
/-! DEFINITION. The machine's state as plain data: the block (10_state.md R25 to R32), what it has recorded (R38, R222),
the caller's requests and buffers (20_memory.md R41), the reference engine (45_engine_frames.md R149), the answers of
the outside world (70_reset_and_hazards.md R221) and the configuration (00_scope.md R10). And the reasons a step can
stop, and the state after reset (10_state.md R40). -/

namespace Sys2Proof.Machine

/-- The caller's memory: the listed bytes, addresses strictly rising, none equal to what an unlisted address reads as
(log 3, 4). -/
abbrev Memory := List Host.Cell

/-- What a byte of memory that nothing has written reads as. The spec gives no contents for a caller buffer: DESIGN
CHOICE 0 (log 4), unsafe. -/
def Memory.unlisted : Byte := 0

/-- The lifecycle register's values (10_state.md R25). -/
inductive Phase where
  | uninit
  | ready
  | failed
  | closed
  deriving DecidableEq, Repr

/-- The reasons for a refusal (60_exceptions.md R182). -/
inductive RefusedReason where
  | notUninit
  | notReady
  | config
  | bufferTooShort
  | aliasedBuffers
  | lengthTooLarge
  | quirkFastPath
  | clockTooLong
  | malformedRequest
  deriving DecidableEq, Repr

/-- What a `TransportFailure` records: the call, the expected count, the value returned (60_exceptions.md R176). -/
inductive TransportInfo where
  | flush (expected : Nat) (returned : Int)
  | read (expected : Nat) (returned : ReadAnswer)
  | configure
  deriving DecidableEq, Repr

/-- What a `ProtocolConsistencyFailure` records: the check and the lengths (60_exceptions.md R176). -/
inductive ConsistencyInfo where
  | lenZero (len : Nat) (last : Bool)
  | split (realLen nbByte nbBit : Nat)
  deriving DecidableEq, Repr

/-- The fatal errors (60_exceptions.md R176: E1 and E2). -/
inductive BlockError where
  | transportFailure (info : TransportInfo)
  | protocolConsistencyFailure (info : ConsistencyInfo)
  deriving DecidableEq, Repr

/-- The diagnostics (60_exceptions.md R176: W1 and W2; 10_state.md R29). -/
inductive Diag where
  | quirkDrainFailure (n : Nat) (got : ReadAnswer)
  | teardownMismatchFlush (expected : Nat) (got : Int)
  | teardownMismatchRead (expected : Nat) (got : ReadAnswer)
  deriving DecidableEq, Repr

/-- The value of a request that succeeded: `ok`, or a number (60_exceptions.md R175). -/
inductive OkValue where
  | unit
  | value (n : Nat)
  deriving DecidableEq, Repr

/-- The outcome of a request (60_exceptions.md R175). -/
inductive RequestResult where
  | ok (v : OkValue)
  | err (e : BlockError)
  | refused (reason : RefusedReason)
  deriving DecidableEq, Repr

/-- Where an engine answer comes from when none is scripted: an arbitrary oracle, or the reference engine, which is "one
such oracle" (70_reset_and_hazards.md R221; log 10). -/
inductive OracleKind where
  | arbitrary
  | reference
  deriving DecidableEq, Repr

/-- The target behind the TDO pin (45_engine_frames.md R149): wired to TDI, or giving these bits in turn and then free
draws (log 26). -/
inductive Target where
  | loopback
  | bits (coming : List Bool)
  deriving DecidableEq, Repr

/-- The outside world's answers, each queue oldest first. A queue that is empty leaves the answer to the oracle or
to a free value (70_reset_and_hazards.md R221; log 8, 16, 17, 26). -/
structure Inputs where
  configure : List Bool
  identity : List (Option String)
  flush : List Int
  read : List ReadAnswer
  target : Target
  fill : List Byte
  chipResponses : List (List Byte)
  deriving DecidableEq, Repr

/-- The reference engine (45_engine_frames.md R149), with the transfers it has received and not executed yet (log 7),
whether the transfer at hand has captured anything (R169; log 17), whether its state is known (70_reset_and_hazards.md
R215; log 13), and the counter of its free draws (log 9). -/
structure Engine where
  tmsPin : Bool
  tdiPin : Bool
  loop : Bool
  gpioLow : Byte × Byte
  gpioHigh : Byte × Byte
  resp : List Byte
  wave : List Pulse
  inbox : List (List Byte)
  captured : Bool
  sync : Bool
  draws : Nat
  deriving DecidableEq, Repr

/-- The machine's state. -/
structure State where
  /-- the parameters, which no request writes (10_state.md R22) -/
  cfg : Config
  /-- who answers the block's calls when nothing is scripted (70_reset_and_hazards.md R221) -/
  oracle : OracleKind
  /-- the scripted answers -/
  inputs : Inputs
  /-- the request records the caller has issued and the block has not taken (10_state.md R24) -/
  requests : List (List Byte)
  /-- the caller's buffers (20_memory.md R41) -/
  mem : Memory
  /-- the lifecycle register (10_state.md R25) -/
  phase : Phase
  /-- the quirk flag `ch552WA` (10_state.md R26) -/
  quirk : Bool
  /-- the sticky fault record (10_state.md R28) -/
  fault : Option BlockError
  /-- the diagnostic log (10_state.md R29) -/
  diag : List Diag
  /-- the pending transmit buffer (10_state.md R32) -/
  pending : List Byte
  /-- the event trace (10_state.md R38) -/
  trace : List Event
  /-- the outcome of every request so far (60_exceptions.md R175, 70_reset_and_hazards.md R222) -/
  results : List RequestResult
  /-- the reference engine (45_engine_frames.md R149) -/
  engine : Engine
  deriving DecidableEq, Repr

/-- The faults of a step. -/
inductive Fault where
  /-- `EngineUnmodelled`: the reference engine stops on a frame that neither writes nor reads, or on bytes that are no
  frame, and names them (45_engine_frames.md R157, R161, R167, R168). Raised by the meanings of OP_DB_N and OP_Db_N and
  by the engine's fetch. Safe: nothing is said of what follows (log 19). -/
  | engineUnmodelled (frame : List Byte)
  deriving DecidableEq, Repr

/-- The refusals of a step. A request the SPEC refuses (60_exceptions.md R182) is none of these: it is a recorded
outcome and the run goes on (log 5). -/
inductive Refusal where
  /-- An instruction that has no meaning yet; raised by an arm of `exec` only. Safe. -/
  | notModelled (mnemonic : String)
  deriving DecidableEq, Repr

/-- The engine at reset. The spec leaves it unspecified (10_state.md R40): DESIGN CHOICE, all zero and empty (log 12),
unsafe. -/
def Engine.reset : Engine where
  tmsPin := false
  tdiPin := false
  loop := false
  gpioLow := (0, 0)
  gpioHigh := (0, 0)
  resp := []
  wave := []
  inbox := []
  captured := false
  sync := true
  draws := 0

/-- Nothing scripted: every answer is free (log 8). -/
def Inputs.free : Inputs where
  configure := []
  identity := []
  flush := []
  read := []
  target := .bits []
  fill := []
  chipResponses := []

/-- The block right after its creation with a configuration (10_state.md R40, 70_reset_and_hazards.md R197). -/
def State.resetWith (cfg : Config) : State where
  cfg := cfg
  oracle := .arbitrary
  inputs := Inputs.free
  requests := []
  mem := []
  phase := .uninit
  quirk := false
  fault := none
  diag := []
  pending := []
  trace := []
  results := []
  engine := Engine.reset

/-- The machine right after reset, with the configuration of the test vectors (log 11). -/
def State.reset : State := State.resetWith Config.vectors

end Sys2Proof.Machine
end

