-- ==== Sys2Proof/Machine/Memory.lean ====
section
/-! DEFINITION. The caller's memory (20_memory.md R41 to R45): one byte read and written, and runs of bytes made of
them. A write keeps the canonical form. -/

namespace Sys2Proof.Machine

/-- The canonical form: addresses strictly rising, no listed byte equal to what an unlisted address reads as. -/
abbrev Memory.wf (m : Memory) : Prop :=
  m.Pairwise (fun a b => a.1 < b.1) ∧ ∀ c ∈ m, c.2 ≠ Memory.unlisted

/-- One byte. -/
def Memory.read : Memory → Nat → Byte
  | [], _ => Memory.unlisted
  | (k, v) :: m, a => if k = a then v else Memory.read m a

/-- The cell to list for a byte, none where it is what an unlisted address reads as. -/
def Memory.cell (a : Nat) (b : Byte) : Memory := if b = Memory.unlisted then [] else [(a, b)]

/-- Writes one byte. -/
def Memory.write : Memory → Nat → Byte → Memory
  | [], a, b => Memory.cell a b
  | (k, v) :: m, a, b =>
    if a < k then Memory.cell a b ++ (k, v) :: m
    else if a = k then Memory.cell a b ++ m
    else (k, v) :: Memory.write m a b

/-- `MemRead`: `n` bytes from address `a` (00_scope.md R13). -/
def Memory.readBytes (m : Memory) (a n : Nat) : List Byte := (List.range n).map fun i => m.read (a + i)

/-- `MemWrite`: the bytes `bs` from address `a` (00_scope.md R13). -/
def Memory.writeBytes : Memory → Nat → List Byte → Memory
  | m, _, [] => m
  | m, a, b :: bs => Memory.writeBytes (m.write a b) (a + 1) bs

end Sys2Proof.Machine
end

