-- ==== Sys2Proof/Machine/Operands.lean ====
section
/-! DEFINITION. How operands are read and how the fields of a frame are assembled from them (30_encoding.md R91): bits
of a byte string, buffer sizes, chunk sizes, data bytes, captured bytes. -/

namespace Sys2Proof.Machine

/-! ### Bits and bytes (00_scope.md R12, R13) -/

/-- `ceil8(n) = (n + 7) div 8` (00_scope.md R12). -/
def ceil8 (n : Nat) : Nat := (n + 7) / 8

/-- `ceil(a / b)`. -/
def ceilDiv (a b : Nat) : Nat := (a + b - 1) / b

/-- `bit(S, i)`: bit `i mod 8` of byte `i div 8` (00_scope.md R13, 20_memory.md R49). -/
def bitAt (bs : List Byte) (i : Nat) : Bool := (bs.getD (i / 8) 0).getLsbD (i % 8)

/-- Every bit of a byte string, first bit first (20_memory.md R49). -/
def allBits (bs : List Byte) : List Bool := (List.range (8 * bs.length)).map (bitAt bs)

/-- The number whose bits these are, least significant first: `Σ b_j << j` (30_encoding.md R91). -/
def bitsToNat : List Bool → Nat
  | [] => 0
  | b :: bs => b.toNat + 2 * bitsToNat bs

/-- A level placed at bit 7 of a data byte (30_encoding.md R83, R84). -/
def level7 (b : Bool) : Byte := if b then 0x80 else 0

/-- `c` bytes of `8c` captured bits, the first at bit 0 of the first byte (20_memory.md R51). -/
def packBytes (c : Nat) (bits : List Bool) : List Byte :=
  (List.range c).map fun i => byte (bitsToNat ((bits.drop (8 * i)).take 8))

/-- The byte of an `m`-bit capture: captured bit `j` at bit `8 - m + j`, the bits below drawn from `fill` (20_memory.md
R52, 45_engine_frames.md R153, R159). That an engine packs a partial capture against the MSB is the contract of R52, which
70_reset_and_hazards.md R214 makes an assumption of every claim about such bits (log 32). -/
def leftPack (m : Nat) (bits : List Bool) (fill : Byte) : Byte :=
  (byte (bitsToNat bits) <<< (8 - m)) ||| (fill &&& byte (2 ^ (8 - m) - 1))

/-! ### Limits (00_scope.md R10, R11; 30_encoding.md R76) -/

/-- `TMS_CHUNK`: the largest number of TMS bits per TMS frame. -/
def tmsChunk : Nat := 6

/-- `MAX_CLK_GROUPS`: the largest count of 8-pulse groups in one clock-only frame. -/
def maxClkGroups : Nat := 65536

/-- Lengths are naturals below this (30_encoding.md R76). -/
def lengthLimit : Nat := 2 ^ 31

/-- `F = B div 3`: TMS frames queued before a forced flush. -/
def framesPerFlush (cfg : Config) : Nat := cfg.bufSize / 3

/-- `C = B - 3`: the largest data chunk in bytes. -/
def chunkLimit (cfg : Config) : Nat := cfg.bufSize - 3

/-- 4 ≤ B ≤ 65539 (00_scope.md R10, R11). -/
def bufSizeOk (cfg : Config) : Bool := decide (4 ≤ cfg.bufSize ∧ cfg.bufSize ≤ 65539)

/-- 1 ≤ P ≤ 65536 and 10 + P ≤ B (44_teardown.md R142). -/
def probeOk (cfg : Config) : Bool :=
  decide (1 ≤ cfg.probe.length ∧ cfg.probe.length ≤ 65536 ∧ 10 + cfg.probe.length ≤ cfg.bufSize)

/-! ### Buffers (20_memory.md R41 to R45) -/

/-- The buffer holds at least `ceil8(len)` bytes (20_memory.md R41). -/
def longEnough (len : Nat) (b : Buf) : Bool := decide (ceil8 len ≤ b.size)

/-- The same of an optional buffer (43_data_shifter.md R128). -/
def optLongEnough (len : Nat) : Option Buf → Bool
  | none => true
  | some b => longEnough len b

/-- The two buffers share a byte (20_memory.md R73). -/
def overlap (a b : Buf) : Bool := decide (max a.base b.base < min (a.base + a.size) (b.base + b.size))

/-- Both buffers are present and share a byte. -/
def aliased : Option Buf → Option Buf → Bool
  | some a, some b => overlap a b
  | _, _ => false

/-- `bit(buf, i)` read from memory. -/
def bufBit (m : Memory) (b : Buf) (i : Nat) : Bool := (m.read (b.base + i / 8)).getLsbD (i % 8)

/-! ### TMS frames (30_encoding.md R83, 41_tms_shifter.md R105, R108) -/

/-- The number of bits of TMS frame `i`: `min(6, len - off)` with `off = 6i`. -/
def tmsBitsIn (len i : Nat) : Nat := min tmsChunk (len - tmsChunk * i)

/-- The data byte: the fixed TDI level in bit 7, the `n` TMS bits from bit `off` on in bits 0 to n - 1 (30_encoding.md
R91). -/
def tmsData (tdiLevel : Bool) (bits : Nat → Bool) (off n : Nat) : Byte :=
  level7 tdiLevel ||| byte (bitsToNat ((List.range n).map fun j => bits (off + j)))

/-- TMS frame `i` of a sequence of `len` bits. -/
def tmsFrame (cfg : Config) (bits : Nat → Bool) (len i : Nat) : List Byte :=
  [cfg.ops.tmsW, bitCountByte (tmsBitsIn len i), tmsData cfg.tmsTdiLevel bits (tmsChunk * i) (tmsBitsIn len i)]

/-- The TMS frames of a sequence of `len` bits, in order: `ceil(len / 6)` of them (41_tms_shifter.md R108). -/
def tmsFrames (cfg : Config) (bits : Nat → Bool) (len : Nat) : List (List Byte) :=
  (List.range (ceilDiv len tmsChunk)).map (tmsFrame cfg bits len)

/-! ### Data frames (30_encoding.md R84 to R86, 43_data_shifter.md R130 to R135) -/

/-- `real_len = last ? len - 1 : len` (43_data_shifter.md R130). -/
def realLen (len : Nat) (last : Bool) : Nat := if last then len - 1 else len

/-- The chunk sizes of `rem` full bytes, each at most `c` (43_data_shifter.md R132, R133). The first argument bounds the
recursion; `rem` itself is enough, since every chunk takes at least one byte when c ≥ 1 (log 25). -/
def chunkSizes : Nat → Nat → Nat → List Nat
  | 0, _, _ => []
  | fuel + 1, rem, c => if rem = 0 then [] else min rem c :: chunkSizes fuel (rem - min rem c) c

/-- The header of a byte-mode data frame of `c` bytes (30_encoding.md R85). -/
def byteHeader (cfg : Config) (w rd : Bool) (c : Nat) : List Byte := opData cfg w rd false :: byteCountBytes c

/-- The header of a bit-mode data frame of `m` bits (30_encoding.md R86). -/
def bitHeader (cfg : Config) (w rd : Bool) (m : Nat) : List Byte := [opData cfg w rd true, bitCountByte m]

/-- The exit frame: one TMS = 1 bit, the final TDI bit in bit 7 (30_encoding.md R84). -/
def exitFrame (cfg : Config) (rd fb : Bool) : List Byte := [opExit cfg rd, 0x00, 0x01 ||| level7 fb]

/-- `fb`: bit `nb_bit` of `TDI[nb_byte]`, 0 where TDI is absent (30_encoding.md R91, 43_data_shifter.md R135). -/
def finalBit (m : Memory) (tdi : Option Buf) (nbByte nbBit : Nat) : Bool :=
  match tdi with
  | none => false
  | some b => (m.read (b.base + nbByte)).getLsbD nbBit

/-- What step 4 stores of its captured byte: `b >> (8 - nb_bit)` (43_data_shifter.md R134). That the captured bits are
then bits 0 to nb_bit - 1 rests on the contract of 20_memory.md R52 (70_reset_and_hazards.md R214; log 32). -/
def residualByte (nbBit : Nat) (b : Byte) : Byte := b >>> (8 - nbBit)

/-- What step 5 merges into `TDO[nb_byte]`: `(b & 0x80) >> (7 - nb_bit)` (43_data_shifter.md R135). That bit 7 is the
captured bit rests on the contract of 20_memory.md R52 (70_reset_and_hazards.md R214; log 32). -/
def exitBit (nbBit : Nat) (b : Byte) : Byte := (b &&& 0x80) >>> (7 - nbBit)

/-! ### Clock-only and teardown frames (30_encoding.md R87 to R90, 44_teardown.md R143) -/

/-- `[OP_CLK_BYTES, byte(g - 1), (g - 1) >> 8]`. -/
def clkBytesFrame (cfg : Config) (g : Nat) : List Byte := cfg.ops.clkBytes :: byteCountBytes g

/-- `[OP_CLK_BITS, r - 1]`. -/
def clkBitsFrame (cfg : Config) (r : Nat) : List Byte := [cfg.ops.clkBits, bitCountByte r]

/-- The four frames of the self-test, in order. -/
def teardownFrames (cfg : Config) : List (List Byte) :=
  [[cfg.ops.setLow, cfg.tdLowVal, cfg.tdLowDir], [cfg.ops.setHigh, cfg.tdHighVal, cfg.tdHighDir], [cfg.ops.loopbackOn],
    byteHeader cfg true true cfg.probe.length ++ cfg.probe]

/-! ### The quirk predicate (40_initializer.md R103) -/

/-- Whether `sub` occurs in a string of characters. -/
def occursIn (sub : List Char) : List Char → Bool
  | [] => sub.isEmpty
  | c :: cs => sub.isPrefixOf (c :: cs) || occursIn sub cs

/-- `QUIRK_MATCH(s)` (log 22). -/
def quirkMatches : QuirkMatch → String → Bool
  | .exact name, s => decide (s = name)
  | .hasPrefix name, s => name.toList.isPrefixOf s.toList
  | .contains name, s => occursIn name.toList s.toList
  | .unspecified, s => Config.openQuirkMatch s

/-- `s != err and QUIRK_MATCH(s)` (40_initializer.md R99). -/
def quirkOf (cfg : Config) : Option String → Bool
  | none => false
  | some s => quirkMatches cfg.quirkMatch s

end Sys2Proof.Machine
end

