-- ==== Sys2Proof/Machine/Registers.lean ====
section
/-! DEFINITION. The one home of every register: each write of a field of State goes through one of these updates
(10_state.md R30 says which operation may write which). -/

namespace Sys2Proof.Machine

/-- Writes the lifecycle register (10_state.md R25). -/
def State.setPhase (p : Phase) (s : State) : State := { s with phase := p }

/-- Writes the quirk flag; INIT only (10_state.md R26). -/
def State.setQuirk (q : Bool) (s : State) : State := { s with quirk := q }

/-- Writes the fault record if it is `none`: it keeps the first fatal error (10_state.md R28, 60_exceptions.md R184). -/
def State.setFault (e : BlockError) (s : State) : State :=
  { s with fault := match s.fault with
                    | none => some e
                    | some first => some first }

/-- Appends to the diagnostic log (10_state.md R29). -/
def State.addDiag (d : Diag) (s : State) : State := { s with diag := s.diag ++ [d] }

/-- Records an event (10_state.md R38). -/
def State.record (e : Event) (s : State) : State := { s with trace := s.trace ++ [e] }

/-- Records the outcome of a request (60_exceptions.md R175). -/
def State.addResult (r : RequestResult) (s : State) : State := { s with results := s.results ++ [r] }

/-- Writes the pending transmit buffer (10_state.md R32). -/
def State.setPending (bs : List Byte) (s : State) : State := { s with pending := bs }

/-- Writes the caller's memory (20_memory.md R44: TDO bytes only). -/
def State.setMem (m : Memory) (s : State) : State := { s with mem := m }

/-- Writes the engine's state (45_engine_frames.md R149). -/
def State.setEngine (e : Engine) (s : State) : State := { s with engine := e }

/-- Writes what is left of the scripted answers. -/
def State.setInputs (i : Inputs) (s : State) : State := { s with inputs := i }

/-- Writes the requests the block has not taken yet (10_state.md R24). -/
def State.setRequests (rs : List (List Byte)) (s : State) : State := { s with requests := rs }

end Sys2Proof.Machine
end

