-- ==== Sys2Proof/Machine/Engine.lean ====
section
/-! DEFINITION. The reference engine's shared operations (45_engine_frames.md): pulses, captures, free draws, the end of
a transfer, and the engine whose state is no longer known. -/

namespace Sys2Proof.Machine

/-- The TDO level sampled on a pulse that drives `tms` and `tdi`: TDI itself under loopback, else the target's next bit,
else a free draw (45_engine_frames.md R149, R166; log 26). -/
def sampleTdo (tms tdi : Bool) (s : State) : Bool × State :=
  if s.engine.loop then (tdi, s)
  else
    match s.inputs.target with
    | .loopback => (tdi, s)
    | .bits [] => (Config.freeTdo s.engine.wave tms tdi, s)
    | .bits (b :: coming) => (b, s.setInputs { s.inputs with target := .bits coming })

/-- One pulse: drives TMS and TDI, samples TDO, and appends to the waveform; the pins keep the levels driven
(45_engine_frames.md R149, R150; log 28). -/
def pulse (tms tdi : Bool) (s : State) : Bool × State :=
  let sampled := sampleTdo tms tdi s
  let e := sampled.2.engine
  (sampled.1, sampled.2.setEngine
    { e with tmsPin := tms, tdiPin := tdi, wave := e.wave ++ [⟨tms, tdi, sampled.1⟩] })

/-- Pulses with these (TMS, TDI) levels, in order; the bits sampled come back in order. -/
def clock : List (Bool × Bool) → State → List Bool × State
  | [], s => ([], s)
  | (tms, tdi) :: levels, s =>
    let first := pulse tms tdi s
    let others := clock levels first.2
    (first.1 :: others.1, others.2)

/-- The levels of `n` pulses of a TMS frame: TMS from bits 0 to n - 1 of the data byte, TDI from its bit 7
(45_engine_frames.md R152). -/
def tmsLevels (n : Nat) (d : Byte) : List (Bool × Bool) := (List.range n).map fun j => (d.getLsbD j, d.getLsbD 7)

/-- The levels of pulses that shift these TDI bits with TMS held (45_engine_frames.md R154, R158). -/
def dataLevels (s : State) (bits : List Bool) : List (Bool × Bool) := bits.map fun b => (s.engine.tmsPin, b)

/-- Bits 0 to m - 1 of a payload byte; the others are not clocked (45_engine_frames.md R151). -/
def lowBits (m : Nat) (p : Byte) : List Bool := (List.range m).map p.getLsbD

/-- The levels of `n` pulses with TMS and TDI held (45_engine_frames.md R155, R159, R162, R163). -/
def heldLevels (s : State) (n : Nat) : List (Bool × Bool) := List.replicate n (s.engine.tmsPin, s.engine.tdiPin)

/-- Appends response bytes; the transfer has captured something (45_engine_frames.md R149, R169). -/
def respond (bs : List Byte) (s : State) : State :=
  s.setEngine { s.engine with resp := s.engine.resp ++ bs, captured := true }

/-- The byte whose low bits fill a partial capture: scripted, else a free draw (45_engine_frames.md R153, R159; log
16). -/
def drawFill (s : State) : Byte × State :=
  match s.inputs.fill with
  | [] => (Config.freeByte s.engine.draws, s.setEngine { s.engine with draws := s.engine.draws + 1 })
  | b :: coming => (b, s.setInputs { s.inputs with fill := coming })

/-- Pulses that capture their `m` TDO bits into one response byte, against the MSB (45_engine_frames.md R153, R159). -/
def clockCaptureBits (m : Nat) (levels : List (Bool × Bool)) (s : State) : State :=
  let clocked := clock levels s
  let fill := drawFill clocked.2
  respond [leftPack m clocked.1 fill.1] fill.2

/-- Pulses that capture their TDO bits into `c` response bytes, LSB first (45_engine_frames.md R155). -/
def clockCaptureBytes (c : Nat) (levels : List (Bool × Bool)) (s : State) : State :=
  let clocked := clock levels s
  respond (packBytes c clocked.1) clocked.2

/-- What the quirked chip adds to its responses: scripted, else a free draw of any length (45_engine_frames.md R169;
log 17). -/
def drawChipResponses (s : State) : State :=
  match s.inputs.chipResponses with
  | [] => s.setEngine { s.engine with resp := s.engine.resp ++ Config.freeBytes s.engine.draws, draws := s.engine.draws + 1 }
  | bs :: coming =>
    (s.setEngine { s.engine with resp := s.engine.resp ++ bs }).setInputs { s.inputs with chipResponses := coming }

/-- What ends a transfer that has been executed: on the quirked chip, if it captured nothing, the chip's own responses
(45_engine_frames.md R169). -/
def finishTransfer (s : State) : State :=
  match s.engine.inbox with
  | [] :: transfers =>
    let s' := if s.cfg.quirkedChip && !s.engine.captured then drawChipResponses s else s
    s'.setEngine { s'.engine with inbox := transfers, captured := false }
  | _ => s

/-- What is left of the transfers once the frame at hand has been taken from them. -/
def setInbox (inbox : List (List Byte)) (s : State) : State := s.setEngine { s.engine with inbox := inbox }

/-- The engine delivers `k` response bytes to a read (20_memory.md R46, R59). -/
def consumeResponses (k : Nat) (s : State) : State := s.setEngine { s.engine with resp := s.engine.resp.drop k }

/-- The engine's responses are no longer known: a read timed out, and the spec does not say what it took (91 N-MEM-5;
log 14). -/
def forgetResponses (s : State) : State :=
  s.setEngine { s.engine with resp := Config.freeBytes s.engine.draws, draws := s.engine.draws + 1 }

/-- The pins, the loopback bit and the GPIO registers become free draws (45_engine_frames.md R170; log 24). -/
def drawPins (s : State) : State :=
  let k := s.engine.draws
  s.setEngine { s.engine with
    tmsPin := Config.freeBit k
    tdiPin := Config.freeBit (k + 1)
    loop := Config.freeBit (k + 2)
    gpioLow := (Config.freeByte k, Config.freeByte (k + 1))
    gpioHigh := (Config.freeByte (k + 2), Config.freeByte (k + 3))
    draws := k + 4 }

/-- The engine after a transfer that failed or a transport failure: what it received, did and holds is unknown
(70_reset_and_hazards.md R215, 91 N-MEM-2; log 13). The pulses made before stay (41_tms_shifter.md R114). -/
def loseEngine (s : State) : State :=
  let s' := forgetResponses (drawPins s)
  s'.setEngine { s'.engine with
    wave := s'.engine.wave ++ Config.freePulses s'.engine.draws
    captured := false
    sync := false
    draws := s'.engine.draws + 1 }

end Sys2Proof.Machine
end

