-- ==== Sys2Proof/Machine/EngineFrames.lean ====
section
/-! DEFINITION. The meaning of each frame on the reference engine (45_engine_frames.md R152 to R166), and the engine
executing the transfers it has received. -/

namespace Sys2Proof.Machine

open Host (Outcome)

/-- OP_TMS_W makes `n` pulses and captures nothing (R152). -/
def execOpTmsW (n : Nat) (d : Byte) (s : State) : Outcome State Fault Refusal :=
  .next (clock (tmsLevels n d) s).2

/-- OP_TMS_WR makes the same pulses and captures their TDO bits into one byte (R153). -/
def execOpTmsWr (_neg : Bool) (n : Nat) (d : Byte) (s : State) : Outcome State Fault Refusal :=
  .next (clockCaptureBits n (tmsLevels n d) s)

/-- OP_DB_N has no reference meaning: the engine faults and names the frame (R157, R167). -/
def execOpByteN (c : Nat) (s : State) : Outcome State Fault Refusal :=
  .fault (.engineUnmodelled (encode s.cfg.ops (.opByteN c)))

/-- OP_DB_W shifts the payload's bits with TMS held (R154). -/
def execOpByteW (payload : List Byte) (s : State) : Outcome State Fault Refusal :=
  .next (clock (dataLevels s (allBits payload)) s).2

/-- OP_DB_R makes `8c` pulses with TMS and TDI held and captures `c` bytes (R155). -/
def execOpByteR (_neg : Bool) (c : Nat) (s : State) : Outcome State Fault Refusal :=
  .next (clockCaptureBytes c (heldLevels s (8 * c)) s)

/-- OP_DB_WR shifts the payload's bits and captures as many (R156). -/
def execOpByteWr (_neg : Bool) (payload : List Byte) (s : State) : Outcome State Fault Refusal :=
  .next (clockCaptureBytes payload.length (dataLevels s (allBits payload)) s)

/-- OP_Db_N has no reference meaning: the engine faults and names the frame (R161, R167). -/
def execOpBitN (m : Nat) (s : State) : Outcome State Fault Refusal :=
  .fault (.engineUnmodelled (encode s.cfg.ops (.opBitN m)))

/-- OP_Db_W shifts bits 0 to m - 1 of the payload byte with TMS held (R158, R151). -/
def execOpBitW (m : Nat) (p : Byte) (s : State) : Outcome State Fault Refusal :=
  .next (clock (dataLevels s (lowBits m p)) s).2

/-- OP_Db_R makes `m` pulses with TMS and TDI held and captures one byte (R159). -/
def execOpBitR (_neg : Bool) (m : Nat) (s : State) : Outcome State Fault Refusal :=
  .next (clockCaptureBits m (heldLevels s m) s)

/-- OP_Db_WR makes the pulses of OP_Db_W and the capture of OP_Db_R (R160). -/
def execOpBitWr (_neg : Bool) (m : Nat) (p : Byte) (s : State) : Outcome State Fault Refusal :=
  .next (clockCaptureBits m (dataLevels s (lowBits m p)) s)

/-- OP_CLK_BYTES makes `8g` pulses with TMS and TDI held (R162). -/
def execOpClkBytes (g : Nat) (s : State) : Outcome State Fault Refusal :=
  .next (clock (heldLevels s (8 * g)) s).2

/-- OP_CLK_BITS makes `r` pulses with TMS and TDI held (R163). -/
def execOpClkBits (r : Nat) (s : State) : Outcome State Fault Refusal :=
  .next (clock (heldLevels s r) s).2

/-- OP_SET_LOW writes the low GPIO register (R164). -/
def execOpSetLow (value direction : Byte) (s : State) : Outcome State Fault Refusal :=
  .next (s.setEngine { s.engine with gpioLow := (value, direction) })

/-- OP_SET_HIGH writes the high GPIO register (R165). -/
def execOpSetHigh (value direction : Byte) (s : State) : Outcome State Fault Refusal :=
  .next (s.setEngine { s.engine with gpioHigh := (value, direction) })

/-- OP_LOOPBACK_ON sets the loopback bit (R166). -/
def execOpLoopbackOn (s : State) : Outcome State Fault Refusal :=
  .next (s.setEngine { s.engine with loop := true })

/-- A frame on the engine. The engine receives frames only; a request is none (R168). -/
def execFrame (i : Instr) (s : State) : Outcome State Fault Refusal :=
  match i with
  | .init pinCfg clockHz => .fault (.engineUnmodelled (encode s.cfg.ops (.init pinCfg clockHz)))
  | .tmsShift tms len => .fault (.engineUnmodelled (encode s.cfg.ops (.tmsShift tms len)))
  | .clockTick tmsLevel tdiLevel count => .fault (.engineUnmodelled (encode s.cfg.ops (.clockTick tmsLevel tdiLevel count)))
  | .dataShift tdi tdo len last => .fault (.engineUnmodelled (encode s.cfg.ops (.dataShift tdi tdo len last)))
  | .teardown => .fault (.engineUnmodelled (encode s.cfg.ops .teardown))
  | .opTmsW n d => execOpTmsW n d s
  | .opTmsWr neg n d => execOpTmsWr neg n d s
  | .opByteN c => execOpByteN c s
  | .opByteW payload => execOpByteW payload s
  | .opByteR neg c => execOpByteR neg c s
  | .opByteWr neg payload => execOpByteWr neg payload s
  | .opBitN m => execOpBitN m s
  | .opBitW m p => execOpBitW m p s
  | .opBitR neg m => execOpBitR neg m s
  | .opBitWr neg m p => execOpBitWr neg m p s
  | .opClkBytes g => execOpClkBytes g s
  | .opClkBits r => execOpClkBits r s
  | .opSetLow value direction => execOpSetLow value direction s
  | .opSetHigh value direction => execOpSetHigh value direction s
  | .opLoopbackOn => execOpLoopbackOn s

/-- What follows a frame: the end of its transfer if it was the last one. -/
def afterFrame : Outcome State Fault Refusal → Outcome State Fault Refusal
  | .next s => .next (finishTransfer s)
  | .fault f => .fault f
  | .refused r => .refused r

/-- The engine executes the next frame of a transfer with the meaning `run` gives it (R149). Bytes that do not parse as
a frame stop the engine (R168). -/
def frameStep (run : Instr → State → Outcome State Fault Refusal) (transfer : List Byte)
    (transfers : List (List Byte)) (s : State) : Outcome State Fault Refusal :=
  match transfer with
  | [] => .next (finishTransfer s)
  | _ :: _ =>
    match decodeFrame s.cfg.ops transfer with
    | some (i, rest) => afterFrame (run i (setInbox (rest :: transfers) s))
    | none => .fault (.engineUnmodelled transfer)

/-- The engine executes frames until it has none left or stops. -/
def catchUpFor : Nat → State → State
  | 0, s => s
  | fuel + 1, s =>
    match s.engine.inbox with
    | [] => s
    | transfer :: transfers =>
      match frameStep execFrame transfer transfers s with
      | .next s' => catchUpFor fuel s'
      | .fault _ => s
      | .refused _ => s

/-- How many moves the engine may need: one a byte and one a transfer. -/
def inboxSize (inbox : List (List Byte)) : Nat := (inbox.map fun t => t.length + 1).sum

/-- The engine executes what it has received, before it answers a read (44_teardown.md R148: the bytes come back once
the frames before them have been executed; log 7). It stops early at a frame it has no meaning for. -/
def catchUp (s : State) : State := catchUpFor (inboxSize s.engine.inbox) s

end Sys2Proof.Machine
end

