-- ==== Sys2Proof/Machine/Ops.lean ====
section
/-! DEFINITION. The block's shared operations: the engine's answers (70_reset_and_hazards.md R221), the primitives of
20_memory.md R57 to R62, raising a fatal error (60_exceptions.md R184) and ending a request (R175, R182). -/

namespace Sys2Proof.Machine

/-- How an operation inside a request ends: with a value, or with a fatal error after which nothing more of the request
runs (00_scope.md R17). -/
inductive Res (α : Type) where
  | ok (a : α) (s : State)
  | err (e : BlockError) (s : State)
  deriving Repr

/-- The state an operation left, however it ended. -/
def Res.state {α : Type} : Res α → State
  | .ok _ s => s
  | .err _ s => s

/-- Statements run in the order written (00_scope.md R17). -/
def Res.andThen {α β : Type} (r : Res α) (f : α → State → Res β) : Res β :=
  match r with
  | .ok a s => f a s
  | .err e s => .err e s

/-! ### The engine's answers (70_reset_and_hazards.md R221; 60_exceptions.md R193) -/

/-- What `configure(mode, pin_cfg, hz)` answers: scripted, else success from the reference engine, else the oracle's. R221
fixes what the reference engine answers to a flush and to a read, and 45_engine_frames.md R170 only what the call does:
that its answer is success is the model's: DESIGN CHOICE (log 33), unsafe. -/
def configureAnswer (pinCfg clockHz : Nat) (s : State) : Bool × State :=
  match s.inputs.configure with
  | ok :: coming => (ok, s.setInputs { s.inputs with configure := coming })
  | [] =>
    match s.oracle with
    | .reference => (true, s)
    | .arbitrary => (Config.oracleConfigure s.trace s.cfg.engineMode pinCfg clockHz, s)

/-- What `configure` leaves of the reference engine: the pins are free draws, and the loopback bit is 0 if the call
succeeded (45_engine_frames.md R170; log 24). -/
def settlePins (ok : Bool) (s : State) : State :=
  match s.oracle with
  | .arbitrary => s
  | .reference =>
    let drawn := drawPins s
    if ok then drawn.setEngine { drawn.engine with loop := false } else drawn

/-- `configure(mode, pin_cfg, hz)`. -/
def callConfigure (pinCfg clockHz : Nat) (s : State) : Bool × State :=
  let answered := configureAnswer pinCfg clockHz s
  (answered.1, settlePins answered.1 answered.2)

/-- `device_identity()`: scripted, else the reference engine's product name, else the oracle's. -/
def callIdentity (s : State) : Option String × State :=
  match s.inputs.identity with
  | name :: coming => (name, s.setInputs { s.inputs with identity := coming })
  | [] =>
    match s.oracle with
    | .reference => (s.cfg.productName, s)
    | .arbitrary => (Config.oracleIdentity s.trace, s)

/-- What `flush()` answers with `n` bytes pending: scripted, else `n` from the reference engine ("every flush returns
|pending|"), else the oracle's. -/
def flushAnswer (n : Nat) (s : State) : Int × State :=
  match s.inputs.flush with
  | r :: coming => (r, s.setInputs { s.inputs with flush := coming })
  | [] =>
    match s.oracle with
    | .reference => ((n : Int), s)
    | .arbitrary => (Config.oracleFlush s.trace n, s)

/-- What the reference engine has of a flushed transfer: all of it if the flush returned its size, else nothing is known
(91 N-MEM-2; log 13). -/
def deliver (bytes : List Byte) (returned : Int) (s : State) : State :=
  match s.oracle with
  | .arbitrary => s
  | .reference =>
    if returned = (bytes.length : Int) ∧ s.engine.sync = true then
      setInbox (s.engine.inbox ++ [bytes]) s
    else loseEngine (catchUp s)

/-- The engine's `flush()`: recorded, and `pending` is empty after it whatever it returned (20_memory.md R58). -/
def callFlush (s : State) : Int × State :=
  let n := s.pending.length
  let answered := flushAnswer n s
  (answered.1, (deliver s.pending answered.1 answered.2).record (.flush n answered.1) |>.setPending [])

/-- A read answers at most `n` bytes (20_memory.md R59). -/
def cutAnswer (n : Nat) (a : ReadAnswer) : ReadAnswer := a.map (·.take n)

/-- Whether the reference engine can answer a read of `n` bytes: it has executed all it received, its state is known,
and it holds the bytes (70_reset_and_hazards.md R221: "every read returns `n` bytes produced by the frames"). -/
def canAnswer (n : Nat) (s : State) : Bool :=
  decide (s.oracle = .reference) && s.engine.inbox.isEmpty && s.engine.sync && decide (n ≤ s.engine.resp.length)

/-- The reference engine after a read that it did not answer itself: it has given the bytes answered, or its responses
are no longer known (log 14). -/
def settledEngine (a : ReadAnswer) (s : State) : Engine :=
  match a with
  | some bs => if bs.length ≤ s.engine.resp.length then (consumeResponses bs.length s).engine else (forgetResponses s).engine
  | none => (forgetResponses s).engine

/-- What becomes of the reference engine's responses after such a read. -/
def settleResponses (a : ReadAnswer) (s : State) : State :=
  match s.oracle with
  | .arbitrary => s
  | .reference => s.setEngine (settledEngine a s)

/-- Whether the engine, if it is the reference engine, runs before it answers. -/
def readyToRead (s : State) : State :=
  match s.oracle with
  | .arbitrary => s
  | .reference => catchUp s

/-- `read(n)`: scripted, else the reference engine's response bytes, else the oracle's (20_memory.md R59; log 14). -/
def callRead (n : Nat) (s : State) : ReadAnswer × State :=
  let s := readyToRead s
  match s.inputs.read with
  | a :: coming =>
    let a := cutAnswer n a
    (a, settleResponses a (s.setInputs { s.inputs with read := coming }))
  | [] =>
    if canAnswer n s then (some (s.engine.resp.take n), consumeResponses n s)
    else
      let a := cutAnswer n (Config.oracleRead s.trace n)
      (a, match s.oracle with
          | .arbitrary => s
          | .reference => forgetResponses s)

/-- Whether a read answered all the bytes it was asked for. -/
def answersAll (n : Nat) : ReadAnswer → Bool
  | none => false
  | some bs => bs.length == n

/-! ### The primitives (20_memory.md R57 to R62) -/

/-- `Enq(bs)` (R57). -/
def enq (bs : List Byte) (s : State) : State := (s.setPending (s.pending ++ bs)).record (.enq bs)

/-- `Flush()` (R58). -/
def flush (s : State) : Res Unit :=
  if s.pending = [] then .ok () s
  else
    let n := s.pending.length
    let called := callFlush s
    if called.1 = (n : Int) then .ok () called.2
    else .err (.transportFailure (.flush n called.1)) called.2

/-- The capture read itself, after its flush (R60). -/
def captureRead (n : Nat) (s : State) : Res (List Byte) :=
  let called := callRead n s
  let s' := called.2.record (.read n called.1)
  match called.1 with
  | some bs => if bs.length = n then .ok bs s' else .err (.transportFailure (.read n called.1)) s'
  | none => .err (.transportFailure (.read n called.1)) s'

/-- `ReadBack(n)` (R60). -/
def readBack (n : Nat) (s : State) : Res (List Byte) := (flush s).andThen fun _ s => captureRead n s

/-- The dummy read of a drain, after its flush: its failure is a diagnostic (R61). -/
def drainRead (n : Nat) (s : State) : State :=
  let called := callRead n s
  let s' := called.2.record (.drain n called.1)
  if answersAll n called.1 then s' else s'.addDiag (.quirkDrainFailure n called.1)

/-- `Drain(n)` (R61). -/
def drain (n : Nat) (s : State) : Res Unit := (flush s).andThen fun _ s => .ok () (drainRead n s)

/-- `WriteDone(n)` (R62). -/
def writeDone (n : Nat) (s : State) : Res Unit := if s.quirk then drain n s else flush s

/-! ### Fatal errors and the end of a request (60_exceptions.md) -/

/-- After a `TransportFailure`, of whichever call, the TAP state and the engine's queue are unknown
(70_reset_and_hazards.md R215; log 13): the reference engine executes what it had received, whose pulses stay
(41_tms_shifter.md R114), and is lost. One that is lost already stays so, and one that has stopped at a frame keeps that
frame (log 13, 19). -/
def loseTrack (s : State) : State :=
  match s.oracle with
  | .arbitrary => s
  | .reference => if s.engine.sync then loseEngine (catchUp s) else s

/-- What a fatal error leaves of the engine. A consistency failure comes before any engine call (60_exceptions.md
R178). -/
def engineAfter (e : BlockError) (s : State) : State :=
  match e with
  | .transportFailure _ => loseTrack s
  | .protocolConsistencyFailure _ => s

/-- Raising a fatal error: the request stops, `fault` keeps the first error, `phase` becomes FAILED and the caller gets
`Err(code, info)`; nothing else is saved and effects already made stand (R184). After a transport failure the engine is
unknown (70_reset_and_hazards.md R215). There is no return from an error and no recovery but TEARDOWN (R185, R186). -/
def raise (e : BlockError) (s : State) : State :=
  (((engineAfter e s).setFault e).setPhase .failed).addResult (.err e)

/-- A refused request records its outcome and writes nothing else (R182). -/
def refuse (reason : RefusedReason) (s : State) : State := s.addResult (.refused reason)

/-- The end of a request (R175). -/
def finish : Res OkValue → State
  | .ok v s => s.addResult (.ok v)
  | .err e s => raise e s

end Sys2Proof.Machine
end

