-- ==== Sys2Proof/Machine/TmsShift.lean ====
section
/-! DEFINITION. TMS_SHIFT, the TMS Shifter (41_tms_shifter.md R105 to R114). -/

namespace Sys2Proof.Machine

open Host (Outcome)

/-- A flush, and a drain of `n` bytes after it if the quirk flag is set: what TMS_SHIFT does at its threshold and at its
end (R105). -/
def flushDrain (n : Nat) (s : State) : Res Unit :=
  (flush s).andThen fun _ s => if s.quirk then drain n s else .ok () s

/-- Sends TMS frames, with a flush after every `perFlush` of them; `k` counts the frames queued since the last flush
(R105, R110). -/
def sendTmsFrames (perFlush drainSize : Nat) : List (List Byte) → Nat → State → Res Unit
  | [], _, s => .ok () s
  | frame :: frames, k, s =>
    let s := enq frame s
    if k + 1 = perFlush then
      (flushDrain drainSize s).andThen fun _ s => sendTmsFrames perFlush drainSize frames 0 s
    else sendTmsFrames perFlush drainSize frames (k + 1) s

/-- TMS_SHIFT's body, on the bits of its sequence; CLOCK_TICK's fallback runs it too (R105; 42_clock_ticker.md R122). -/
def tmsBody (bits : Nat → Bool) (len : Nat) (s : State) : Res OkValue :=
  if len = 0 then .ok (.value 0) s
  else
    ((sendTmsFrames (framesPerFlush s.cfg) (ceil8 len) (tmsFrames s.cfg bits len) 0 s).andThen
        fun _ s => flushDrain (ceil8 len) s).andThen
      fun _ s => .ok (.value len) s

/-- Why a TMS_SHIFT is not admitted, in the order of 60_exceptions.md R183 (R106). -/
def tmsRefusal (tms : Buf) (len : Nat) (s : State) : Option RefusedReason :=
  if s.phase ≠ .ready then some .notReady
  else if lengthLimit ≤ len then some .lengthTooLarge
  else if longEnough len tms then none
  else some .bufferTooShort

/-- TMS_SHIFT (R105). -/
def execTmsShift (tms : Buf) (len : Nat) (s : State) : Outcome State Fault Refusal :=
  .next (match tmsRefusal tms len s with
         | some reason => refuse reason s
         | none => finish (tmsBody (bufBit s.mem tms) len s))

end Sys2Proof.Machine
end

