-- ==== Sys2Proof/Machine/ClockTick.lean ====
section
/-! DEFINITION. CLOCK_TICK, the Clock Ticker (42_clock_ticker.md R115 to R126). -/

namespace Sys2Proof.Machine

open Host (Outcome)

/-- One clock-only frame of a path that has `units` of it to make: none if it has none, else the frame and its own
flush (R118). -/
def clockFrame (units : Nat) (frame : List Byte) (s : State) : Res Unit :=
  if units = 0 then .ok () s else flush (enq frame s)

/-- The fast path: a byte frame for the groups of 8, then a bit frame for the remainder (R118, R126). -/
def clockFast (count : Nat) (s : State) : Res OkValue :=
  ((clockFrame (count / 8) (clkBytesFrame s.cfg (count / 8)) s).andThen
      fun _ s => clockFrame (count % 8) (clkBitsFrame s.cfg (count % 8)) s).andThen
    fun _ s => .ok (.value count) s

/-- Why a CLOCK_TICK is not admitted, in the order of 60_exceptions.md R183 (R116, R119, R120). -/
def clockRefusal (count : Nat) (s : State) : Option RefusedReason :=
  if s.phase ≠ .ready then some .notReady
  else if lengthLimit ≤ count then some .lengthTooLarge
  else if s.cfg.clkOnlyCapable && s.quirk then some .quirkFastPath
  else if s.cfg.clkOnlyCapable && decide (maxClkGroups < count / 8) then some .clockTooLong
  else none

/-- CLOCK_TICK (R115). `tdi_level` is not read (R123). On the fallback path every bit of the sequence is `tms_level`;
the sequence is not built (R122). -/
def execClockTick (tmsLevel _tdiLevel : Bool) (count : Nat) (s : State) : Outcome State Fault Refusal :=
  .next (match clockRefusal count s with
         | some reason => refuse reason s
         | none => finish (if s.cfg.clkOnlyCapable then clockFast count s else tmsBody (fun _ => tmsLevel) count s))

end Sys2Proof.Machine
end

