-- ==== Sys2Proof/Machine/DataShift.lean ====
section
/-! DEFINITION. DATA_SHIFT, the Data Shifter (43_data_shifter.md R127 to R140). -/

namespace Sys2Proof.Machine

open Host (Outcome)

/-- The TDO bytes of a step that failed hold free values (R138; log 15). R138 leaves one byte under two clauses: with
residual bits, TDO[nb_byte] was assigned by step 4, which completed, and is also the byte of an exit step that fails. The
model makes it free, as a byte of the failing step: DESIGN CHOICE (log 15), safe. -/
def scrambleTdo (base n : Nat) (s : State) : State :=
  s.setMem (s.mem.writeBytes base ((List.range n).map fun i => Config.freeTdoByte s.trace (base + i)))

/-- How a step of `n` bytes closes: with TDO at `at`, a capture read whose bytes `store` turns into what is written
there; without, `WriteDone(n)` (R132, R134, R135). Where the exit step fails after a residual step that completed, the byte
both assign is free (60_exceptions.md R184 and R138 leave it open: DESIGN CHOICE, log 15). -/
def closeStep (tdo : Option Nat) (n : Nat) (store : State → List Byte → List Byte) (s : State) : Res Unit :=
  match tdo with
  | none => writeDone n s
  | some at_ =>
    match readBack n s with
    | .ok bs s => .ok () (s.setMem (s.mem.writeBytes at_ (store s bs)))
    | .err e s => .err e (scrambleTdo at_ n s)

/-- The address of byte `i` of the TDO buffer, if there is one. -/
def tdoAt (tdo : Option Buf) (i : Nat) : Option Nat := tdo.map fun b => b.base + i

/-- Enqueues `n` TDI bytes from byte `cur` on, if TDI is present (R132, R134). -/
def enqTdi (tdi : Option Buf) (cur n : Nat) (s : State) : State :=
  match tdi with
  | none => s
  | some b => enq (s.mem.readBytes (b.base + cur) n) s

/-- Step 3, one chunk of `c` bytes at cursor `cur` (R132). -/
def dataChunk (tdi tdo : Option Buf) (cur c : Nat) (s : State) : Res Unit :=
  closeStep (tdoAt tdo cur) c (fun _ bs => bs)
    (enqTdi tdi cur c (enq (byteHeader s.cfg tdi.isSome tdo.isSome c) s))

/-- Step 3, every chunk in turn (R132, R133). -/
def dataChunks (tdi tdo : Option Buf) : List Nat → Nat → State → Res Unit
  | [], _, s => .ok () s
  | c :: sizes, cur, s => (dataChunk tdi tdo cur c s).andThen fun _ s => dataChunks tdi tdo sizes (cur + c) s

/-- Step 4, the residual bits (R134). -/
def dataResidual (tdi tdo : Option Buf) (nbByte nbBit : Nat) (s : State) : Res Unit :=
  if nbBit = 0 then .ok () s
  else
    closeStep (tdoAt tdo nbByte) 1 (fun _ bs => bs.map (residualByte nbBit))
      (enqTdi tdi nbByte 1 (enq (bitHeader s.cfg tdi.isSome tdo.isSome nbBit) s))

/-- What step 5 stores: the exit bit OR-ed into the byte that is there (R135). -/
def mergeExit (tdo : Option Buf) (nbByte nbBit : Nat) (s : State) (bs : List Byte) : List Byte :=
  match tdo with
  | none => []
  | some b => bs.map fun captured => s.mem.read (b.base + nbByte) ||| exitBit nbBit captured

/-- Step 5, the final bit with the TAP exit (R135). -/
def dataExit (tdi tdo : Option Buf) (nbByte nbBit : Nat) (last : Bool) (s : State) : Res Unit :=
  if last then
    closeStep (tdoAt tdo nbByte) 1 (mergeExit tdo nbByte nbBit)
      (enq (exitFrame s.cfg tdo.isSome (finalBit s.mem tdi nbByte nbBit)) s)
  else .ok () s

/-- Steps 3 to 5 (R127). -/
def dataSteps (tdi tdo : Option Buf) (nbByte nbBit : Nat) (last : Bool) (s : State) : Res OkValue :=
  (((dataChunks tdi tdo (chunkSizes nbByte nbByte (chunkLimit s.cfg)) 0 s).andThen
      fun _ s => dataResidual tdi tdo nbByte nbBit s).andThen
        fun _ s => dataExit tdi tdo nbByte nbBit last s).andThen
          fun _ s => .ok (.value 0) s

/-- Step 2's split and its check, which the model keeps as a named check (R131, 93 I-7). -/
def splitOk (realLen nbByte nbBit : Nat) : Bool := nbByte * 8 + nbBit == realLen

/-- DATA_SHIFT's body (R127): the length check (R129), the split (R130, R131), the steps. -/
def dataBody (tdi tdo : Option Buf) (len : Nat) (last : Bool) (s : State) : Res OkValue :=
  if len = 0 then .err (.protocolConsistencyFailure (.lenZero len last)) s
  else
    let real := realLen len last
    if splitOk real (real / 8) (real % 8) then dataSteps tdi tdo (real / 8) (real % 8) last s
    else .err (.protocolConsistencyFailure (.split real (real / 8) (real % 8))) s

/-- Why a DATA_SHIFT is not admitted, in the order of 60_exceptions.md R183 (R128). -/
def dataRefusal (tdi tdo : Option Buf) (len : Nat) (s : State) : Option RefusedReason :=
  if s.phase ≠ .ready then some .notReady
  else if lengthLimit ≤ len then some .lengthTooLarge
  else if !(optLongEnough len tdi && optLongEnough len tdo) then some .bufferTooShort
  else if aliased tdi tdo then some .aliasedBuffers
  else none

/-- DATA_SHIFT (R127). -/
def execDataShift (tdi tdo : Option Buf) (len : Nat) (last : Bool) (s : State) : Outcome State Fault Refusal :=
  .next (match dataRefusal tdi tdo len s with
         | some reason => refuse reason s
         | none => finish (dataBody tdi tdo len last s))

end Sys2Proof.Machine
end

