-- ==== Sys2Proof/Machine/Init.lean ====
section
/-! DEFINITION. INIT, the Initializer (40_initializer.md R99 to R104). -/

namespace Sys2Proof.Machine

open Host (Outcome)

/-- The events of INIT's calls (10_state.md R38). -/
def configureCalled (pinCfg clockHz : Nat) (s : State) : Bool × State :=
  let called := callConfigure pinCfg clockHz s
  (called.1, called.2.record (.configure s.cfg.engineMode pinCfg clockHz called.1))

/-- `device_identity()` with its event. -/
def identityCalled (s : State) : Option String × State :=
  let called := callIdentity s
  (called.1, called.2.record (.identity called.1))

/-- INIT's body: `configure`, whose failure is fatal (R102), then `device_identity`, whose failure is not (R103). -/
def initBody (pinCfg clockHz : Nat) (s : State) : Res OkValue :=
  let configured := configureCalled pinCfg clockHz s
  if configured.1 then
    let named := identityCalled configured.2
    .ok .unit ((named.2.setQuirk (quirkOf s.cfg named.1)).setPhase .ready)
  else .err (.transportFailure .configure) configured.2

/-- Why an INIT is not admitted, in the order of 60_exceptions.md R183 (R100). -/
def initRefusal (s : State) : Option RefusedReason :=
  if s.phase ≠ .uninit then some .notUninit
  else if bufSizeOk s.cfg then none
  else some .config

/-- INIT (R99). -/
def execInit (pinCfg clockHz : Nat) (s : State) : Outcome State Fault Refusal :=
  .next (match initRefusal s with
         | some reason => refuse reason s
         | none => finish (initBody pinCfg clockHz s))

end Sys2Proof.Machine
end

