-- ==== Sys2Proof/Machine/Teardown.lean ====
section
/-! DEFINITION. TEARDOWN, the Teardown Self-Test (44_teardown.md R141 to R148). -/

namespace Sys2Proof.Machine

open Host (Outcome)

/-- Enqueues frames in order. -/
def enqAll : List (List Byte) → State → State
  | [], s => s
  | frame :: frames, s => enqAll frames (enq frame s)

/-- The self-test's read: only its count is checked, and a mismatch is a warning (R144, R145). -/
def teardownRead (s : State) : State :=
  let n := s.cfg.probe.length
  let called := callRead n s
  let s' := called.2.record (.read n called.1)
  if answersAll n called.1 then s' else s'.addDiag (.teardownMismatchRead n called.1)

/-- The self-test: the frames in one transfer, then the read; after a flush that fails the read is skipped and the
failure is a warning (R141, R143, R145). The quirk flag is not read. -/
def selfTest (s : State) : State :=
  let s := enqAll (teardownFrames s.cfg) s
  let n := s.pending.length
  let flushed := callFlush s
  if flushed.1 = (n : Int) then teardownRead flushed.2 else flushed.2.addDiag (.teardownMismatchFlush n flushed.1)

/-- TEARDOWN (R141): a no-op in UNINIT and CLOSED (R146), refused with a bad probe (R142), else the self-test and
CLOSED. -/
def execTeardown (s : State) : Outcome State Fault Refusal :=
  .next (match s.phase with
         | .uninit => s.addResult (.ok .unit)
         | .closed => s.addResult (.ok .unit)
         | .ready => if probeOk s.cfg then ((selfTest s).setPhase .closed).addResult (.ok .unit) else refuse .config s
         | .failed => if probeOk s.cfg then ((selfTest s).setPhase .closed).addResult (.ok .unit) else refuse .config s)

end Sys2Proof.Machine
end

