-- ==== Sys2Proof/Machine/Dispatch.lean ====
section
/-! DEFINITION. The one match over the instructions: each arm calls the instruction's meaning. -/

namespace Sys2Proof.Machine

/-- What an instruction does. -/
def exec (i : Instr) (s : State) : Host.Outcome State Fault Refusal :=
  match i with
  -- the five requests
  | .init pinCfg clockHz => Sys2Proof.Machine.execInit pinCfg clockHz s
  | .tmsShift tms len => Sys2Proof.Machine.execTmsShift tms len s
  | .clockTick tmsLevel tdiLevel count => Sys2Proof.Machine.execClockTick tmsLevel tdiLevel count s
  | .dataShift tdi tdo len last => Sys2Proof.Machine.execDataShift tdi tdo len last s
  | .teardown => Sys2Proof.Machine.execTeardown s
  -- the fifteen frames
  | .opTmsW n d => Sys2Proof.Machine.execOpTmsW n d s
  | .opTmsWr neg n d => Sys2Proof.Machine.execOpTmsWr neg n d s
  | .opByteN c => Sys2Proof.Machine.execOpByteN c s
  | .opByteW payload => Sys2Proof.Machine.execOpByteW payload s
  | .opByteR neg c => Sys2Proof.Machine.execOpByteR neg c s
  | .opByteWr neg payload => Sys2Proof.Machine.execOpByteWr neg payload s
  | .opBitN m => Sys2Proof.Machine.execOpBitN m s
  | .opBitW m p => Sys2Proof.Machine.execOpBitW m p s
  | .opBitR neg m => Sys2Proof.Machine.execOpBitR neg m s
  | .opBitWr neg m p => Sys2Proof.Machine.execOpBitWr neg m p s
  | .opClkBytes g => Sys2Proof.Machine.execOpClkBytes g s
  | .opClkBits r => Sys2Proof.Machine.execOpClkBits r s
  | .opSetLow value direction => Sys2Proof.Machine.execOpSetLow value direction s
  | .opSetHigh value direction => Sys2Proof.Machine.execOpSetHigh value direction s
  | .opLoopbackOn => Sys2Proof.Machine.execOpLoopbackOn s

end Sys2Proof.Machine
end

