-- ==== Sys2Proof/Machine/Step.lean ====
section
/-! DEFINITION. One step of the machine: the engine moves while it holds a transfer, otherwise the block takes the
caller's next request (10_state.md R20, R24; log 7). -/

namespace Sys2Proof.Machine

open Host (Outcome)

/-- A step. A record that is no request is refused as malformed (30_encoding.md R77); with no request left the machine
is idle (70_reset_and_hazards.md R222; log 20). -/
def step (s : State) : Outcome State Fault Refusal :=
  match s.engine.inbox with
  | transfer :: transfers => frameStep exec transfer transfers s
  | [] =>
    match s.requests with
    | [] => .next s
    | record :: records =>
      match decodeRequest record with
      | some i => exec i (s.setRequests records)
      | none => .next (refuse .malformedRequest (s.setRequests records))

/-- The machine with an instruction placed where it fetches next: a frame as the engine's next transfer, a request as
the caller's next record with nothing left for the engine to do first (log 27). -/
def State.withFetchWord (s : State) (nbits w : Nat) : State :=
  let bytes := tableBytes nbits w
  match decode s.cfg.ops bytes with
  | .ok (i, rest) =>
    let own := bytes.take (bytes.length - rest.length)
    if i.isRequest then
      { s with requests := own :: s.requests, engine := { s.engine with inbox := [] } }
    else { s with engine := { s.engine with inbox := own :: s.engine.inbox } }
  | .error _ => { s with requests := bytes :: s.requests, engine := { s.engine with inbox := [] } }

end Sys2Proof.Machine
end

