-- ==== Sys2Proof/Safety.lean ====
section
/-! DEFINITION. What counts as a safe run, in the terms of the claims: the observation of a run (70_reset_and_hazards.md
R222), the order the trace keeps (20_memory.md R58, R64, R68), and the invariant of the machine. -/

namespace Sys2Proof.Machine

/-! ### The observation (70_reset_and_hazards.md R222, 60_exceptions.md R182) -/

/-- A result that is a success. -/
def RequestResult.isOk : RequestResult → Bool
  | .ok _ => true
  | .err _ => false
  | .refused _ => false

/-- A result that is a refusal. -/
def RequestResult.isRefused : RequestResult → Bool
  | .ok _ => false
  | .err _ => false
  | .refused _ => true

/-- "The run is marked refused for good" (60_exceptions.md R182). -/
def State.runRefused (s : State) : Bool := s.results.any RequestResult.isRefused

/-- A clean run: every outcome is `Ok`, `fault = none` and `diag` is empty (70_reset_and_hazards.md R222). -/
def State.clean (s : State) : Bool := s.results.all RequestResult.isOk && s.fault.isNone && s.diag.isEmpty

/-- A closed run (70_reset_and_hazards.md R222). -/
def State.closed (s : State) : Bool := decide (s.phase = .closed)

/-! ### The order of the trace -/

/-- What `pending` holds after an event, as a count, from what it held before; `none` if the event breaks a rule:
`pending` within B (20_memory.md R64), a flush of exactly what is pending and never of nothing (R58), reads and drains
with nothing pending (R68). -/
def traceStep (bufSize : Nat) (held : Nat) : Event → Option Nat
  | .configure _ _ _ _ => some held
  | .identity _ => some held
  | .enq bytes => if held + bytes.length ≤ bufSize then some (held + bytes.length) else none
  | .flush n _ => if n = held ∧ 0 < n then some 0 else none
  | .read _ _ => if held = 0 then some held else none
  | .drain _ _ => if held = 0 then some held else none

/-- The same along a trace. -/
def traceHeld (bufSize : Nat) : Nat → List Event → Option Nat
  | held, [] => some held
  | held, e :: es =>
    match traceStep bufSize held e with
    | some held' => traceHeld bufSize held' es
    | none => none

/-- The trace keeps the order of 20_memory.md and ends with nothing pending. -/
def traceOrdered (bufSize : Nat) (es : List Event) : Prop := traceHeld bufSize 0 es = some 0

/-! ### The invariant -/

/-- What a phase says of the other registers (10_state.md R25, R26, R28, R30, R40; 40_initializer.md R100). -/
def phaseConsistent (s : State) : Prop :=
  match s.phase with
  | .uninit => s.quirk = false ∧ s.fault = none
  | .ready => bufSizeOk s.cfg = true ∧ s.fault = none
  | .failed => bufSizeOk s.cfg = true ∧ s.fault ≠ none
  | .closed => bufSizeOk s.cfg = true

/-- The machine's invariant: memory in canonical form, `pending` empty between requests (20_memory.md R65), the
registers consistent with the phase, and a trace in order. -/
structure Inv (s : State) : Prop where
  mem : s.mem.wf
  pending : s.pending = []
  phase : phaseConsistent s
  trace : traceOrdered s.cfg.bufSize s.trace

/-! ### What a claim reads from a trace (10_state.md R38) -/

/-- The byte strings enqueued, in order. -/
def enqueued : List Event → List (List Byte)
  | [] => []
  | .enq bytes :: es => bytes :: enqueued es
  | .configure _ _ _ _ :: es => enqueued es
  | .identity _ :: es => enqueued es
  | .flush _ _ :: es => enqueued es
  | .read _ _ :: es => enqueued es
  | .drain _ _ :: es => enqueued es

/-- The sizes of the transfers flushed, in order. -/
def flushSizes : List Event → List Nat
  | [] => []
  | .flush n _ :: es => n :: flushSizes es
  | .configure _ _ _ _ :: es => flushSizes es
  | .identity _ :: es => flushSizes es
  | .enq _ :: es => flushSizes es
  | .read _ _ :: es => flushSizes es
  | .drain _ _ :: es => flushSizes es

/-- The sizes of the capture reads, in order. -/
def readSizes : List Event → List Nat
  | [] => []
  | .read n _ :: es => n :: readSizes es
  | .configure _ _ _ _ :: es => readSizes es
  | .identity _ :: es => readSizes es
  | .enq _ :: es => readSizes es
  | .flush _ _ :: es => readSizes es
  | .drain _ _ :: es => readSizes es

/-- The sizes of the drain reads, in order. -/
def drainSizes : List Event → List Nat
  | [] => []
  | .drain n _ :: es => n :: drainSizes es
  | .configure _ _ _ _ :: es => drainSizes es
  | .identity _ :: es => drainSizes es
  | .enq _ :: es => drainSizes es
  | .flush _ _ :: es => drainSizes es
  | .read _ _ :: es => drainSizes es

/-- The bytes of the capture reads that answered in full, in order. -/
def fullReads : List Event → List (List Byte)
  | [] => []
  | .read n (some bytes) :: es => if bytes.length = n then bytes :: fullReads es else fullReads es
  | .read _ none :: es => fullReads es
  | .configure _ _ _ _ :: es => fullReads es
  | .identity _ :: es => fullReads es
  | .enq _ :: es => fullReads es
  | .flush _ _ :: es => fullReads es
  | .drain _ _ :: es => fullReads es

/-- A call of the block: an event without what was answered. -/
inductive Call where
  | configure
  | identity
  | enq (bytes : List Byte)
  | flush (n : Nat)
  | read (n : Nat)
  | drain (n : Nat)
  deriving DecidableEq, Repr

/-- The call an event records. -/
def callOf : Event → Call
  | .configure _ _ _ _ => .configure
  | .identity _ => .identity
  | .enq bytes => .enq bytes
  | .flush n _ => .flush n
  | .read n _ => .read n
  | .drain n _ => .drain n

/-- The bits a TMS frame drives: bits 0 to n - 1 of its data byte, n - 1 being its count (30_encoding.md R83). -/
def tmsBitsOf : List Byte → List Bool
  | [_, count, d] => lowBits (count.toNat + 1) d
  | _ => []

/-! ### The calls of a TMS_SHIFT, in order (41_tms_shifter.md R105, R110, R111) -/

/-- A drain of `n` bytes, if the quirk flag is set. -/
def drainIf (quirk : Bool) (n : Nat) : List Call := if quirk then [.drain n] else []

/-- Frames that one flush sends, the flush, and its drain. -/
def tmsGroup (quirk : Bool) (n : Nat) (frames : List (List Byte)) : List Call :=
  frames.map Call.enq ++ (.flush (3 * frames.length) :: drainIf quirk n)

/-- Every call of a TMS_SHIFT: groups of `F` frames, each with its flush and drain, then the rest with its flush if there is
one, and the final drain. -/
def tmsCalls (cfg : Config) (quirk : Bool) (bits : Nat → Bool) (len : Nat) : List Call :=
  if len = 0 then []
  else
    let frames := tmsFrames cfg bits len
    let perFlush := cfg.bufSize / 3
    let groups := frames.length / perFlush
    let rest := frames.drop (perFlush * groups)
    ((List.range groups).flatMap fun k => tmsGroup quirk ((len + 7) / 8) ((frames.drop (perFlush * k)).take perFlush))
      ++ (rest.map Call.enq ++ ((if rest = [] then [] else [.flush (3 * rest.length)]) ++ drainIf quirk ((len + 7) / 8)))

/-! ### The sizes a DATA_SHIFT works with (43_data_shifter.md R130, R133, R139, R140) -/

/-- `[v > 0]`, as a list of one entry or none. -/
def oneIf (b : Bool) (n : Nat) : List Nat := if b then [n] else []

/-- The number of bytes each step of a DATA_SHIFT reads or drains: the chunk sizes, then 1 for the residual bits, then 1
for the exit bit. -/
def dataStepSizes (cfg : Config) (len : Nat) (last : Bool) : List Nat :=
  chunkSizes (realLen len last / 8) (realLen len last / 8) (chunkLimit cfg)
    ++ (oneIf (decide (realLen len last % 8 ≠ 0)) 1 ++ oneIf last 1)

/-- The number of bytes of each transfer of a DATA_SHIFT, with or without TDI (43_data_shifter.md R132, 30_encoding.md
R84, R86). -/
def dataTransferSizes (cfg : Config) (w : Bool) (len : Nat) (last : Bool) : List Nat :=
  (chunkSizes (realLen len last / 8) (realLen len last / 8) (chunkLimit cfg)).map (fun c => if w then 3 + c else 3)
    ++ (oneIf (decide (realLen len last % 8 ≠ 0)) (if w then 3 else 2) ++ oneIf last 3)

/-- The TDI bytes a step enqueues, if TDI is present. -/
def tdiBytes (m : Memory) (tdi : Option Buf) (cur n : Nat) : List (List Byte) :=
  match tdi with
  | none => []
  | some b => [m.readBytes (b.base + cur) n]

/-- Step 3, a step for each chunk from cursor `cur` on: what it enqueues (header, then TDI bytes), and how many bytes it
reads or drains. -/
def chunkPlan (cfg : Config) (m : Memory) (tdi : Option Buf) (rd : Bool) : List Nat → Nat → List (List (List Byte) × Nat)
  | [], _ => []
  | c :: sizes, cur =>
    (byteHeader cfg tdi.isSome rd c :: tdiBytes m tdi cur c, c) :: chunkPlan cfg m tdi rd sizes (cur + c)

/-- Step 4, if there are residual bits. -/
def residualPlan (cfg : Config) (m : Memory) (tdi : Option Buf) (rd : Bool) (nbByte nbBit : Nat) :
    List (List (List Byte) × Nat) :=
  if nbBit = 0 then [] else [(bitHeader cfg tdi.isSome rd nbBit :: tdiBytes m tdi nbByte 1, 1)]

/-- Step 5, if the shift exits. -/
def exitPlan (cfg : Config) (m : Memory) (tdi : Option Buf) (rd : Bool) (nbByte nbBit : Nat) (last : Bool) :
    List (List (List Byte) × Nat) :=
  if last then [([exitFrame cfg rd (finalBit m tdi nbByte nbBit)], 1)] else []

/-- The steps of a DATA_SHIFT (43_data_shifter.md R132, R134, R135). -/
def dataPlan (cfg : Config) (m : Memory) (tdi : Option Buf) (rd : Bool) (len : Nat) (last : Bool) :
    List (List (List Byte) × Nat) :=
  let nbByte := realLen len last / 8
  let nbBit := realLen len last % 8
  chunkPlan cfg m tdi rd (chunkSizes nbByte nbByte (chunkLimit cfg)) 0
    ++ (residualPlan cfg m tdi rd nbByte nbBit ++ exitPlan cfg m tdi rd nbByte nbBit last)

/-- What a DATA_SHIFT enqueues. -/
def dataEnqueued (cfg : Config) (m : Memory) (tdi : Option Buf) (rd : Bool) (len : Nat) (last : Bool) :
    List (List Byte) := (dataPlan cfg m tdi rd len last).flatMap Prod.fst

/-- The calls of one step: what it enqueues, the flush of all of it, and `close`, its read or its drain. -/
def stepCalls (close : Nat → List Call) (planned : List (List Byte) × Nat) : List Call :=
  planned.1.map Call.enq ++ (.flush (planned.1.map List.length).sum :: close planned.2)

/-- Every call of a DATA_SHIFT, in order: step after step, each with its flush, and its read with TDO or its drain without
(43_data_shifter.md R132, R134, R135, R139). -/
def dataCalls (cfg : Config) (m : Memory) (tdi : Option Buf) (rd quirk : Bool) (len : Nat) (last : Bool) : List Call :=
  (dataPlan cfg m tdi rd len last).flatMap
    (stepCalls fun n => if rd then [.read n] else drainIf quirk n)

/-! ### Well-behaved answers, and what operations leave alone -/

/-- Every flush returns `|pending|`: the reference engine answers and no flush answer is scripted
(70_reset_and_hazards.md R221). -/
def flushesSucceed (s : State) : Prop := s.oracle = .reference ∧ s.inputs.flush = []

/-- The engine holds nothing it has not executed and nothing the block has not read, and its state is known. -/
def engineIdle (s : State) : Prop := s.engine.inbox = [] ∧ s.engine.resp = [] ∧ s.engine.sync = true

/-- TDO follows TDI: the loopback bit, or a target that wires the two (45_engine_frames.md R149). -/
def loopedBack (s : State) : Prop := s.engine.loop = true ∨ s.inputs.target = .loopback

/-- Everything of the block and the caller is as before (a frame touches the engine only). -/
def leavesBlock (s t : State) : Prop :=
  t.cfg = s.cfg ∧ t.oracle = s.oracle ∧ t.requests = s.requests ∧ t.mem = s.mem ∧ t.phase = s.phase ∧
  t.quirk = s.quirk ∧ t.fault = s.fault ∧ t.diag = s.diag ∧ t.pending = s.pending ∧ t.trace = s.trace ∧
  t.results = s.results

/-- What a frame that only makes pulses leaves of the engine. -/
def leavesEngineRegisters (s t : State) : Prop :=
  t.engine.loop = s.engine.loop ∧ t.engine.gpioLow = s.engine.gpioLow ∧ t.engine.gpioHigh = s.engine.gpioHigh ∧
  t.engine.inbox = s.engine.inbox ∧ t.engine.sync = s.engine.sync

/-- What every request leaves: the configuration, who answers, and the requests still to come (10_state.md R22). -/
def leavesRequestSide (s t : State) : Prop := t.cfg = s.cfg ∧ t.oracle = s.oracle ∧ t.requests = s.requests

/-- The pulses of a request (45_engine_frames.md R174). -/
def pulsesOf (cfg : Config) : Instr → Nat
  | .tmsShift _ len => len
  | .clockTick _ _ count => count
  | .dataShift _ _ len _ => len
  | .teardown => 8 * cfg.probe.length
  | .init _ _ => 0
  | .opTmsW n _ => n
  | .opTmsWr _ n _ => n
  | .opByteN _ => 0
  | .opByteW payload => 8 * payload.length
  | .opByteR _ c => 8 * c
  | .opByteWr _ payload => 8 * payload.length
  | .opBitN _ => 0
  | .opBitW m _ => m
  | .opBitR _ m => m
  | .opBitWr _ m _ => m
  | .opClkBytes g => 8 * g
  | .opClkBits r => r
  | .opSetLow _ _ => 0
  | .opSetHigh _ _ => 0
  | .opLoopbackOn => 0

/-- The frames that capture TDO (45_engine_frames.md R153, R155, R156, R159, R160). -/
def capturesTdo : Instr → Bool
  | .init _ _ => false
  | .tmsShift _ _ => false
  | .clockTick _ _ _ => false
  | .dataShift _ _ _ _ => false
  | .teardown => false
  | .opTmsW _ _ => false
  | .opTmsWr _ _ _ => true
  | .opByteN _ => false
  | .opByteW _ => false
  | .opByteR _ _ => true
  | .opByteWr _ _ => true
  | .opBitN _ => false
  | .opBitW _ _ => false
  | .opBitR _ _ => true
  | .opBitWr _ _ _ => true
  | .opClkBytes _ => false
  | .opClkBits _ => false
  | .opSetLow _ _ => false
  | .opSetHigh _ _ => false
  | .opLoopbackOn => false

/-! ### Outcomes, waveforms and captures -/

/-- The value of a request that succeeds (60_exceptions.md R175); a frame has none, so it is given `ok`. -/
def okValueOf : Instr → OkValue
  | .init _ _ => .unit
  | .tmsShift _ len => .value len
  | .clockTick _ _ count => .value count
  | .dataShift _ _ _ _ => .value 0
  | .teardown => .unit
  | .opTmsW _ _ => .unit
  | .opTmsWr _ _ _ => .unit
  | .opByteN _ => .unit
  | .opByteW _ => .unit
  | .opByteR _ _ => .unit
  | .opByteWr _ _ => .unit
  | .opBitN _ => .unit
  | .opBitW _ _ => .unit
  | .opBitR _ _ => .unit
  | .opBitWr _ _ _ => .unit
  | .opClkBytes _ => .unit
  | .opClkBits _ => .unit
  | .opSetLow _ _ => .unit
  | .opSetHigh _ _ => .unit
  | .opLoopbackOn => .unit

/-- From `s` to `t` the engine made exactly the pulses with these TMS and TDI levels, in order. -/
def drives (s t : State) (tms tdi : List Bool) : Prop :=
  ∃ ps, t.engine.wave = s.engine.wave ++ ps ∧ ps.map Pulse.tms = tms ∧ ps.map Pulse.tdi = tdi

/-- From `s` to `t` the pins went to the levels of the last pulse made, or stayed if none was made. -/
def pinsFollow (s t : State) : Prop :=
  let last := (t.engine.wave.drop s.engine.wave.length).getLast?
  t.engine.tmsPin = (last.map Pulse.tms).getD s.engine.tmsPin ∧ t.engine.tdiPin = (last.map Pulse.tdi).getD s.engine.tdiPin

/-- The TDO bits sampled from `s` to `t`. -/
def newTdo (s t : State) : List Bool := (t.engine.wave.drop s.engine.wave.length).map Pulse.tdo

/-- From `s` to `t` one response byte came in: captured bit `j` of `m` at bit `8 - m + j` (20_memory.md R52), and below
the captured bits a draw (45_engine_frames.md R153, R159), which is the outside world's where one is scripted (log 16). -/
def capturesByte (m : Nat) (s t : State) : Prop :=
  ∃ r draw : Byte, t.engine.resp = s.engine.resp ++ [r] ∧
    (∀ j < m, r.getLsbD (8 - m + j) = (newTdo s t).getD j false) ∧
    (∀ j < 8 - m, r.getLsbD j = draw.getLsbD j) ∧ ∀ b coming, s.inputs.fill = b :: coming → draw = b

/-- From `s` to `t` `c` response bytes came in, with captured bit `k` at bit `k mod 8` of byte `k div 8` (20_memory.md
R51). -/
def capturesBytes (c : Nat) (s t : State) : Prop :=
  ∃ rs : List Byte, rs.length = c ∧ t.engine.resp = s.engine.resp ++ rs ∧
    ∀ k < 8 * c, bitAt rs k = (newTdo s t).getD k false

/-- Two buffers share a byte (20_memory.md R73). -/
def shareByte (a b : Buf) : Prop :=
  ∃ x, (a.base ≤ x ∧ x < a.base + a.size) ∧ (b.base ≤ x ∧ x < b.base + b.size)

/-- The admission of a DATA_SHIFT (43_data_shifter.md R128). -/
def dataAdmitted (tdi tdo : Option Buf) (len : Nat) (s : State) : Prop :=
  s.phase = .ready ∧ len < 2 ^ 31 ∧ (∀ b, tdi = some b → ceil8 len ≤ b.size) ∧
  (∀ b, tdo = some b → ceil8 len ≤ b.size) ∧ ∀ a b, tdi = some a → tdo = some b → ¬ shareByte a b

/-- How many bytes of TDO, from its first, a DATA_SHIFT may write: the full bytes, and `TDO[nb_byte]` if there are
residual bits or an exit bit (20_memory.md R44, R45). -/
def tdoWritten (len : Nat) (last : Bool) : Nat :=
  realLen len last / 8 + if realLen len last % 8 ≠ 0 ∨ last = true then 1 else 0

/-- The TDI levels of a DATA_SHIFT (43_data_shifter.md R132, R134, R135; 45_engine_frames.md R155, R159): the bits of TDI
where it is present; else the level held on every pulse but the exit pulse, whose bit is 0. -/
def tdiLevels (m : Memory) (tdi : Option Buf) (held : Bool) (len : Nat) (last : Bool) : List Bool :=
  match tdi with
  | some b => (List.range len).map (bufBit m b)
  | none => List.replicate (realLen len last) held ++ if last then [false] else []

/-- The last event a request that ended in a fatal error recorded: the failing call, or none where the error comes
before the first call (60_exceptions.md R178, R184). -/
def endsAtFailingCall (e : BlockError) (es : List Event) : Prop :=
  match e with
  | .transportFailure (.flush n r) => es.getLast? = some (.flush n r)
  | .transportFailure (.read n a) => es.getLast? = some (.read n a)
  | .transportFailure .configure => ∃ mode pinCfg clockHz, es = [.configure mode pinCfg clockHz false]
  | .protocolConsistencyFailure _ => es = []

end Sys2Proof.Machine
end

