-- ==== Sys2Proof/Certificates/Slice0/Obligations.lean ====
section
/-! DEFINITION. The statements for the provers, from the numbered rules of spec/. A statement about every state is also
about states no run reaches, so a premise names what it needs. -/

open Sys2Proof Sys2Proof.Machine

/-! ### Encoding -/

/-- Decode and encode agree on the requests, with every operand at every value the record layout admits, whatever the
opcode parameters. The layout is the model's choice (log 2). -/
def Obligations.DecodeEncodeRequests : Prop :=
  ∀ (o : OpCodes) (i : Instr) (rest : List Byte), i.isRequest = true → i.wellFormed = true →
    decode o (encode o i ++ rest) = .ok (i, rest) ∧ decodeRequest (encode o i) = some i

/-- Decode and encode agree on the frames (30_encoding.md, R83 to R90), with every operand at every value the count
fields admit, for all opcode parameters that keep the frames apart; where they keep the request tags apart too, as the
defaults do, the decoder of both agrees (log 1, 18). -/
def Obligations.DecodeEncodeFrames : Prop :=
  ∀ (o : OpCodes) (i : Instr) (rest : List Byte), i.isRequest = false → i.wellFormed = true →
    (o.distinct = true → decodeFrame o (encode o i ++ rest) = some (i, rest)) ∧
    (((tagRows ++ opRows o).map (·.value)).Nodup → decode o (encode o i ++ rest) = .ok (i, rest))

/-- Each byte string has one meaning: what decodes is the encoding of a well-formed instruction, a record of a request and
the head of a transfer of a frame, whatever the opcode parameters (log 1, 2, 18). -/
def Obligations.DecodedBytesAreTheEncoding : Prop :=
  ∀ (o : OpCodes) (bytes rest : List Byte) (i : Instr),
    (decode o bytes = .ok (i, rest) → i.wellFormed = true ∧ encode o i ++ rest = bytes) ∧
    (decodeRequest bytes = some i → i.isRequest = true ∧ i.wellFormed = true ∧ encode o i = bytes) ∧
    (decodeFrame o bytes = some (i, rest) → i.isRequest = false ∧ i.wellFormed = true ∧ encode o i ++ rest = bytes)

/-- The opcodes that the default parameters compose are the default values of 30_encoding.md R81, no two of them and of the
request tags are equal, and a few words written out bit by bit from them and from the frame formats decode to what they
stand for; a request tag and a reserved byte do as R76 and R77 say (log 1, 2). -/
def Obligations.WrittenOutWordsDecode : Prop :=
  (opRows OpCodes.defaults).map (·.value) =
    [0x4B, 0x6B, 0x6F, 0x09, 0x19, 0x29, 0x2D, 0x39, 0x3D, 0x0B, 0x1B, 0x2B, 0x2F, 0x3B, 0x3F,
      0x8F, 0x8E, 0x80, 0x82, 0x84] ∧
  ((tagRows ++ opRows OpCodes.defaults).map (·.value)).Nodup ∧
  decode OpCodes.defaults [0x4B, 0x04, 0x9F] = .ok (.opTmsW 5 0x9F, []) ∧
  decode OpCodes.defaults [0x6F, 0x00, 0x81] = .ok (.opTmsWr true 1 0x81, []) ∧
  decode OpCodes.defaults [0x19, 0x01, 0x00, 0xA5, 0x5A, 0x84] = .ok (.opByteW [0xA5, 0x5A], [0x84]) ∧
  decode OpCodes.defaults [0x2B, 0x02] = .ok (.opBitR false 3, []) ∧
  decode OpCodes.defaults [0x8F, 0xFF, 0xFF] = .ok (.opClkBytes 65536, []) ∧
  decode OpCodes.defaults [0x80, 0x12, 0x34] = .ok (.opSetLow 0x12 0x34, []) ∧
  decode OpCodes.defaults [0x05] = .ok (.teardown, []) ∧
  decode OpCodes.defaults [0x06] = .error (.unknownCode 0x06)

/-- Every multi-byte count field is the low byte and then the high byte of its value (20_memory.md R50), in the frames the
engine reads and in the headers the block writes. The value is the count minus one (30_encoding.md R79), which for the data
frames is the spec's decision D4. -/
def Obligations.MultiByteCountsAreLittleEndian : Prop :=
  ∀ c, 1 ≤ c → c ≤ 65536 →
    (∀ (o : OpCodes) (neg : Bool) (payload : List Byte), payload.length = c →
      [(encode o (.opByteN c)).tail, (encode o (.opByteR neg c)).tail, (encode o (.opClkBytes c)).tail,
        (encode o (.opByteW payload)).tail.take 2, (encode o (.opByteWr neg payload)).tail.take 2] =
        List.replicate 5 [byte ((c - 1) % 256), byte ((c - 1) / 256)]) ∧
    ∀ (cfg : Config) (w rd : Bool),
      [(byteHeader cfg w rd c).tail, (clkBytesFrame cfg c).tail] =
        List.replicate 2 [byte ((c - 1) % 256), byte ((c - 1) / 256)]

/-- What the block enqueues for a data frame is a frame of the kind its TDI and TDO decide: 30_encoding.md R85 (byte
mode) and R86 (bit mode), with `op_data` as the flags of R80 compose it. The exit frame is a TMS frame of one bit: TMS 1 in
bit 0, the final TDI bit in bit 7, 0 between (R84, whose bits 6:1 are the spec's decision D7). -/
def Obligations.DataAndExitFramesAreEncodings : Prop :=
  ∀ (cfg : Config) (payload : List Byte) (c m : Nat) (p : Byte) (rd fb : Bool),
    byteHeader cfg true false payload.length ++ payload = encode cfg.ops (.opByteW payload) ∧
    byteHeader cfg true true payload.length ++ payload = encode cfg.ops (.opByteWr cfg.rdNeg payload) ∧
    byteHeader cfg false true c = encode cfg.ops (.opByteR cfg.rdNeg c) ∧
    byteHeader cfg false false c = encode cfg.ops (.opByteN c) ∧
    bitHeader cfg true false m ++ [p] = encode cfg.ops (.opBitW m p) ∧
    bitHeader cfg true true m ++ [p] = encode cfg.ops (.opBitWr cfg.rdNeg m p) ∧
    bitHeader cfg false true m = encode cfg.ops (.opBitR cfg.rdNeg m) ∧
    bitHeader cfg false false m = encode cfg.ops (.opBitN m) ∧
    exitFrame cfg rd fb =
      encode cfg.ops
        (if rd then .opTmsWr cfg.rdNeg 1 (if fb then 0x81 else 0x01) else .opTmsW 1 (if fb then 0x81 else 0x01))

/-- TMS frame `i` of a sequence (30_encoding.md R83 and 41_tms_shifter.md R108, with the spec's decision D7 for the
unused bits): a frame of `n = min(6, len - 6i)` bits, whose data byte holds bits `6i` on of the sequence, 0 above them,
and the fixed TDI level in bit 7; there are `ceil(len / 6)` of them. -/
def Obligations.TmsFrameFormat : Prop :=
  ∀ (cfg : Config) (bits : Nat → Bool) (len i : Nat), 6 * i < len →
    (tmsFrames cfg bits len).length = (len + 5) / 6 ∧
    ∃ d, (tmsFrames cfg bits len)[i]? = some (encode cfg.ops (.opTmsW (min 6 (len - 6 * i)) d)) ∧
      (∀ j < min 6 (len - 6 * i), d.getLsbD j = bits (6 * i + j)) ∧
      (∀ j, min 6 (len - 6 * i) ≤ j → j < 7 → d.getLsbD j = false) ∧ d.getLsbD 7 = cfg.tmsTdiLevel

/-! ### A step -/

/-- A step runs the decoded instruction: a request that the caller has issued runs with its record taken from the queue,
a frame of the engine's transfer runs with its bytes taken from the transfer, and a transfer that is used up is finished
(log 7). -/
def Obligations.StepRunsDecodedInstruction : Prop :=
  (∀ (s : State) (i : Instr) (record : List Byte) (records : List (List Byte)), s.engine.inbox = [] →
    s.requests = record :: records → decodeRequest record = some i → step s = exec i (s.setRequests records)) ∧
  (∀ (s : State) (i : Instr) (bytes rest : List Byte) (transfers : List (List Byte)),
    s.engine.inbox = bytes :: transfers → decodeFrame s.cfg.ops bytes = some (i, rest) →
    step s = afterFrame (exec i (setInbox (rest :: transfers) s))) ∧
  ∀ (s : State) (transfers : List (List Byte)), s.engine.inbox = [] :: transfers → step s = .next (finishTransfer s)

/-- Bytes that are no instruction: a record that is the encoding of no request is refused as malformed and taken from the
queue (30_encoding.md R77), and a transfer that begins with the encoding of no frame stops the engine, which names it
(45_engine_frames.md R168). What it says beyond those rules is the model's, read from the spec by inference: the layout of a
record (log 2); which counts a frame may have, 1 to 6 in a TMS frame and 1 to 8 in a bit-mode or clock-bit frame, though the
block stops at 7 (log 18); that the stop is a fault that names the bytes (log 19); and that a malformed record is taken
whole, in any phase, and the run goes on (log 21). -/
def Obligations.BytesThatAreNoInstruction : Prop :=
  (∀ (s : State) (record : List Byte) (records : List (List Byte)), s.engine.inbox = [] →
    s.requests = record :: records →
    (∀ i : Instr, i.isRequest = true → i.wellFormed = true → record ≠ encode s.cfg.ops i) →
    step s = .next ((s.setRequests records).addResult (.refused .malformedRequest))) ∧
  ∀ (s : State) (transfer : List Byte) (transfers : List (List Byte)), transfer ≠ [] →
    s.engine.inbox = transfer :: transfers →
    (∀ (i : Instr) (rest : List Byte), i.isRequest = false → i.wellFormed = true →
      transfer ≠ encode s.cfg.ops i ++ rest) →
    step s = .fault (.engineUnmodelled transfer)

/-! ### Reset and the invariant -/

/-- What reset leaves, with any configuration (10_state.md R40, 70_reset_and_hazards.md R197, which the spec marks as its
decisions D9, D27, D28 and D32). -/
def Obligations.ResetRegisters : Prop :=
  ∀ cfg : Config,
    (State.resetWith cfg).phase = .uninit ∧ (State.resetWith cfg).quirk = false ∧
    (State.resetWith cfg).fault = none ∧ (State.resetWith cfg).diag = [] ∧ (State.resetWith cfg).pending = [] ∧
    (State.resetWith cfg).trace = [] ∧ (State.resetWith cfg).results = [] ∧ (State.resetWith cfg).cfg = cfg

/-- The invariant holds at reset, with any configuration. -/
def Obligations.ResetMeetsInvariant : Prop := ∀ cfg : Config, Inv (State.resetWith cfg)

/-- Every step keeps the invariant: memory in canonical form, `pending` empty between requests, the registers consistent
with the phase, and a trace in which `pending` stays within B, a flush sends exactly what is pending and never nothing,
and every read and drain comes with nothing pending (20_memory.md, whose R64, R65 and R68 the spec marks derived). -/
def Obligations.StepKeepsInvariant : Prop := ∀ s t : State, Inv s → step s = .next t → Inv t

/-! ### Rules of the whole machine -/

/-- No instruction writes the configuration (10_state.md R22). -/
def Obligations.ConfigurationIsNeverWritten : Prop :=
  ∀ (i : Instr) (s t : State), exec i s = .next t → t.cfg = s.cfg

/-- 10_state.md R27: after INIT returns, `quirk` is read-only for the rest of the block's life. -/
def Obligations.QuirkIsReadOnlyAfterInit : Prop :=
  ∀ (i : Instr) (s t : State), s.phase ≠ .uninit → exec i s = .next t → t.quirk = s.quirk ∧ t.phase ≠ .uninit

/-- How `phase` moves (10_state.md R25, the spec's decisions D27 and D28): INIT from UNINIT to READY or FAILED, a fatal
error from READY to FAILED, TEARDOWN from READY or FAILED to CLOSED, and nothing else. -/
def Obligations.PhaseMovesAsDrawn : Prop :=
  ∀ (i : Instr) (s t : State), exec i s = .next t →
    t.phase = s.phase ∨
    ((∃ p h, i = .init p h) ∧ s.phase = .uninit ∧ (t.phase = .ready ∨ t.phase = .failed)) ∨
    (i.isRequest = true ∧ i ≠ .teardown ∧ s.phase = .ready ∧ t.phase = .failed) ∨
    (i = .teardown ∧ (s.phase = .ready ∨ s.phase = .failed) ∧ t.phase = .closed)

/-- The fault record is written only when `phase` moves to FAILED and never cleared or replaced (10_state.md R28, the
spec's decision D28). -/
def Obligations.FaultIsSticky : Prop :=
  ∀ (i : Instr) (s t : State), exec i s = .next t →
    (∀ e, s.fault = some e → t.fault = some e) ∧ (t.fault ≠ s.fault → t.phase = .failed ∧ s.phase ≠ .failed)

/-- The logs are append-only: the diagnostics (10_state.md R29, the spec's decision D32), the event trace (R38), the
results, and the waveform (45_engine_frames.md R149). -/
def Obligations.LogsAreAppendOnly : Prop :=
  ∀ (i : Instr) (s t : State), exec i s = .next t →
    s.diag <+: t.diag ∧ s.trace <+: t.trace ∧ s.results <+: t.results ∧ s.engine.wave <+: t.engine.wave

/-- 60_exceptions.md R175: every request ends in exactly one of three outcomes, and a success carries the value R175 gives
the request. -/
def Obligations.EveryRequestHasOneOutcome : Prop :=
  ∀ (i : Instr) (s : State), i.isRequest = true →
    ∃ t r, exec i s = .next t ∧ t.results = s.results ++ [r] ∧ ∀ v, r = .ok v → v = okValueOf i

/-- A refused request records no event and writes no state but its outcome (60_exceptions.md R182; log 5). -/
def Obligations.RefusalWritesNothing : Prop :=
  ∀ (i : Instr) (s t : State) (reason : RefusedReason), i.isRequest = true → exec i s = .next t →
    t.results = s.results ++ [.refused reason] → t = s.addResult (.refused reason)

/-- A fatal error (60_exceptions.md, R184 and R177): the phase is FAILED, `fault` keeps the first error, `quirk` stays,
`pending` is empty, and the last event of the request is the failing call. After a transport failure the reference engine's
state is no longer known (70_reset_and_hazards.md R215, the spec's decision D28; log 13). -/
def Obligations.FatalErrorEndsAtTheFailingCall : Prop :=
  ∀ (i : Instr) (s t : State) (e : BlockError), i.isRequest = true → s.pending = [] → exec i s = .next t →
    t.results = s.results ++ [.err e] →
    t.phase = .failed ∧ t.fault = some (s.fault.getD e) ∧ t.quirk = s.quirk ∧ t.pending = [] ∧
    (∃ es, t.trace = s.trace ++ es ∧ endsAtFailingCall e es) ∧
    ((∃ info, e = .transportFailure info) → s.oracle = .reference → t.engine.sync = false)

/-- A protocol-consistency failure is raised before the request's first engine call, and moves `phase` to FAILED
(60_exceptions.md R178); DATA_SHIFT raises it exactly for `len = 0` (43_data_shifter.md R129, the spec's decision D19:
the split check cannot fail). -/
def Obligations.ConsistencyFailureComesFirst : Prop :=
  (∀ (i : Instr) (s t : State) (info : ConsistencyInfo), i.isRequest = true → exec i s = .next t →
    t.results = s.results ++ [.err (.protocolConsistencyFailure info)] →
    t.trace = s.trace ∧ t.phase = .failed ∧ ∃ tdi tdo last, i = .dataShift tdi tdo 0 last ∧ info = .lenZero 0 last) ∧
  ∀ (tdi tdo : Option Buf) (last : Bool) (s : State), dataAdmitted tdi tdo 0 s →
    exec (.dataShift tdi tdo 0 last) s =
      .next (raise (.protocolConsistencyFailure (.lenZero 0 last)) s)

/-- Only READY admits a shifting request and only UNINIT an INIT: after reset, after a fatal error and after a TEARDOWN
everything else is refused, whatever its operands (70_reset_and_hazards.md R198, 60_exceptions.md R182 and R185, the spec's
decisions D27 and D28). That an INIT in FAILED is refused as not uninit (40_initializer.md R100, 60_exceptions.md R182) and
not as not ready, as R185 says of every request but TEARDOWN, is the model's choice between the two (log 5). -/
def Obligations.NoWorkOutsideReady : Prop :=
  ∀ s : State,
    (s.phase ≠ .ready →
      (∀ tms len, exec (.tmsShift tms len) s = .next (s.addResult (.refused .notReady))) ∧
      (∀ a b n, exec (.clockTick a b n) s = .next (s.addResult (.refused .notReady))) ∧
      ∀ tdi tdo len last, exec (.dataShift tdi tdo len last) s = .next (s.addResult (.refused .notReady))) ∧
    (s.phase ≠ .uninit → ∀ p h, exec (.init p h) s = .next (s.addResult (.refused .notUninit)))

/-- What a request leaves unchanged: the configuration, who answers the calls and the requests to come; memory, but for a
DATA_SHIFT; `quirk`, but for an INIT; `fault` and `phase`, but for a fatal error, an INIT or a TEARDOWN; `diag`, for an
INIT and for a DATA_SHIFT, TMS_SHIFT or CLOCK_TICK with `quirk = 0`; `pending`, empty before and after. -/
def Obligations.RequestFrames : Prop :=
  ∀ (i : Instr) (s t : State), i.isRequest = true → exec i s = .next t →
    leavesRequestSide s t ∧
    ((∀ tdi tdo len last, i ≠ .dataShift tdi tdo len last) → t.mem = s.mem) ∧
    ((∀ p h, i ≠ .init p h) → t.quirk = s.quirk) ∧
    ((∀ e, t.results ≠ s.results ++ [.err e]) → t.fault = s.fault ∧ ((∀ p h, i ≠ .init p h) → i ≠ .teardown →
      t.phase = s.phase)) ∧
    (i ≠ .teardown → (∀ p h, i ≠ .init p h) → s.quirk = false → t.diag = s.diag) ∧
    ((∃ p h, i = .init p h) → t.diag = s.diag ∧ t.pending = s.pending) ∧
    (s.pending = [] → t.pending = [])

/-! ### The primitives (20_memory.md) -/

/-- 20_memory.md R57: `Enq(bs)` appends to `pending`, records `ENQ(bs)`, and cannot fail. -/
def Obligations.EnqueueAppends : Prop :=
  ∀ (bs : List Byte) (s : State), enq bs s = { s with pending := s.pending ++ bs, trace := s.trace ++ [.enq bs] }

/-- `Flush()` (20_memory.md R58; that `pending` is empty after a failed flush is the spec's decision D9). -/
def Obligations.FlushSendsWhatIsPending : Prop :=
  ∀ s : State,
    (s.pending = [] → flush s = .ok () s) ∧
    (s.pending ≠ [] → ∃ r t, t.trace = s.trace ++ [.flush s.pending.length r] ∧ t.pending = [] ∧
      flush s = (if r = (s.pending.length : Int) then .ok () t
        else .err (.transportFailure (.flush s.pending.length r)) t))

/-- 20_memory.md R60: `ReadBack(n)` flushes, then reads; a flush failure, a read error or a short read is a transport
failure. -/
def Obligations.ReadBackNeedsEveryByte : Prop :=
  ∀ (n : Nat) (s : State),
    (∀ e u, flush s = .err e u → readBack n s = .err e u) ∧
    ∀ u, flush s = .ok () u → ∃ a t, t.trace = u.trace ++ [.read n a] ∧
      (∀ bs, a = some bs → bs.length = n → readBack n s = .ok bs t) ∧
      ((∀ bs, a = some bs → bs.length ≠ n) → readBack n s = .err (.transportFailure (.read n a)) t)

/-- 20_memory.md R61: `Drain(n)` fails only with its flush; its read is recorded, its bytes are discarded, and a short or
failed read is the diagnostic `QuirkDrainFailure` and nothing more. 20_memory.md R62: `WriteDone` drains when `quirk = 1`
and flushes otherwise. -/
def Obligations.DrainReadIsNotFatal : Prop :=
  ∀ (n : Nat) (s : State),
    (∀ e u, flush s = .err e u → drain n s = .err e u) ∧
    (∀ u, flush s = .ok () u → ∃ a t, drain n s = .ok () t ∧ t.trace = u.trace ++ [.drain n a] ∧
      t.mem = u.mem ∧ t.fault = u.fault ∧ t.phase = u.phase ∧
      ((∃ bs, a = some bs ∧ bs.length = n) → t.diag = u.diag) ∧
      ((∀ bs, a = some bs → bs.length ≠ n) → t.diag = u.diag ++ [.quirkDrainFailure n a])) ∧
    (s.quirk = true → writeDone n s = drain n s) ∧ (s.quirk = false → writeDone n s = flush s)

/-! ### INIT (40_initializer.md) -/

/-- INIT with a `configure` that succeeds (40_initializer.md, R99, R103 and R104; QUIRK_MATCH is OPEN, the spec's decision
D26): it completes whatever the identity answer, `configure` before `device_identity`. Either answer is scripted or the
reference engine's own: its identity is its product name (45_engine_frames.md R170, the spec's decision D31); that its
answer to `configure` is ok is the model's choice (log 33). That the reference engine's loopback
bit is 0 after it rests on 45_engine_frames.md R170, the spec's decision D31, and that the call makes no pulse is the
model's choice (log 24). -/
def Obligations.InitConfiguresThenReadsIdentity : Prop :=
  ∀ (s : State) (pinCfg clockHz : Nat) (name : Option String),
    s.phase = .uninit → 4 ≤ s.cfg.bufSize → s.cfg.bufSize ≤ 65539 →
    ((∃ oks, s.inputs.configure = true :: oks) ∨ (s.inputs.configure = [] ∧ s.oracle = .reference)) →
    ((∃ names, s.inputs.identity = name :: names) ∨
      (s.inputs.identity = [] ∧ s.oracle = .reference ∧ name = s.cfg.productName)) →
    ∃ t, exec (.init pinCfg clockHz) s = .next t ∧ t.phase = .ready ∧
      t.quirk = (match name with
        | none => false
        | some str => quirkMatches s.cfg.quirkMatch str) ∧
      t.trace = s.trace ++ [.configure s.cfg.engineMode pinCfg clockHz true, .identity name] ∧
      t.results = s.results ++ [.ok .unit] ∧ t.mem = s.mem ∧ t.fault = s.fault ∧ t.diag = s.diag ∧
      t.pending = s.pending ∧ leavesRequestSide s t ∧
      (s.oracle = .reference → t.engine.loop = false ∧ t.engine.wave = s.engine.wave)

/-- INIT with a `configure` that fails (40_initializer.md R102, the spec's decision D25): no identity call, FAILED. -/
def Obligations.InitFailsWithConfigure : Prop :=
  ∀ (s : State) (pinCfg clockHz : Nat) (oks : List Bool),
    s.phase = .uninit → 4 ≤ s.cfg.bufSize → s.cfg.bufSize ≤ 65539 → s.inputs.configure = false :: oks →
    ∃ t, exec (.init pinCfg clockHz) s = .next t ∧ t.phase = .failed ∧ t.quirk = s.quirk ∧
      t.fault = some (s.fault.getD (.transportFailure .configure)) ∧
      t.trace = s.trace ++ [.configure s.cfg.engineMode pinCfg clockHz false] ∧
      t.results = s.results ++ [.err (.transportFailure .configure)] ∧ t.mem = s.mem ∧ t.diag = s.diag

/-- INIT's `RefusedConfig`, and TEARDOWN's refusal and no-ops (40_initializer.md R100, 44_teardown.md R142 and R146, the
spec's decisions D8, D27 and D29). -/
def Obligations.InitAndTeardownAdmission : Prop :=
  (∀ (s : State) (p h : Nat), s.phase = .uninit → ¬ (4 ≤ s.cfg.bufSize ∧ s.cfg.bufSize ≤ 65539) →
    exec (.init p h) s = .next (s.addResult (.refused .config))) ∧
  (∀ s : State, s.phase = .uninit ∨ s.phase = .closed → exec .teardown s = .next (s.addResult (.ok .unit))) ∧
  ∀ s : State, s.phase = .ready ∨ s.phase = .failed →
    ¬ (1 ≤ s.cfg.probe.length ∧ s.cfg.probe.length ≤ 65536 ∧ 10 + s.cfg.probe.length ≤ s.cfg.bufSize) →
    exec .teardown s = .next (s.addResult (.refused .config))

/-! ### TMS_SHIFT (41_tms_shifter.md) -/

/-- Why a TMS_SHIFT is refused, and in which order (41_tms_shifter.md R106, 60_exceptions.md R183, the spec's decisions
D23, D27, D30 and D36). -/
def Obligations.TmsShiftRefusals : Prop :=
  ∀ (s : State) (tms : Buf) (len : Nat),
    (s.phase ≠ .ready → exec (.tmsShift tms len) s = .next (s.addResult (.refused .notReady))) ∧
    (s.phase = .ready → 2 ^ 31 ≤ len → exec (.tmsShift tms len) s = .next (s.addResult (.refused .lengthTooLarge))) ∧
    (s.phase = .ready → len < 2 ^ 31 → tms.size < (len + 7) / 8 →
      exec (.tmsShift tms len) s = .next (s.addResult (.refused .bufferTooShort)))

/-- 41_tms_shifter.md R107: `len == 0` is a no-op returning 0, with no event, no flush and no drain, even when
`quirk = 1`. -/
def Obligations.TmsShiftOfNothing : Prop :=
  ∀ (s : State) (tms : Buf), s.phase = .ready →
    exec (.tmsShift tms 0) s = .next (s.addResult (.ok (.value 0)))

/-- TMS_SHIFT completes when its flushes do (41_tms_shifter.md R105, R110 to R113, of which R110 is marked derived and
R111 and R112 the spec's decisions D13 and D12): every frame is enqueued, a flush of `3F` bytes follows every `F` frames
and one more sends the rest, and with `quirk = 1` every threshold flush and the end has a drain of `ceil8(len)` bytes. The
calls come in the order of `tmsCalls`: each drain right after its flush. -/
def Obligations.TmsShiftCompletes : Prop :=
  ∀ (s : State) (tms : Buf) (len : Nat), flushesSucceed s → s.phase = .ready → len < 2 ^ 31 →
    (len + 7) / 8 ≤ tms.size → s.pending = [] →
    ∃ t es, exec (.tmsShift tms len) s = .next t ∧ t.trace = s.trace ++ es ∧
      es.map callOf = tmsCalls s.cfg s.quirk (bufBit s.mem tms) len ∧
      enqueued es = tmsFrames s.cfg (bufBit s.mem tms) len ∧
      flushSizes es =
        (let frames := (len + 5) / 6
         let perFlush := s.cfg.bufSize / 3
         List.replicate (frames / perFlush) (3 * perFlush) ++ oneIf (decide (frames % perFlush ≠ 0)) (3 * (frames % perFlush))) ∧
      readSizes es = [] ∧
      drainSizes es =
        (if s.quirk = true ∧ len ≠ 0 then List.replicate ((len + 5) / 6 / (s.cfg.bufSize / 3) + 1) ((len + 7) / 8) else []) ∧
      t.results = s.results ++ [.ok (.value len)] ∧ t.pending = [] ∧ t.mem = s.mem ∧ t.phase = s.phase ∧
      t.quirk = s.quirk ∧ t.fault = s.fault ∧ (s.quirk = false → t.diag = s.diag) ∧ leavesRequestSide s t

/-- The TMS bits of the frames a successful TMS_SHIFT emits, concatenated, are exactly the input sequence, whatever `len`
is to 6 or to the flush threshold, and whatever the engine answers (41_tms_shifter.md R109, which the spec marks derived;
the source's first testable property). -/
def Obligations.TmsFramesReproduceTheInput : Prop :=
  ∀ (s t : State) (tms : Buf) (len : Nat) (v : OkValue), exec (.tmsShift tms len) s = .next t →
    t.results = s.results ++ [.ok v] →
    ∃ es, t.trace = s.trace ++ es ∧
      (enqueued es).flatMap tmsBitsOf = (List.range len).map (bufBit s.mem tms)

/-- TMS_SHIFT reads no bit of its buffer past the last (20_memory.md R42, which the spec marks derived): a memory that
agrees on the bits below `len` gives the same run. -/
def Obligations.TmsShiftReadsOnlyItsBits : Prop :=
  ∀ (s : State) (m : Memory) (tms : Buf) (len : Nat),
    (∀ i < len, bufBit m tms i = bufBit s.mem tms i) →
    ∃ t, exec (.tmsShift tms len) s = .next t ∧ exec (.tmsShift tms len) (s.setMem m) = .next (t.setMem m)

/-! ### CLOCK_TICK (42_clock_ticker.md) -/

/-- Why a CLOCK_TICK is refused, and in which order (42_clock_ticker.md R116, R119 and R120, the spec's decisions D16, D17,
D27 and D36). -/
def Obligations.ClockTickRefusals : Prop :=
  ∀ (s : State) (tmsLevel tdiLevel : Bool) (count : Nat),
    (s.phase ≠ .ready →
      exec (.clockTick tmsLevel tdiLevel count) s = .next (s.addResult (.refused .notReady))) ∧
    (s.phase = .ready → 2 ^ 31 ≤ count →
      exec (.clockTick tmsLevel tdiLevel count) s = .next (s.addResult (.refused .lengthTooLarge))) ∧
    (s.phase = .ready → count < 2 ^ 31 → s.cfg.clkOnlyCapable = true → s.quirk = true →
      exec (.clockTick tmsLevel tdiLevel count) s = .next (s.addResult (.refused .quirkFastPath))) ∧
    (s.phase = .ready → count < 2 ^ 31 → s.cfg.clkOnlyCapable = true → s.quirk = false → 65536 < count / 8 →
      exec (.clockTick tmsLevel tdiLevel count) s = .next (s.addResult (.refused .clockTooLong)))

/-- 42_clock_ticker.md R118: the fast path emits one byte frame for `count div 8` groups when there is one, and flushes,
then one bit frame for `count mod 8` pulses when there is one, and flushes; for `count < 8` only the bit frame. Its frames
make `count` pulses. -/
def Obligations.ClockFastPath : Prop :=
  ∀ (s : State) (tmsLevel tdiLevel : Bool) (count : Nat), flushesSucceed s → s.phase = .ready → count < 524296 →
    s.cfg.clkOnlyCapable = true → s.quirk = false → s.pending = [] →
    ∃ t, exec (.clockTick tmsLevel tdiLevel count) s = .next t ∧
      t.trace = s.trace ++
        ((if 0 < count / 8 then [.enq (encode s.cfg.ops (.opClkBytes (count / 8))), .flush 3 3] else []) ++
         (if 0 < count % 8 then [.enq (encode s.cfg.ops (.opClkBits (count % 8))), .flush 2 2] else [])) ∧
      pulsesOf s.cfg (.opClkBytes (count / 8)) + pulsesOf s.cfg (.opClkBits (count % 8)) = count ∧
      t.results = s.results ++ [.ok (.value count)] ∧ t.pending = [] ∧ t.mem = s.mem ∧ t.phase = s.phase ∧
      t.quirk = s.quirk ∧ t.fault = s.fault ∧ t.diag = s.diag ∧ leavesRequestSide s t

/-- 42_clock_ticker.md R122: on an engine without the clock-only commands, CLOCK_TICK is TMS_SHIFT of a sequence whose
every bit is `tms_level`: the same result, the same events, the same state, and `tdi_level` is not read. The sequence is
scratch of the block: the caller's memory is whatever it is, is not read and is left as it is, and it is a TMS_SHIFT over
any memory `m` that does hold the sequence that CLOCK_TICK equals in all but memory. -/
def Obligations.ClockFallbackIsTmsShift : Prop :=
  ∀ (s : State) (tmsLevel tdiLevel : Bool) (count : Nat) (m : Memory) (tms : Buf), s.cfg.clkOnlyCapable = false →
    (count + 7) / 8 ≤ tms.size → (∀ i < count, bufBit m tms i = tmsLevel) →
    ∃ t, exec (.clockTick tmsLevel tdiLevel count) s = .next t ∧ t.mem = s.mem ∧
      exec (.tmsShift tms count) (s.setMem m) = .next (t.setMem m)

/-! ### DATA_SHIFT (43_data_shifter.md) -/

/-- Why a DATA_SHIFT is refused, and in which order (43_data_shifter.md R128, 20_memory.md R73, 60_exceptions.md R183, the
spec's decisions D22, D23, D27, D30 and D36). -/
def Obligations.DataShiftRefusals : Prop :=
  ∀ (s : State) (tdi tdo : Option Buf) (len : Nat) (last : Bool),
    (s.phase ≠ .ready → exec (.dataShift tdi tdo len last) s = .next (s.addResult (.refused .notReady))) ∧
    (s.phase = .ready → 2 ^ 31 ≤ len →
      exec (.dataShift tdi tdo len last) s = .next (s.addResult (.refused .lengthTooLarge))) ∧
    (s.phase = .ready → len < 2 ^ 31 → (∃ b, (tdi = some b ∨ tdo = some b) ∧ b.size < (len + 7) / 8) →
      exec (.dataShift tdi tdo len last) s = .next (s.addResult (.refused .bufferTooShort))) ∧
    (s.phase = .ready → len < 2 ^ 31 → (∀ b, tdi = some b ∨ tdo = some b → (len + 7) / 8 ≤ b.size) →
      (∃ a b, tdi = some a ∧ tdo = some b ∧ shareByte a b) →
      exec (.dataShift tdi tdo len last) s = .next (s.addResult (.refused .aliasedBuffers)))

/-- DATA_SHIFT without TDO completes when its flushes do (43_data_shifter.md, R132, R134, R135, R137 and R139, of which the
spec marks R134, R135 and R137 as its decisions and R139 as derived): the enqueued bytes, one transfer a step, with
`quirk = 1` exactly one drain a step, of the chunk's size, 1 and 1, and no memory written. The calls come in the order of
`dataCalls`: step after step, each drain right after the flush of its step. -/
def Obligations.DataShiftWritesOnly : Prop :=
  ∀ (s : State) (tdi : Option Buf) (len : Nat) (last : Bool), flushesSucceed s → dataAdmitted tdi none len s →
    len ≠ 0 → s.pending = [] →
    ∃ t es, exec (.dataShift tdi none len last) s = .next t ∧ t.trace = s.trace ++ es ∧
      es.map callOf = dataCalls s.cfg s.mem tdi false s.quirk len last ∧
      enqueued es = dataEnqueued s.cfg s.mem tdi false len last ∧
      flushSizes es = dataTransferSizes s.cfg tdi.isSome len last ∧ readSizes es = [] ∧
      drainSizes es = (if s.quirk then dataStepSizes s.cfg len last else []) ∧
      t.results = s.results ++ [.ok (.value 0)] ∧ t.pending = [] ∧ t.mem = s.mem ∧ t.phase = s.phase ∧
      t.quirk = s.quirk ∧ t.fault = s.fault ∧ (s.quirk = false → t.diag = s.diag) ∧ leavesRequestSide s t

/-- DATA_SHIFT with TDO completes when its flushes do and its reads answer every byte (43_data_shifter.md, R132, R134 and
R135, 20_memory.md R44; the spec's decisions D12 and D21): chunk bytes are stored as they come, the residual byte is shifted
down, the exit bit is OR-ed into what step 4 stored or, with no residual bits, into the caller's byte. No step drains; each
step's read comes right after its flush (`dataCalls`). That the answers of the partial captures hold the captured bits
against the MSB is the contract of 20_memory.md R52, which this statement does not need (70_reset_and_hazards.md R214). -/
def Obligations.DataShiftStoresWhatItReads : Prop :=
  ∀ (s : State) (tdi : Option Buf) (tdo : Buf) (len : Nat) (last : Bool) (chunks : List (List Byte))
    (residual exit : Byte) (more : List ReadAnswer), flushesSucceed s → 4 ≤ s.cfg.bufSize →
    dataAdmitted tdi (some tdo) len s → len ≠ 0 →
    s.pending = [] → s.mem.wf →
    chunks.map List.length = chunkSizes (realLen len last / 8) (realLen len last / 8) (s.cfg.bufSize - 3) →
    s.inputs.read = chunks.map some ++ ((if realLen len last % 8 = 0 then [] else [some [residual]]) ++
      ((if last then [some [exit]] else []) ++ more)) →
    ∃ t es, exec (.dataShift tdi (some tdo) len last) s = .next t ∧ t.trace = s.trace ++ es ∧
      es.map callOf = dataCalls s.cfg s.mem tdi true s.quirk len last ∧
      enqueued es = dataEnqueued s.cfg s.mem tdi true len last ∧
      flushSizes es = dataTransferSizes s.cfg tdi.isSome len last ∧
      readSizes es = dataStepSizes s.cfg len last ∧ drainSizes es = [] ∧
      (∀ i < realLen len last / 8, t.mem.read (tdo.base + i) = chunks.flatten.getD i 0) ∧
      (realLen len last % 8 ≠ 0 → t.mem.read (tdo.base + realLen len last / 8) =
        residualByte (realLen len last % 8) residual ||| (if last then exitBit (realLen len last % 8) exit else 0)) ∧
      (realLen len last % 8 = 0 → last = true → t.mem.read (tdo.base + realLen len last / 8) =
        s.mem.read (tdo.base + realLen len last / 8) ||| exitBit 0 exit) ∧
      t.results = s.results ++ [.ok (.value 0)] ∧ t.pending = [] ∧ t.phase = s.phase ∧ t.quirk = s.quirk ∧
      t.fault = s.fault ∧ t.diag = s.diag ∧ leavesRequestSide s t

/-- What a DATA_SHIFT does to memory, however it ends. It writes no byte outside TDO, and of TDO none past the last it
computes: nothing above `nb_byte`, nor `TDO[nb_byte]` when there is neither a residual nor an exit bit (20_memory.md R44 and
R45, of which R45 is marked derived). And the bytes that completed chunk steps assigned keep their values when a later step
fails (43_data_shifter.md R138, the spec's decision D39): byte `i` of TDO is byte `i` of the chunk reads that answered in
full. (After a completed residual step only the exit step can fail, and the byte that both assign is free: log 15.) -/
def Obligations.DataShiftMemoryFrame : Prop :=
  ∀ (s t : State) (tdi tdo : Option Buf) (len : Nat) (last : Bool), s.mem.wf →
    exec (.dataShift tdi tdo len last) s = .next t →
    (∀ a, (∀ b, tdo = some b → ¬ (b.base ≤ a ∧ a < b.base + tdoWritten len last)) → t.mem.read a = s.mem.read a) ∧
    ∃ es, t.trace = s.trace ++ es ∧ ∀ b, tdo = some b →
      let stored := ((fullReads es).take
        (chunkSizes (realLen len last / 8) (realLen len last / 8) (s.cfg.bufSize - 3)).length).flatten
      ∀ i < stored.length, t.mem.read (b.base + i) = stored.getD i 0

/-- The chunk sizes: `ceil(nb_byte / C)` chunks, all of `C` bytes but the last, which has at least one, and their sum is
`nb_byte`: no byte is dropped or sent twice (43_data_shifter.md R133, which the spec marks derived). -/
def Obligations.ChunksCoverEveryByte : Prop :=
  ∀ nbByte c : Nat, 1 ≤ c →
    (chunkSizes nbByte nbByte c).sum = nbByte ∧ (chunkSizes nbByte nbByte c).length = (nbByte + c - 1) / c ∧
    ∀ k, k < (chunkSizes nbByte nbByte c).length →
      1 ≤ (chunkSizes nbByte nbByte c).getD k 0 ∧
      (k + 1 < (chunkSizes nbByte nbByte c).length → (chunkSizes nbByte nbByte c).getD k 0 = c) ∧
      (chunkSizes nbByte nbByte c).getD k 0 ≤ c

/-- Where captured bits land, and that the undefined low bits of a partial capture never reach TDO (43_data_shifter.md R134
and R135, 45_engine_frames.md R173, which the spec marks derived): bit `j < nb_bit` of the residual byte is captured bit
`j`, the rest is 0; the exit bit is bit 7 of its capture, at bit `nb_bit`. It assumes the MSB-aligned capture contract of
20_memory.md R52 (`leftPack`), as 70_reset_and_hazards.md R214 asks such a claim to say (the spec's decision D31; log 32). -/
def Obligations.CapturedBitsLandInPlace : Prop :=
  ∀ (nbBit : Nat) (bits : List Bool) (fill : Byte), nbBit < 8 → bits.length = nbBit →
    (∀ j < 8, (residualByte nbBit (leftPack nbBit bits fill)).getLsbD j = bits.getD j false) ∧
    ∀ (bit : Bool) (j : Nat), j < 8 →
      (exitBit nbBit (leftPack 1 [bit] fill)).getLsbD j = (decide (j = nbBit) && bit)

/-- The source's loopback properties on the reference engine (45_engine_frames.md R172, which the spec marks derived): a
DATA_SHIFT with TDI and TDO brings back every bit it sent. With `last = 1` and no residual bits the final bit is OR-ed with
the caller's prior bit 0. The bits of the last byte above the bits shifted are 0 when there are residual bits. It assumes
the MSB-aligned capture contract of 20_memory.md R52, as 70_reset_and_hazards.md R214 asks such a claim to say (log 32), and
that a read lets the engine run first, which is the model's choice (log 7). -/
def Obligations.LoopbackReturnsWhatWasSent : Prop :=
  ∀ (s : State) (tdi tdo : Buf) (len : Nat) (last : Bool), flushesSucceed s → engineIdle s → loopedBack s →
    s.cfg.ops.distinct = true → s.inputs.read = [] → 4 ≤ s.cfg.bufSize → s.cfg.bufSize ≤ 65539 →
    dataAdmitted (some tdi) (some tdo) len s →
    len ≠ 0 → s.pending = [] → s.mem.wf →
    ∃ t, exec (.dataShift (some tdi) (some tdo) len last) s = .next t ∧ t.results = s.results ++ [.ok (.value 0)] ∧
      (∀ i < realLen len last, bufBit t.mem tdo i = bufBit s.mem tdi i) ∧
      (last = true → realLen len last % 8 ≠ 0 → bufBit t.mem tdo (len - 1) = bufBit s.mem tdi (len - 1)) ∧
      (last = true → realLen len last % 8 = 0 →
        bufBit t.mem tdo (len - 1) = (bufBit s.mem tdo (len - 1) || bufBit s.mem tdi (len - 1))) ∧
      (realLen len last % 8 ≠ 0 → ∀ j, len ≤ j → j < 8 * (realLen len last / 8 + 1) → bufBit t.mem tdo j = false)

/-! ### TEARDOWN (44_teardown.md) -/

/-- TEARDOWN from READY or FAILED with a good probe always ends in CLOSED with `ok` (44_teardown.md R141, R143 to R145;
60_exceptions.md R180; the frame layout and the skipped read are the spec's decision D29): the four frames in one transfer
of `10 + P` bytes, then a read of `P` bytes whose count alone is checked, a mismatch being a warning. On a reference engine
that is idle, once it has executed what a flush that returned `10 + P` sent, both GPIO registers are written, the loopback
bit is 1 and stays so (R147), and exactly the `8P` pulses of the probe were made, TMS held (45_engine_frames.md R154, R156,
R164 to R166 and R174; log 7). -/
def Obligations.TeardownSelfTest : Prop :=
  ∀ (s : State) (r : Int) (rs : List Int) (a : ReadAnswer) (as : List ReadAnswer), s.phase = .ready ∨ s.phase = .failed →
    1 ≤ s.cfg.probe.length → s.cfg.probe.length ≤ 65536 → 10 + s.cfg.probe.length ≤ s.cfg.bufSize → s.pending = [] →
    s.inputs.flush = r :: rs → s.inputs.read = a :: as →
    ∃ t, exec .teardown s = .next t ∧ t.phase = .closed ∧ t.results = s.results ++ [.ok .unit] ∧
      t.trace = s.trace ++
        ([.enq (encode s.cfg.ops (.opSetLow s.cfg.tdLowVal s.cfg.tdLowDir)),
          .enq (encode s.cfg.ops (.opSetHigh s.cfg.tdHighVal s.cfg.tdHighDir)),
          .enq (encode s.cfg.ops .opLoopbackOn), .enq (encode s.cfg.ops (.opByteWr s.cfg.rdNeg s.cfg.probe)),
          .flush (10 + s.cfg.probe.length) r] ++
         (if r = ((10 + s.cfg.probe.length : Nat) : Int) then [.read s.cfg.probe.length (cutAnswer s.cfg.probe.length a)] else [])) ∧
      t.diag = s.diag ++
        (if r ≠ ((10 + s.cfg.probe.length : Nat) : Int) then [.teardownMismatchFlush (10 + s.cfg.probe.length) r]
         else if answersAll s.cfg.probe.length (cutAnswer s.cfg.probe.length a) then []
         else [.teardownMismatchRead s.cfg.probe.length (cutAnswer s.cfg.probe.length a)]) ∧
      t.pending = [] ∧ t.mem = s.mem ∧ t.quirk = s.quirk ∧ t.fault = s.fault ∧ leavesRequestSide s t ∧
      (s.oracle = .reference → s.engine.inbox = [] → s.engine.sync = true → s.cfg.ops.distinct = true →
        r = ((10 + s.cfg.probe.length : Nat) : Int) →
        drives s (catchUp t) (List.replicate (8 * s.cfg.probe.length) s.engine.tmsPin)
          ((List.range (8 * s.cfg.probe.length)).map (bitAt s.cfg.probe)) ∧
        (catchUp t).engine.gpioLow = (s.cfg.tdLowVal, s.cfg.tdLowDir) ∧
        (catchUp t).engine.gpioHigh = (s.cfg.tdHighVal, s.cfg.tdHighDir) ∧ (catchUp t).engine.loop = true ∧
        (catchUp t).engine.inbox = [])

/-! ### The frames on the reference engine (45_engine_frames.md) -/

/-- OP_TMS_W (45_engine_frames.md R152; that the pins keep their last level is marked general knowledge, log 28): `n`
pulses, TMS from the data byte's low bits, TDI from its bit 7, nothing captured. -/
def Obligations.TmsFrameWaveform : Prop :=
  ∀ (n : Nat) (d : Byte) (s : State), 1 ≤ n → n ≤ 6 →
    ∃ t, exec (.opTmsW n d) s = .next t ∧
      drives s t ((List.range n).map d.getLsbD) (List.replicate n (d.getLsbD 7)) ∧
      t.engine.tmsPin = d.getLsbD (n - 1) ∧ t.engine.tdiPin = d.getLsbD 7 ∧ t.engine.resp = s.engine.resp ∧
      leavesBlock s t ∧ leavesEngineRegisters s t

/-- 45_engine_frames.md R153: OP_TMS_WR makes the same pulses and appends one byte, captured bit `j` at bit `8 - n + j`, its
other bits a draw (the scripted fill byte's, where one is scripted: the model's choice, log 16). -/
def Obligations.ExitFrameCaptures : Prop :=
  ∀ (neg : Bool) (n : Nat) (d : Byte) (s : State), 1 ≤ n → n ≤ 6 →
    ∃ t, exec (.opTmsWr neg n d) s = .next t ∧
      drives s t ((List.range n).map d.getLsbD) (List.replicate n (d.getLsbD 7)) ∧ capturesByte n s t ∧
      leavesBlock s t ∧ leavesEngineRegisters s t

/-- OP_DB_W (45_engine_frames.md R154; that TDI keeps its last level is marked general knowledge, log 28): `8c` pulses of
the payload's bits with TMS held, nothing captured. -/
def Obligations.ByteWriteWaveform : Prop :=
  ∀ (payload : List Byte) (s : State), 1 ≤ payload.length →
    ∃ t, exec (.opByteW payload) s = .next t ∧
      drives s t (List.replicate (8 * payload.length) s.engine.tmsPin)
        ((List.range (8 * payload.length)).map (bitAt payload)) ∧
      t.engine.tmsPin = s.engine.tmsPin ∧ t.engine.tdiPin = bitAt payload (8 * payload.length - 1) ∧
      t.engine.resp = s.engine.resp ∧ leavesBlock s t ∧ leavesEngineRegisters s t

/-- 45_engine_frames.md R155 and R156: OP_DB_R holds TDI and TMS for `8c` pulses and appends `c` bytes, captured bit `t` at
bit `t mod 8` of byte `t div 8`; OP_DB_WR makes the pulses of OP_DB_W and the same capture, and is the probe frame. -/
def Obligations.ByteReadsCapture : Prop :=
  (∀ (neg : Bool) (c : Nat) (s : State), ∃ t, exec (.opByteR neg c) s = .next t ∧
    drives s t (List.replicate (8 * c) s.engine.tmsPin) (List.replicate (8 * c) s.engine.tdiPin) ∧
    capturesBytes c s t ∧ leavesBlock s t ∧ leavesEngineRegisters s t) ∧
  (∀ (neg : Bool) (payload : List Byte) (s : State), ∃ t, exec (.opByteWr neg payload) s = .next t ∧
    drives s t (List.replicate (8 * payload.length) s.engine.tmsPin)
      ((List.range (8 * payload.length)).map (bitAt payload)) ∧
    capturesBytes payload.length s t ∧ leavesBlock s t ∧ leavesEngineRegisters s t) ∧
  ∀ cfg : Config, (teardownFrames cfg)[3]? = some (encode cfg.ops (.opByteWr cfg.rdNeg cfg.probe))

/-- OP_Db_W shifts bits 0 to m - 1 of the payload byte with TMS held and captures nothing; OP_Db_R holds TDI and captures one
byte, captured bit `j` at bit `8 - m + j`; OP_Db_WR does both; the payload's other bits do not matter (45_engine_frames.md
R151 and R158 to R160). R159 says nothing of TMS: that OP_Db_R holds it is read from R149 and R150 (the spec's decision D31)
and rests on log 28 (PRESUMED). That the bits below the captured ones are the scripted fill byte's, where one is scripted,
is the model's form of the draw (log 16, DESIGN CHOICE). -/
def Obligations.BitFrames : Prop :=
  ∀ (m : Nat) (p : Byte) (neg : Bool) (s : State), 1 ≤ m → m ≤ 8 →
    (∃ t, exec (.opBitW m p) s = .next t ∧
      drives s t (List.replicate m s.engine.tmsPin) ((List.range m).map p.getLsbD) ∧ t.engine.resp = s.engine.resp ∧
      leavesBlock s t ∧ leavesEngineRegisters s t) ∧
    (∃ t, exec (.opBitR neg m) s = .next t ∧
      drives s t (List.replicate m s.engine.tmsPin) (List.replicate m s.engine.tdiPin) ∧ capturesByte m s t ∧
      leavesBlock s t ∧ leavesEngineRegisters s t) ∧
    (∃ t, exec (.opBitWr neg m p) s = .next t ∧
      drives s t (List.replicate m s.engine.tmsPin) ((List.range m).map p.getLsbD) ∧ capturesByte m s t ∧
      leavesBlock s t ∧ leavesEngineRegisters s t) ∧
    ∀ q : Byte, (∀ j < m, q.getLsbD j = p.getLsbD j) →
      exec (.opBitW m q) s = exec (.opBitW m p) s ∧ exec (.opBitWr neg m q) s = exec (.opBitWr neg m p) s

/-- The clock-only frames make `8g` and `r` pulses with TMS and TDI held, and capture nothing (45_engine_frames.md R162 and
R163). That the pins stay at those levels after the frame rests on R149, the spec's decision D31, and on log 28
(PRESUMED). -/
def Obligations.ClockFramesHoldThePins : Prop :=
  (∀ (g : Nat) (s : State), ∃ t, exec (.opClkBytes g) s = .next t ∧
    drives s t (List.replicate (8 * g) s.engine.tmsPin) (List.replicate (8 * g) s.engine.tdiPin) ∧
    t.engine.tmsPin = s.engine.tmsPin ∧ t.engine.tdiPin = s.engine.tdiPin ∧ t.engine.resp = s.engine.resp ∧
    leavesBlock s t ∧ leavesEngineRegisters s t) ∧
  ∀ (r : Nat) (s : State), ∃ t, exec (.opClkBits r) s = .next t ∧
    drives s t (List.replicate r s.engine.tmsPin) (List.replicate r s.engine.tdiPin) ∧
    t.engine.tmsPin = s.engine.tmsPin ∧ t.engine.tdiPin = s.engine.tdiPin ∧ t.engine.resp = s.engine.resp ∧
    leavesBlock s t ∧ leavesEngineRegisters s t

/-- The GPIO frames and the loopback marker (45_engine_frames.md R164 to R166; the GPIO layout is marked general knowledge,
log 1): one register each, and no pulse. That a GPIO frame leaves the TMS and TDI pins is the model's choice: R164 puts its
effect on the pins outside the spec (log 31). -/
def Obligations.EngineRegisterFrames : Prop :=
  ∀ (v d : Byte) (s : State),
    exec (.opSetLow v d) s = .next { s with engine := { s.engine with gpioLow := (v, d) } } ∧
    exec (.opSetHigh v d) s = .next { s with engine := { s.engine with gpioHigh := (v, d) } } ∧
    exec .opLoopbackOn s = .next { s with engine := { s.engine with loop := true } }

/-- Under loopback every frame samples its own TDI (45_engine_frames.md R149 and R166, of which R149 is the spec's decision
D31). -/
def Obligations.LoopbackSamplesTdi : Prop :=
  ∀ (i : Instr) (s t : State), i.isRequest = false → loopedBack s → exec i s = .next t →
    loopedBack t ∧ ∃ ps, t.engine.wave = s.engine.wave ++ ps ∧ ∀ p ∈ ps, p.tdo = p.tdi

/-- A frame that neither writes nor reads stops the engine, which names it (45_engine_frames.md R157, R161 and R167, the
spec's decision D20). -/
def Obligations.NeitherFramesStopTheEngine : Prop :=
  ∀ (n : Nat) (s : State),
    exec (.opByteN n) s = .fault (.engineUnmodelled (encode s.cfg.ops (.opByteN n))) ∧
    exec (.opBitN n) s = .fault (.engineUnmodelled (encode s.cfg.ops (.opBitN n)))

/-- A frame makes the pulses of 45_engine_frames.md R174 (marked derived), the pins go to the last levels driven (R149, a
decision of the spec; R152 and R154 mark that they keep them as general knowledge, log 28), `resp` is only appended to, and
nothing of the block is touched. That the pins stay after a GPIO frame is the model's choice (R164; log 31). -/
def Obligations.FramesMakeTheirPulses : Prop :=
  ∀ (i : Instr) (s t : State), i.isRequest = false → exec i s = .next t →
    t.engine.wave.length = s.engine.wave.length + pulsesOf s.cfg i ∧ pinsFollow s t ∧
    s.engine.resp <+: t.engine.resp ∧ leavesBlock s t

/-- The quirked chip's own responses, and how a read takes responses (45_engine_frames.md R149 and R169, the spec's decision
D31; log 17 and, for the read, log 14). A frame marks its transfer
as one that captured exactly when it captures. At the end of a transfer that captured nothing, a quirked chip adds a draw of
any length to its responses, which is the outside world's where one is scripted; at the end of any other, and before the
end, nothing is added; and no pulse is made. An unscripted `read(n)` of a reference engine that has executed all it
received and holds at least `n` response bytes takes `n` of them from the front and leaves the others in order. -/
def Obligations.QuirkedChipAddsResponses : Prop :=
  (∀ (i : Instr) (s t : State), i.isRequest = false → exec i s = .next t →
    t.engine.captured = (s.engine.captured || capturesTdo i)) ∧
  (∀ (s : State) (transfers : List (List Byte)), s.engine.inbox = [] :: transfers →
    (finishTransfer s).engine.inbox = transfers ∧ (finishTransfer s).engine.captured = false ∧
    leavesBlock s (finishTransfer s) ∧ (finishTransfer s).engine.wave = s.engine.wave ∧
    pinsFollow s (finishTransfer s) ∧ s.engine.resp <+: (finishTransfer s).engine.resp ∧
    (s.cfg.quirkedChip = true → s.engine.captured = false → ∀ bs coming, s.inputs.chipResponses = bs :: coming →
      (finishTransfer s).engine.resp = s.engine.resp ++ bs ∧ (finishTransfer s).inputs.chipResponses = coming) ∧
    ((s.cfg.quirkedChip = false ∨ s.engine.captured = true) →
      (finishTransfer s).engine.resp = s.engine.resp ∧ (finishTransfer s).inputs = s.inputs)) ∧
  (∀ (s : State) (b : Byte) (bytes : List Byte) (transfers : List (List Byte)),
    s.engine.inbox = (b :: bytes) :: transfers → finishTransfer s = s) ∧
  ∀ (s : State) (n : Nat), s.oracle = .reference → s.inputs.read = [] → s.engine.inbox = [] → s.engine.sync = true →
    n ≤ s.engine.resp.length →
    callRead n s = (some (s.engine.resp.take n), { s with engine := { s.engine with resp := s.engine.resp.drop n } })

/-! ### The block and the engine together -/

/-- From end to end on the reference engine: once the engine has executed what a successful TMS_SHIFT sent, the TMS pin has
gone through exactly the input sequence, one pulse a bit, with TDI at the fixed level (41_tms_shifter.md R109,
45_engine_frames.md R152 and R174, marked derived; log 7). -/
def Obligations.TmsWaveformIsTheInput : Prop :=
  ∀ (s t : State) (tms : Buf) (len : Nat) (v : OkValue), s.oracle = .reference → s.engine.inbox = [] →
    s.engine.sync = true → s.cfg.ops.distinct = true → s.pending = [] → exec (.tmsShift tms len) s = .next t →
    t.results = s.results ++ [.ok v] →
    drives s (catchUp t) ((List.range len).map (bufBit s.mem tms)) (List.replicate len s.cfg.tmsTdiLevel) ∧
    (catchUp t).engine.inbox = []

/-- From end to end on the reference engine: a successful CLOCK_TICK makes exactly `count` pulses. On the fast path TMS and
TDI stay at the levels the engine last drove; on the fallback path TMS is at `tms_level` and TDI at the fixed level
(42_clock_ticker.md R118, R122 to R124, 45_engine_frames.md R174, the spec's decision D18; log 7; that the second frame of
the fast path finds the levels the first one held rests on log 28). -/
def Obligations.ClockTickMakesCountPulses : Prop :=
  ∀ (s t : State) (tmsLevel tdiLevel : Bool) (count : Nat) (v : OkValue), s.oracle = .reference → s.engine.inbox = [] →
    s.engine.sync = true → s.cfg.ops.distinct = true → s.pending = [] →
    exec (.clockTick tmsLevel tdiLevel count) s = .next t →
    t.results = s.results ++ [.ok v] →
    (s.cfg.clkOnlyCapable = true →
      drives s (catchUp t) (List.replicate count s.engine.tmsPin) (List.replicate count s.engine.tdiPin)) ∧
    (s.cfg.clkOnlyCapable = false →
      drives s (catchUp t) (List.replicate count tmsLevel) (List.replicate count s.cfg.tmsTdiLevel))

/-- From end to end on the reference engine: a successful DATA_SHIFT that writes or reads makes one pulse a bit, with TDI
going through exactly the bits of the caller's buffer, or, without TDI, held and 0 on the exit pulse; TMS is held on every
pulse but the exit pulse, and is 1 on that one (43_data_shifter.md R134 and R135, 45_engine_frames.md R155, R159, R171 and
R174, marked derived; log 7; TMS and TDI held across frames rest on log 28). One that neither writes nor reads and has more
than an exit bit makes no pulse: the engine stops at its first frame (R157, R161; log 19). -/
def Obligations.DataWaveformIsTheInput : Prop :=
  ∀ (s t : State) (tdi tdo : Option Buf) (len : Nat) (last : Bool) (v : OkValue), s.oracle = .reference →
    s.engine.inbox = [] → s.engine.sync = true → s.cfg.ops.distinct = true → s.pending = [] → 4 ≤ s.cfg.bufSize →
    s.cfg.bufSize ≤ 65539 → s.mem.wf → exec (.dataShift tdi tdo len last) s = .next t →
    t.results = s.results ++ [.ok v] →
    (tdi ≠ none ∨ tdo ≠ none ∨ realLen len last = 0 →
      drives s (catchUp t)
        (List.replicate (realLen len last) s.engine.tmsPin ++ (if last then [true] else []))
        (tdiLevels s.mem tdi s.engine.tdiPin len last) ∧
      (catchUp t).engine.inbox = []) ∧
    (tdi = none → tdo = none → realLen len last ≠ 0 →
      drives s (catchUp t) [] [] ∧ ∃ frame, step (catchUp t) = .fault (.engineUnmodelled frame))
end

