-- ==== Sys2Proof/Laws/Decode.lean ====
section
/-! SUPPORT. The laws of the fields an encoding is made of: what each reader gives of what its writer wrote, and what was
written where a reader succeeds; and of the rows that tell the instructions apart. -/

namespace Sys2Proof

theorem byte_toNat (v : Nat) : (byte v).toNat = v % 256 := by
  unfold byte
  exact BitVec.toNat_ofNat v 8

theorem byte_toNat_self (b : Byte) : byte b.toNat = b := by
  apply BitVec.eq_of_toNat_eq
  rw [byte_toNat]
  exact Nat.mod_eq_of_lt b.isLt

theorem length_leBytes (k v : Nat) : (leBytes k v).length = k := by
  induction k generalizing v with
  | zero => rfl
  | succ k ih => simp [leBytes, ih]

/-- A natural that fits its field is read back. -/
theorem takeNat_leBytes (k v : Nat) (rest : List Byte) (h : v < 256 ^ k) :
    takeNat k (leBytes k v ++ rest) = some (v, rest) := by
  induction k generalizing v with
  | zero =>
    have : v = 0 := by simpa using h
    simp [takeNat, leBytes, this]
  | succ k ih =>
    have hk : v / 256 < 256 ^ k := by
      rw [pow_succ] at h
      omega
    rw [leBytes, List.cons_append, takeNat, ih _ hk]
    simp only [byte_toNat]
    congr 2
    omega

/-- What a natural is read from is its bytes, and it fits its field. -/
theorem takeNat_some {k v : Nat} {bs rest : List Byte} (h : takeNat k bs = some (v, rest)) :
    v < 256 ^ k ∧ leBytes k v ++ rest = bs := by
  induction k generalizing v bs with
  | zero =>
    simp only [takeNat, Option.some.injEq, Prod.mk.injEq] at h
    obtain ⟨rfl, rfl⟩ := h
    simp [leBytes]
  | succ k ih =>
    cases bs with
    | nil => simp [takeNat] at h
    | cons b bs =>
      rw [takeNat] at h
      split at h
      · next w r hw =>
        simp only [Option.some.injEq, Prod.mk.injEq] at h
        obtain ⟨rfl, rfl⟩ := h
        obtain ⟨hlt, hbs⟩ := ih hw
        have hb := b.isLt
        refine ⟨by rw [pow_succ]; omega, ?_⟩
        have h1 : (b.toNat + 256 * w) / 256 = w := by omega
        have h2 : byte (b.toNat + 256 * w) = b := by
          apply BitVec.eq_of_toNat_eq
          rw [byte_toNat]
          omega
        rw [leBytes, h1, h2, List.cons_append, hbs]
      · exact absurd h (by simp)

theorem takeBit_bitByte (b : Bool) (rest : List Byte) : takeBit (bitByte b :: rest) = some (b, rest) := by
  cases b <;> rfl

theorem takeBit_some {b : Bool} {bs rest : List Byte} (h : takeBit bs = some (b, rest)) : bitByte b :: rest = bs := by
  cases bs with
  | nil => simp [takeBit] at h
  | cons c bs =>
    rw [takeBit] at h
    split_ifs at h with h0 h1
    · simp only [Option.some.injEq, Prod.mk.injEq] at h
      obtain ⟨rfl, rfl⟩ := h
      simp [bitByte, h0]
    · simp only [Option.some.injEq, Prod.mk.injEq] at h
      obtain ⟨rfl, rfl⟩ := h
      simp [bitByte, h1]

theorem takeByte_some {b : Byte} {bs rest : List Byte} (h : takeByte bs = some (b, rest)) : b :: rest = bs := by
  cases bs with
  | nil => simp [takeByte] at h
  | cons c bs => simpa [takeByte] using h.symm

theorem takeBytes_append (xs rest : List Byte) : takeBytes xs.length (xs ++ rest) = some (xs, rest) := by
  simp [takeBytes]

theorem takeBytes_some {n : Nat} {xs bs rest : List Byte} (h : takeBytes n bs = some (xs, rest)) :
    xs.length = n ∧ xs ++ rest = bs := by
  unfold takeBytes at h
  split_ifs at h with hn
  simp only [Option.some.injEq, Prod.mk.injEq] at h
  obtain ⟨rfl, rfl⟩ := h
  simp [hn]

theorem takeBuf_bufBytes (b : Buf) (rest : List Byte) (h : b.wellFormed = true) :
    takeBuf (bufBytes b ++ rest) = some (b, rest) := by
  simp only [Buf.wellFormed, fitsField, Bool.and_eq_true, decide_eq_true_eq] at h
  have h1 := takeNat_leBytes 8 b.base (leBytes 8 b.size ++ rest) (by norm_num; exact h.1)
  have h2 := takeNat_leBytes 8 b.size rest (by norm_num; exact h.2)
  simp [takeBuf, bufBytes, List.append_assoc, h1, h2]

theorem takeBuf_some {b : Buf} {bs rest : List Byte} (h : takeBuf bs = some (b, rest)) :
    b.wellFormed = true ∧ bufBytes b ++ rest = bs := by
  unfold takeBuf at h
  split at h
  · exact absurd h (by simp)
  · next base r1 h1 =>
    split at h
    · exact absurd h (by simp)
    · next size r2 h2 =>
      simp only [Option.some.injEq, Prod.mk.injEq] at h
      obtain ⟨rfl, rfl⟩ := h
      obtain ⟨l1, e1⟩ := takeNat_some h1
      obtain ⟨l2, e2⟩ := takeNat_some h2
      norm_num at l1 l2
      exact ⟨by simp [Buf.wellFormed, fitsField, l1, l2], by simp [bufBytes, List.append_assoc, e1, e2]⟩

theorem takeOptBuf_optBufBytes (o : Option Buf) (rest : List Byte) (h : bufWellFormed o = true) :
    takeOptBuf (optBufBytes o ++ rest) = some (o, rest) := by
  cases o with
  | none => simp [takeOptBuf, optBufBytes, takeBit_bitByte]
  | some b => simp [takeOptBuf, optBufBytes, takeBit_bitByte, takeBuf_bufBytes b rest h]

theorem takeOptBuf_some {o : Option Buf} {bs rest : List Byte} (h : takeOptBuf bs = some (o, rest)) :
    bufWellFormed o = true ∧ optBufBytes o ++ rest = bs := by
  unfold takeOptBuf at h
  split at h
  · exact absurd h (by simp)
  · next r hb =>
    simp only [Option.some.injEq, Prod.mk.injEq] at h
    obtain ⟨rfl, rfl⟩ := h
    exact ⟨rfl, takeBit_some hb⟩
  · next r hb =>
    rw [Option.map_eq_some_iff] at h
    obtain ⟨⟨b, r'⟩, hr, he⟩ := h
    simp only [Prod.mk.injEq] at he
    obtain ⟨rfl, rfl⟩ := he
    obtain ⟨hw, e⟩ := takeBuf_some hr
    exact ⟨hw, by rw [← takeBit_some hb, ← e]; rfl⟩

/-- A one-byte count in its range is read back. -/
theorem takeBitCount_bitCountByte {top m : Nat} (rest : List Byte) (h1 : 1 ≤ m) (h2 : m ≤ top) (h3 : top ≤ 256) :
    takeBitCount top (bitCountByte m :: rest) = some (m, rest) := by
  have hb : (bitCountByte m).toNat = m - 1 := by
    rw [bitCountByte, byte_toNat]
    omega
  simp only [takeBitCount, takeByte, hb]
  rw [if_pos (by omega)]
  congr 2
  omega

theorem takeBitCount_some {top m : Nat} {bs rest : List Byte} (h : takeBitCount top bs = some (m, rest)) :
    1 ≤ m ∧ m ≤ top ∧ bitCountByte m :: rest = bs := by
  unfold takeBitCount at h
  split at h
  · exact absurd h (by simp)
  · next b r hb =>
    split_ifs at h with hlt
    simp only [Option.some.injEq, Prod.mk.injEq] at h
    obtain ⟨rfl, rfl⟩ := h
    refine ⟨by omega, by omega, ?_⟩
    rw [← takeByte_some hb, bitCountByte, Nat.add_sub_cancel, byte_toNat_self]

/-- A two-byte count in its range is read back. -/
theorem takeByteCount_byteCountBytes {c : Nat} (rest : List Byte) (h1 : 1 ≤ c) (h2 : c ≤ 65536) :
    takeByteCount (byteCountBytes c ++ rest) = some (c, rest) := by
  rw [takeByteCount, byteCountBytes, takeNat_leBytes 2 (c - 1) rest (by norm_num; omega)]
  simp only [Option.map_some]
  congr 2
  omega

theorem takeByteCount_some {c : Nat} {bs rest : List Byte} (h : takeByteCount bs = some (c, rest)) :
    1 ≤ c ∧ c ≤ 65536 ∧ byteCountBytes c ++ rest = bs := by
  unfold takeByteCount at h
  rw [Option.map_eq_some_iff] at h
  obtain ⟨⟨v, r⟩, hv, he⟩ := h
  simp only [Prod.mk.injEq] at he
  obtain ⟨rfl, rfl⟩ := he
  obtain ⟨hlt, e⟩ := takeNat_some hv
  norm_num at hlt
  exact ⟨by omega, by omega, by simpa [byteCountBytes] using e⟩

/-! ### Rows -/

/-- The opcode table's row of an instruction. -/
def rowKind : Instr → OpKind
  | .init _ _ => .init
  | .tmsShift _ _ => .tmsShift
  | .clockTick _ _ _ => .clockTick
  | .dataShift _ _ _ _ => .dataShift
  | .teardown => .teardown
  | .opTmsW _ _ => .tmsW
  | .opTmsWr _ _ _ => .tmsWr
  | .opByteN _ => .byteN
  | .opByteW _ => .byteW
  | .opByteR _ _ => .byteR
  | .opByteWr _ _ => .byteWr
  | .opBitN _ => .bitN
  | .opBitW _ _ => .bitW
  | .opBitR _ _ => .bitR
  | .opBitWr _ _ _ => .bitWr
  | .opClkBytes _ => .clkBytes
  | .opClkBits _ => .clkBits
  | .opSetLow _ _ => .setLow
  | .opSetHigh _ _ => .setHigh
  | .opLoopbackOn => .loopbackOn

/-- What the fields of a row decode to is an instruction of the row's kind. -/
theorem decodeFields_kind {neg : Bool} {bs rest : List Byte} {kind : OpKind} {i : Instr}
    (h : decodeFields neg bs kind = some (i, rest)) : rowKind i = kind := by
  cases kind <;>
    simp only [decodeFields, Option.bind_eq_bind, Option.bind_eq_some_iff, Option.some.injEq, Prod.mk.injEq,
      Prod.exists] at h
  all_goals first
    | (obtain ⟨rfl, -⟩ := h; rfl)
    | (obtain ⟨_, _, -, rfl, -⟩ := h; rfl)
    | (obtain ⟨_, _, -, _, _, -, rfl, -⟩ := h; rfl)
    | (obtain ⟨_, _, -, _, _, -, _, _, -, rfl, -⟩ := h; rfl)
    | (obtain ⟨_, _, -, _, _, -, _, _, -, _, _, -, rfl, -⟩ := h; rfl)

theorem isRequest_iff_kind (i : Instr) : i.isRequest = true ↔ rowKind i ∈ tagRows.map (·.kind) := by
  cases i <;> simp [Instr.isRequest, rowKind, tagRows]

/-- The opcodes' kinds are none of the tags'. -/
theorem opRows_kind {o : OpCodes} {row : OpRow} (h : row ∈ opRows o) : row.kind ∉ tagRows.map (·.kind) := by
  have hk : row.kind ∈ (opRows o).map (·.kind) := List.mem_map_of_mem h
  have hl : (opRows o).map (·.kind) = (opRows OpCodes.defaults).map (·.kind) := rfl
  rw [hl] at hk
  have hall : ∀ k ∈ (opRows OpCodes.defaults).map (·.kind), k ∉ tagRows.map (·.kind) := by decide
  exact hall _ hk

theorem mem_of_rowOf {rows : List OpRow} {b : Byte} {row : OpRow} (h : rowOf rows b = some row) :
    row ∈ rows ∧ row.value = b :=
  ⟨List.mem_of_find?_eq_some h, by simpa using List.find?_some h⟩

/-- Where no two rows have one value, a row is found by its value. -/
theorem rowOf_of_mem {rows : List OpRow} {row : OpRow} (hd : (rows.map (·.value)).Nodup) (h : row ∈ rows) :
    rowOf rows row.value = some row := by
  induction rows with
  | nil => cases h
  | cons r rows ih =>
    rw [List.map_cons, List.nodup_cons] at hd
    rw [rowOf, List.find?_cons]
    by_cases hr : r.value = row.value
    · simp only [hr, beq_self_eq_true]
      rcases List.mem_cons.mp h with rfl | hm
      · rfl
      · exact absurd (hr ▸ List.mem_map_of_mem hm) hd.1
    · have hne : (r.value == row.value) = false := by simpa using hr
      simp only [hne]
      refine ih hd.2 ((List.mem_cons.mp h).resolve_left ?_)
      rintro rfl
      exact hr rfl

theorem decodeBy_ok {rows : List OpRow} {bytes rest : List Byte} {i : Instr}
    (h : decodeBy rows bytes = .ok (i, rest)) :
    ∃ op bs row, bytes = op :: bs ∧ rowOf rows op = some row ∧ decodeFields row.neg bs row.kind = some (i, rest) := by
  cases bytes with
  | nil => cases h
  | cons op bs =>
    rw [decodeBy] at h
    split at h
    · cases h
    · next row hrow =>
      split at h
      · cases h
      · next r hr =>
        cases h
        exact ⟨op, bs, row, rfl, hrow, hr⟩

theorem decodeFrame_some {o : OpCodes} {bytes rest : List Byte} {i : Instr}
    (h : decodeFrame o bytes = some (i, rest)) : decodeBy (opRows o) bytes = .ok (i, rest) := by
  unfold decodeFrame at h
  split at h
  · next r hr =>
    cases h
    exact hr
  · cases h

/-- What the engine decodes is a frame. -/
theorem isRequest_of_decodeFrame {o : OpCodes} {bytes rest : List Byte} {i : Instr}
    (h : decodeFrame o bytes = some (i, rest)) : i.isRequest = false := by
  obtain ⟨op, bs, row, -, hrow, hf⟩ := decodeBy_ok (decodeFrame_some h)
  have hk := opRows_kind (mem_of_rowOf hrow).1
  rw [← decodeFields_kind hf, ← isRequest_iff_kind] at hk
  simpa using hk

end Sys2Proof
end

