-- ==== Sys2Proof/Laws/State.lean ====
section
/-! SUPPORT. One lemma per field per register update: what the update writes and what it leaves. -/

namespace Sys2Proof.Machine

variable (s : State)

@[simp] theorem State.setPhase_cfg (p : Phase) : (s.setPhase p).cfg = s.cfg := rfl
@[simp] theorem State.setPhase_oracle (p : Phase) : (s.setPhase p).oracle = s.oracle := rfl
@[simp] theorem State.setPhase_inputs (p : Phase) : (s.setPhase p).inputs = s.inputs := rfl
@[simp] theorem State.setPhase_requests (p : Phase) : (s.setPhase p).requests = s.requests := rfl
@[simp] theorem State.setPhase_mem (p : Phase) : (s.setPhase p).mem = s.mem := rfl
@[simp] theorem State.setPhase_phase (p : Phase) : (s.setPhase p).phase = p := rfl
@[simp] theorem State.setPhase_quirk (p : Phase) : (s.setPhase p).quirk = s.quirk := rfl
@[simp] theorem State.setPhase_fault (p : Phase) : (s.setPhase p).fault = s.fault := rfl
@[simp] theorem State.setPhase_diag (p : Phase) : (s.setPhase p).diag = s.diag := rfl
@[simp] theorem State.setPhase_pending (p : Phase) : (s.setPhase p).pending = s.pending := rfl
@[simp] theorem State.setPhase_trace (p : Phase) : (s.setPhase p).trace = s.trace := rfl
@[simp] theorem State.setPhase_results (p : Phase) : (s.setPhase p).results = s.results := rfl
@[simp] theorem State.setPhase_engine (p : Phase) : (s.setPhase p).engine = s.engine := rfl

@[simp] theorem State.setQuirk_cfg (q : Bool) : (s.setQuirk q).cfg = s.cfg := rfl
@[simp] theorem State.setQuirk_oracle (q : Bool) : (s.setQuirk q).oracle = s.oracle := rfl
@[simp] theorem State.setQuirk_inputs (q : Bool) : (s.setQuirk q).inputs = s.inputs := rfl
@[simp] theorem State.setQuirk_requests (q : Bool) : (s.setQuirk q).requests = s.requests := rfl
@[simp] theorem State.setQuirk_mem (q : Bool) : (s.setQuirk q).mem = s.mem := rfl
@[simp] theorem State.setQuirk_phase (q : Bool) : (s.setQuirk q).phase = s.phase := rfl
@[simp] theorem State.setQuirk_quirk (q : Bool) : (s.setQuirk q).quirk = q := rfl
@[simp] theorem State.setQuirk_fault (q : Bool) : (s.setQuirk q).fault = s.fault := rfl
@[simp] theorem State.setQuirk_diag (q : Bool) : (s.setQuirk q).diag = s.diag := rfl
@[simp] theorem State.setQuirk_pending (q : Bool) : (s.setQuirk q).pending = s.pending := rfl
@[simp] theorem State.setQuirk_trace (q : Bool) : (s.setQuirk q).trace = s.trace := rfl
@[simp] theorem State.setQuirk_results (q : Bool) : (s.setQuirk q).results = s.results := rfl
@[simp] theorem State.setQuirk_engine (q : Bool) : (s.setQuirk q).engine = s.engine := rfl

@[simp] theorem State.setFault_cfg (e : BlockError) : (s.setFault e).cfg = s.cfg := rfl
@[simp] theorem State.setFault_oracle (e : BlockError) : (s.setFault e).oracle = s.oracle := rfl
@[simp] theorem State.setFault_inputs (e : BlockError) : (s.setFault e).inputs = s.inputs := rfl
@[simp] theorem State.setFault_requests (e : BlockError) : (s.setFault e).requests = s.requests := rfl
@[simp] theorem State.setFault_mem (e : BlockError) : (s.setFault e).mem = s.mem := rfl
@[simp] theorem State.setFault_phase (e : BlockError) : (s.setFault e).phase = s.phase := rfl
@[simp] theorem State.setFault_quirk (e : BlockError) : (s.setFault e).quirk = s.quirk := rfl
@[simp] theorem State.setFault_diag (e : BlockError) : (s.setFault e).diag = s.diag := rfl
@[simp] theorem State.setFault_pending (e : BlockError) : (s.setFault e).pending = s.pending := rfl
@[simp] theorem State.setFault_trace (e : BlockError) : (s.setFault e).trace = s.trace := rfl
@[simp] theorem State.setFault_results (e : BlockError) : (s.setFault e).results = s.results := rfl
@[simp] theorem State.setFault_engine (e : BlockError) : (s.setFault e).engine = s.engine := rfl

@[simp] theorem State.addDiag_cfg (d : Diag) : (s.addDiag d).cfg = s.cfg := rfl
@[simp] theorem State.addDiag_oracle (d : Diag) : (s.addDiag d).oracle = s.oracle := rfl
@[simp] theorem State.addDiag_inputs (d : Diag) : (s.addDiag d).inputs = s.inputs := rfl
@[simp] theorem State.addDiag_requests (d : Diag) : (s.addDiag d).requests = s.requests := rfl
@[simp] theorem State.addDiag_mem (d : Diag) : (s.addDiag d).mem = s.mem := rfl
@[simp] theorem State.addDiag_phase (d : Diag) : (s.addDiag d).phase = s.phase := rfl
@[simp] theorem State.addDiag_quirk (d : Diag) : (s.addDiag d).quirk = s.quirk := rfl
@[simp] theorem State.addDiag_fault (d : Diag) : (s.addDiag d).fault = s.fault := rfl
@[simp] theorem State.addDiag_diag (d : Diag) : (s.addDiag d).diag = s.diag ++ [d] := rfl
@[simp] theorem State.addDiag_pending (d : Diag) : (s.addDiag d).pending = s.pending := rfl
@[simp] theorem State.addDiag_trace (d : Diag) : (s.addDiag d).trace = s.trace := rfl
@[simp] theorem State.addDiag_results (d : Diag) : (s.addDiag d).results = s.results := rfl
@[simp] theorem State.addDiag_engine (d : Diag) : (s.addDiag d).engine = s.engine := rfl

@[simp] theorem State.record_cfg (e : Event) : (s.record e).cfg = s.cfg := rfl
@[simp] theorem State.record_oracle (e : Event) : (s.record e).oracle = s.oracle := rfl
@[simp] theorem State.record_inputs (e : Event) : (s.record e).inputs = s.inputs := rfl
@[simp] theorem State.record_requests (e : Event) : (s.record e).requests = s.requests := rfl
@[simp] theorem State.record_mem (e : Event) : (s.record e).mem = s.mem := rfl
@[simp] theorem State.record_phase (e : Event) : (s.record e).phase = s.phase := rfl
@[simp] theorem State.record_quirk (e : Event) : (s.record e).quirk = s.quirk := rfl
@[simp] theorem State.record_fault (e : Event) : (s.record e).fault = s.fault := rfl
@[simp] theorem State.record_diag (e : Event) : (s.record e).diag = s.diag := rfl
@[simp] theorem State.record_pending (e : Event) : (s.record e).pending = s.pending := rfl
@[simp] theorem State.record_trace (e : Event) : (s.record e).trace = s.trace ++ [e] := rfl
@[simp] theorem State.record_results (e : Event) : (s.record e).results = s.results := rfl
@[simp] theorem State.record_engine (e : Event) : (s.record e).engine = s.engine := rfl

@[simp] theorem State.addResult_cfg (r : RequestResult) : (s.addResult r).cfg = s.cfg := rfl
@[simp] theorem State.addResult_oracle (r : RequestResult) : (s.addResult r).oracle = s.oracle := rfl
@[simp] theorem State.addResult_inputs (r : RequestResult) : (s.addResult r).inputs = s.inputs := rfl
@[simp] theorem State.addResult_requests (r : RequestResult) : (s.addResult r).requests = s.requests := rfl
@[simp] theorem State.addResult_mem (r : RequestResult) : (s.addResult r).mem = s.mem := rfl
@[simp] theorem State.addResult_phase (r : RequestResult) : (s.addResult r).phase = s.phase := rfl
@[simp] theorem State.addResult_quirk (r : RequestResult) : (s.addResult r).quirk = s.quirk := rfl
@[simp] theorem State.addResult_fault (r : RequestResult) : (s.addResult r).fault = s.fault := rfl
@[simp] theorem State.addResult_diag (r : RequestResult) : (s.addResult r).diag = s.diag := rfl
@[simp] theorem State.addResult_pending (r : RequestResult) : (s.addResult r).pending = s.pending := rfl
@[simp] theorem State.addResult_trace (r : RequestResult) : (s.addResult r).trace = s.trace := rfl
@[simp] theorem State.addResult_results (r : RequestResult) : (s.addResult r).results = s.results ++ [r] := rfl
@[simp] theorem State.addResult_engine (r : RequestResult) : (s.addResult r).engine = s.engine := rfl

@[simp] theorem State.setPending_cfg (bs : List Byte) : (s.setPending bs).cfg = s.cfg := rfl
@[simp] theorem State.setPending_oracle (bs : List Byte) : (s.setPending bs).oracle = s.oracle := rfl
@[simp] theorem State.setPending_inputs (bs : List Byte) : (s.setPending bs).inputs = s.inputs := rfl
@[simp] theorem State.setPending_requests (bs : List Byte) : (s.setPending bs).requests = s.requests := rfl
@[simp] theorem State.setPending_mem (bs : List Byte) : (s.setPending bs).mem = s.mem := rfl
@[simp] theorem State.setPending_phase (bs : List Byte) : (s.setPending bs).phase = s.phase := rfl
@[simp] theorem State.setPending_quirk (bs : List Byte) : (s.setPending bs).quirk = s.quirk := rfl
@[simp] theorem State.setPending_fault (bs : List Byte) : (s.setPending bs).fault = s.fault := rfl
@[simp] theorem State.setPending_diag (bs : List Byte) : (s.setPending bs).diag = s.diag := rfl
@[simp] theorem State.setPending_pending (bs : List Byte) : (s.setPending bs).pending = bs := rfl
@[simp] theorem State.setPending_trace (bs : List Byte) : (s.setPending bs).trace = s.trace := rfl
@[simp] theorem State.setPending_results (bs : List Byte) : (s.setPending bs).results = s.results := rfl
@[simp] theorem State.setPending_engine (bs : List Byte) : (s.setPending bs).engine = s.engine := rfl

@[simp] theorem State.setMem_cfg (m : Memory) : (s.setMem m).cfg = s.cfg := rfl
@[simp] theorem State.setMem_oracle (m : Memory) : (s.setMem m).oracle = s.oracle := rfl
@[simp] theorem State.setMem_inputs (m : Memory) : (s.setMem m).inputs = s.inputs := rfl
@[simp] theorem State.setMem_requests (m : Memory) : (s.setMem m).requests = s.requests := rfl
@[simp] theorem State.setMem_mem (m : Memory) : (s.setMem m).mem = m := rfl
@[simp] theorem State.setMem_phase (m : Memory) : (s.setMem m).phase = s.phase := rfl
@[simp] theorem State.setMem_quirk (m : Memory) : (s.setMem m).quirk = s.quirk := rfl
@[simp] theorem State.setMem_fault (m : Memory) : (s.setMem m).fault = s.fault := rfl
@[simp] theorem State.setMem_diag (m : Memory) : (s.setMem m).diag = s.diag := rfl
@[simp] theorem State.setMem_pending (m : Memory) : (s.setMem m).pending = s.pending := rfl
@[simp] theorem State.setMem_trace (m : Memory) : (s.setMem m).trace = s.trace := rfl
@[simp] theorem State.setMem_results (m : Memory) : (s.setMem m).results = s.results := rfl
@[simp] theorem State.setMem_engine (m : Memory) : (s.setMem m).engine = s.engine := rfl

@[simp] theorem State.setEngine_cfg (e : Engine) : (s.setEngine e).cfg = s.cfg := rfl
@[simp] theorem State.setEngine_oracle (e : Engine) : (s.setEngine e).oracle = s.oracle := rfl
@[simp] theorem State.setEngine_inputs (e : Engine) : (s.setEngine e).inputs = s.inputs := rfl
@[simp] theorem State.setEngine_requests (e : Engine) : (s.setEngine e).requests = s.requests := rfl
@[simp] theorem State.setEngine_mem (e : Engine) : (s.setEngine e).mem = s.mem := rfl
@[simp] theorem State.setEngine_phase (e : Engine) : (s.setEngine e).phase = s.phase := rfl
@[simp] theorem State.setEngine_quirk (e : Engine) : (s.setEngine e).quirk = s.quirk := rfl
@[simp] theorem State.setEngine_fault (e : Engine) : (s.setEngine e).fault = s.fault := rfl
@[simp] theorem State.setEngine_diag (e : Engine) : (s.setEngine e).diag = s.diag := rfl
@[simp] theorem State.setEngine_pending (e : Engine) : (s.setEngine e).pending = s.pending := rfl
@[simp] theorem State.setEngine_trace (e : Engine) : (s.setEngine e).trace = s.trace := rfl
@[simp] theorem State.setEngine_results (e : Engine) : (s.setEngine e).results = s.results := rfl
@[simp] theorem State.setEngine_engine (e : Engine) : (s.setEngine e).engine = e := rfl

@[simp] theorem State.setInputs_cfg (i : Inputs) : (s.setInputs i).cfg = s.cfg := rfl
@[simp] theorem State.setInputs_oracle (i : Inputs) : (s.setInputs i).oracle = s.oracle := rfl
@[simp] theorem State.setInputs_inputs (i : Inputs) : (s.setInputs i).inputs = i := rfl
@[simp] theorem State.setInputs_requests (i : Inputs) : (s.setInputs i).requests = s.requests := rfl
@[simp] theorem State.setInputs_mem (i : Inputs) : (s.setInputs i).mem = s.mem := rfl
@[simp] theorem State.setInputs_phase (i : Inputs) : (s.setInputs i).phase = s.phase := rfl
@[simp] theorem State.setInputs_quirk (i : Inputs) : (s.setInputs i).quirk = s.quirk := rfl
@[simp] theorem State.setInputs_fault (i : Inputs) : (s.setInputs i).fault = s.fault := rfl
@[simp] theorem State.setInputs_diag (i : Inputs) : (s.setInputs i).diag = s.diag := rfl
@[simp] theorem State.setInputs_pending (i : Inputs) : (s.setInputs i).pending = s.pending := rfl
@[simp] theorem State.setInputs_trace (i : Inputs) : (s.setInputs i).trace = s.trace := rfl
@[simp] theorem State.setInputs_results (i : Inputs) : (s.setInputs i).results = s.results := rfl
@[simp] theorem State.setInputs_engine (i : Inputs) : (s.setInputs i).engine = s.engine := rfl

@[simp] theorem State.setRequests_cfg (rs : List (List Byte)) : (s.setRequests rs).cfg = s.cfg := rfl
@[simp] theorem State.setRequests_oracle (rs : List (List Byte)) : (s.setRequests rs).oracle = s.oracle := rfl
@[simp] theorem State.setRequests_inputs (rs : List (List Byte)) : (s.setRequests rs).inputs = s.inputs := rfl
@[simp] theorem State.setRequests_requests (rs : List (List Byte)) : (s.setRequests rs).requests = rs := rfl
@[simp] theorem State.setRequests_mem (rs : List (List Byte)) : (s.setRequests rs).mem = s.mem := rfl
@[simp] theorem State.setRequests_phase (rs : List (List Byte)) : (s.setRequests rs).phase = s.phase := rfl
@[simp] theorem State.setRequests_quirk (rs : List (List Byte)) : (s.setRequests rs).quirk = s.quirk := rfl
@[simp] theorem State.setRequests_fault (rs : List (List Byte)) : (s.setRequests rs).fault = s.fault := rfl
@[simp] theorem State.setRequests_diag (rs : List (List Byte)) : (s.setRequests rs).diag = s.diag := rfl
@[simp] theorem State.setRequests_pending (rs : List (List Byte)) : (s.setRequests rs).pending = s.pending := rfl
@[simp] theorem State.setRequests_trace (rs : List (List Byte)) : (s.setRequests rs).trace = s.trace := rfl
@[simp] theorem State.setRequests_results (rs : List (List Byte)) : (s.setRequests rs).results = s.results := rfl
@[simp] theorem State.setRequests_engine (rs : List (List Byte)) : (s.setRequests rs).engine = s.engine := rfl

/-- The fault record keeps the first error. -/
@[simp] theorem State.setFault_fault (e : BlockError) : (s.setFault e).fault = some (s.fault.getD e) := by
  unfold State.setFault
  cases s.fault <;> rfl

theorem State.setMem_setMem (m m' : Memory) : (s.setMem m).setMem m' = s.setMem m' := rfl

theorem State.setMem_self : s.setMem s.mem = s := rfl

end Sys2Proof.Machine
end

