-- ==== Sys2Proof/Laws/Engine.lean ====
section
/-! SUPPORT. The laws of the reference engine's shared operations: what each can do, said once. -/

namespace Sys2Proof.Machine

open Host (Outcome)

/-- From `s` to `t` only the engine moved: the block and the caller are as before, and of the scripted answers only the
target's, the fill bytes and the chip's responses may have been used. -/
def engineOnly (s t : State) : Prop :=
  leavesBlock s t ∧ t.inputs.configure = s.inputs.configure ∧ t.inputs.identity = s.inputs.identity ∧
  t.inputs.flush = s.inputs.flush ∧ t.inputs.read = s.inputs.read

theorem leavesBlock_refl (s : State) : leavesBlock s s := by simp [leavesBlock]

theorem leavesBlock_trans {s t u : State} (h : leavesBlock s t) (h' : leavesBlock t u) : leavesBlock s u := by
  simp_all [leavesBlock]

theorem engineOnly_refl (s : State) : engineOnly s s := by simp [engineOnly, leavesBlock_refl]

theorem engineOnly_trans {s t u : State} (h : engineOnly s t) (h' : engineOnly t u) : engineOnly s u := by
  refine ⟨leavesBlock_trans h.1 h'.1, ?_⟩
  simp_all [engineOnly]

theorem setEngine_engineOnly (s : State) (e : Engine) : engineOnly s (s.setEngine e) := by
  simp [engineOnly, leavesBlock]

/-! ### Pulses -/

theorem sampleTdo_engineOnly (tms tdi : Bool) (s : State) : engineOnly s (sampleTdo tms tdi s).2 := by
  unfold sampleTdo
  split
  · exact engineOnly_refl s
  · split
    · exact engineOnly_refl s
    · exact engineOnly_refl s
    · simp [engineOnly, leavesBlock]

theorem sampleTdo_engine (tms tdi : Bool) (s : State) : (sampleTdo tms tdi s).2.engine = s.engine := by
  unfold sampleTdo
  split
  · rfl
  · split <;> rfl

theorem pulse_engineOnly (tms tdi : Bool) (s : State) : engineOnly s (pulse tms tdi s).2 :=
  engineOnly_trans (sampleTdo_engineOnly tms tdi s) (setEngine_engineOnly _ _)

theorem pulse_engine (tms tdi : Bool) (s : State) :
    (pulse tms tdi s).2.engine =
      { s.engine with tmsPin := tms, tdiPin := tdi, wave := s.engine.wave ++ [⟨tms, tdi, (pulse tms tdi s).1⟩] } := by
  simp [pulse, sampleTdo_engine]

theorem clock_engineOnly (levels : List (Bool × Bool)) (s : State) : engineOnly s (clock levels s).2 := by
  induction levels generalizing s with
  | nil => exact engineOnly_refl s
  | cons l levels ih => exact engineOnly_trans (pulse_engineOnly l.1 l.2 s) (ih _)

/-- All that a run of pulses does to the engine: it appends a pulse a level, and the pins keep the last level. -/
theorem clock_engine (levels : List (Bool × Bool)) (s : State) :
    ∃ ps : List Pulse,
      (clock levels s).2.engine =
        { s.engine with
          tmsPin := (levels.getLast?.map Prod.fst).getD s.engine.tmsPin
          tdiPin := (levels.getLast?.map Prod.snd).getD s.engine.tdiPin
          wave := s.engine.wave ++ ps } ∧
      ps.map Pulse.tms = levels.map Prod.fst ∧ ps.map Pulse.tdi = levels.map Prod.snd ∧
      (clock levels s).1 = ps.map Pulse.tdo := by
  induction levels generalizing s with
  | nil => exact ⟨[], by simp [clock], rfl, rfl, rfl⟩
  | cons l levels ih =>
    obtain ⟨tms, tdi⟩ := l
    obtain ⟨ps, h1, h2, h3, h4⟩ := ih (pulse tms tdi s).2
    refine ⟨⟨tms, tdi, (pulse tms tdi s).1⟩ :: ps, ?_, by simp [h2], by simp [h3], by simp [clock, h4]⟩
    show (clock levels (pulse tms tdi s).2).2.engine = _
    rw [h1, pulse_engine]
    cases levels <;> simp [List.getLast?_cons]

theorem clock_fill (levels : List (Bool × Bool)) (s : State) : (clock levels s).2.inputs.fill = s.inputs.fill := by
  induction levels generalizing s with
  | nil => rfl
  | cons l levels ih =>
    refine (ih _).trans ?_
    show (sampleTdo l.1 l.2 s).2.inputs.fill = s.inputs.fill
    unfold sampleTdo
    split
    · rfl
    · split <;> rfl

theorem clock_append (xs ys : List (Bool × Bool)) (s : State) :
    (clock (xs ++ ys) s).2 = (clock ys (clock xs s).2).2 := by
  induction xs generalizing s with
  | nil => rfl
  | cons l xs ih => exact ih _

/-- Under loopback every pulse samples the TDI level it drives, and loopback stays. -/
theorem pulse_loopedBack {tms tdi : Bool} {s : State} (h : loopedBack s) :
    (pulse tms tdi s).1 = tdi ∧ loopedBack (pulse tms tdi s).2 := by
  unfold loopedBack at h ⊢
  by_cases hl : s.engine.loop = true
  · simp [pulse, sampleTdo, hl]
  · have ht := h.resolve_left hl
    simp [pulse, sampleTdo, hl, ht]

theorem clock_loopedBack {levels : List (Bool × Bool)} {s : State} (h : loopedBack s) :
    (clock levels s).1 = levels.map Prod.snd ∧ loopedBack (clock levels s).2 := by
  induction levels generalizing s with
  | nil => exact ⟨rfl, h⟩
  | cons l levels ih =>
    obtain ⟨h1, h2⟩ := pulse_loopedBack (tms := l.1) (tdi := l.2) h
    obtain ⟨h3, h4⟩ := ih h2
    exact ⟨by simp [clock, h1, h3], h4⟩

theorem drives_trans {s t u : State} {a b c d : List Bool} (h : drives s t a b) (h' : drives t u c d) :
    drives s u (a ++ c) (b ++ d) := by
  obtain ⟨ps, h1, rfl, rfl⟩ := h
  obtain ⟨qs, h2, rfl, rfl⟩ := h'
  exact ⟨ps ++ qs, by rw [h2, h1, List.append_assoc], by simp, by simp⟩

theorem drives_of_wave_eq {s t : State} (h : t.engine.wave = s.engine.wave) : drives s t [] [] :=
  ⟨[], by simp [h], rfl, rfl⟩

/-! ### Captures and draws -/

theorem respond_engineOnly (bs : List Byte) (s : State) : engineOnly s (respond bs s) := setEngine_engineOnly _ _

theorem drawFill_engineOnly (s : State) : engineOnly s (drawFill s).2 := by
  unfold drawFill
  split <;> simp [engineOnly, leavesBlock]

/-- A fill byte is drawn without a pulse: of the engine only the counter of its draws may move. -/
theorem drawFill_engine (s : State) : ∃ k, (drawFill s).2.engine = { s.engine with draws := k } := by
  unfold drawFill
  split
  · exact ⟨s.engine.draws + 1, rfl⟩
  · exact ⟨s.engine.draws, rfl⟩

theorem drawFill_target (s : State) : (drawFill s).2.inputs.target = s.inputs.target := by
  unfold drawFill
  split <;> rfl

theorem clockCaptureBits_engineOnly (m : Nat) (levels : List (Bool × Bool)) (s : State) :
    engineOnly s (clockCaptureBits m levels s) :=
  engineOnly_trans (engineOnly_trans (clock_engineOnly levels s) (drawFill_engineOnly _)) (respond_engineOnly _ _)

theorem clockCaptureBytes_engineOnly (c : Nat) (levels : List (Bool × Bool)) (s : State) :
    engineOnly s (clockCaptureBytes c levels s) :=
  engineOnly_trans (clock_engineOnly levels s) (respond_engineOnly _ _)

/-- All that a capture of bits does to the engine: the pulses of `clock_engine`, and one response byte. -/
theorem clockCaptureBits_engine (m : Nat) (levels : List (Bool × Bool)) (s : State) :
    ∃ (ps : List Pulse) (fill : Byte) (k : Nat),
      (clockCaptureBits m levels s).engine =
        { s.engine with
          tmsPin := (levels.getLast?.map Prod.fst).getD s.engine.tmsPin
          tdiPin := (levels.getLast?.map Prod.snd).getD s.engine.tdiPin
          wave := s.engine.wave ++ ps
          resp := s.engine.resp ++ [leftPack m (ps.map Pulse.tdo) fill]
          captured := true
          draws := k } ∧
      ps.map Pulse.tms = levels.map Prod.fst ∧ ps.map Pulse.tdi = levels.map Prod.snd ∧
      (clock levels s).1 = ps.map Pulse.tdo ∧ ∀ b coming, s.inputs.fill = b :: coming → fill = b := by
  obtain ⟨ps, h1, h2, h3, h4⟩ := clock_engine levels s
  obtain ⟨k, hk⟩ := drawFill_engine (clock levels s).2
  refine ⟨ps, (drawFill (clock levels s).2).1, k, ?_, h2, h3, h4, ?_⟩
  · simp [clockCaptureBits, respond, hk, h1, h4]
  · intro b coming h
    simp [drawFill, clock_fill, h]

/-- All that a capture of bytes does to the engine: the pulses of `clock_engine`, and the packed bytes. -/
theorem clockCaptureBytes_engine (c : Nat) (levels : List (Bool × Bool)) (s : State) :
    ∃ ps : List Pulse,
      (clockCaptureBytes c levels s).engine =
        { s.engine with
          tmsPin := (levels.getLast?.map Prod.fst).getD s.engine.tmsPin
          tdiPin := (levels.getLast?.map Prod.snd).getD s.engine.tdiPin
          wave := s.engine.wave ++ ps
          resp := s.engine.resp ++ packBytes c (ps.map Pulse.tdo)
          captured := true } ∧
      ps.map Pulse.tms = levels.map Prod.fst ∧ ps.map Pulse.tdi = levels.map Prod.snd ∧
      (clock levels s).1 = ps.map Pulse.tdo := by
  obtain ⟨ps, h1, h2, h3, h4⟩ := clock_engine levels s
  refine ⟨ps, ?_, h2, h3, h4⟩
  simp [clockCaptureBytes, respond, h1, h4]

theorem length_packBytes (c : Nat) (bits : List Bool) : (packBytes c bits).length = c := by simp [packBytes]

/-- Bit `j` of the number whose bits are listed is entry `j`. -/
theorem testBit_bitsToNat (bits : List Bool) (j : Nat) : (bitsToNat bits).testBit j = bits.getD j false := by
  induction bits generalizing j with
  | nil => simp [bitsToNat]
  | cons b bs ih =>
    cases j with
    | zero => cases b <;> simp [bitsToNat, Nat.testBit_zero]
    | succ j =>
      have h : (b.toNat + 2 * bitsToNat bs) / 2 = bitsToNat bs := by
        cases b
        · simp
        · simp
          omega
      rw [bitsToNat, Nat.testBit_succ, h, ih]
      simp

theorem getLsbD_byte (v j : Nat) : (byte v).getLsbD j = (decide (j < 8) && v.testBit j) := by
  simp [byte, BitVec.getLsbD_ofNat]

theorem getElem_byte (v : Nat) {j : Nat} (h : j < 8) : (byte v)[j] = v.testBit j := by
  rw [← BitVec.getLsbD_eq_getElem, getLsbD_byte]
  simp [h]

/-- Captured bit `k` of a byte capture is bit `k mod 8` of byte `k div 8` (20_memory.md R51). -/
theorem bitAt_packBytes {c : Nat} {bits : List Bool} {k : Nat} (hk : k < 8 * c) :
    bitAt (packBytes c bits) k = bits.getD k false := by
  have h1 : k / 8 < c := by omega
  have h2 : k % 8 < 8 := by omega
  have h3 : 8 * (k / 8) + k % 8 = k := by omega
  simp [bitAt, packBytes, h1, getElem_byte _ h2, testBit_bitsToNat, h2, h3]

/-- Captured bit `j` of an `m`-bit capture is bit `8 - m + j` of its byte (20_memory.md R52). -/
theorem getLsbD_leftPack {m : Nat} {bits : List Bool} {fill : Byte} {j : Nat} (hm : m ≤ 8) (hj : j < m) :
    (leftPack m bits fill).getLsbD (8 - m + j) = bits.getD j false := by
  have h1 : 8 - m + j < 8 := by omega
  have h2 : ¬ 8 - m + j < 8 - m := by omega
  have h3 : j < 8 := by omega
  have h4 : 8 - m + j - (8 - m) = j := by omega
  simp only [leftPack, BitVec.getLsbD_or, BitVec.getLsbD_shiftLeft, BitVec.getLsbD_and, getLsbD_byte,
    testBit_bitsToNat, Nat.testBit_two_pow_sub_one, h1, h2, h3, h4]
  simp

/-- Below the captured bits a partial capture holds the fill bits. -/
theorem getLsbD_leftPack_fill {m : Nat} {bits : List Bool} {fill : Byte} {j : Nat} (hj : j < 8 - m) :
    (leftPack m bits fill).getLsbD j = fill.getLsbD j := by
  have h1 : j < 8 := by omega
  simp only [leftPack, BitVec.getLsbD_or, BitVec.getLsbD_shiftLeft, BitVec.getLsbD_and, getLsbD_byte,
    Nat.testBit_two_pow_sub_one, h1, hj]
  simp

/-! ### Transfers -/

theorem setInbox_engineOnly (inbox : List (List Byte)) (s : State) : engineOnly s (setInbox inbox s) :=
  setEngine_engineOnly _ _

theorem drawChipResponses_engineOnly (s : State) : engineOnly s (drawChipResponses s) := by
  unfold drawChipResponses
  split <;> simp [engineOnly, leavesBlock]

/-- The chip's own responses are appended to the others, without a pulse. -/
theorem drawChipResponses_engine (s : State) : ∃ bs k,
    (drawChipResponses s).engine = { s.engine with resp := s.engine.resp ++ bs, draws := k } := by
  unfold drawChipResponses
  split
  · exact ⟨_, _, rfl⟩
  · exact ⟨_, s.engine.draws, rfl⟩

theorem finishTransfer_engineOnly (s : State) : engineOnly s (finishTransfer s) := by
  unfold finishTransfer
  split
  · dsimp only
    split
    · exact engineOnly_trans (drawChipResponses_engineOnly s) (setEngine_engineOnly _ _)
    · exact setEngine_engineOnly _ _
  · exact engineOnly_refl s

/-- The end of a transfer makes no pulse and takes no response away. -/
theorem finishTransfer_engine (s : State) : ∃ bs k inbox captured,
    (finishTransfer s).engine =
      { s.engine with resp := s.engine.resp ++ bs, draws := k, inbox := inbox, captured := captured } := by
  unfold finishTransfer
  split
  · next transfers _ =>
    dsimp only
    split
    · obtain ⟨bs, k, h⟩ := drawChipResponses_engine s
      exact ⟨bs, k, transfers, false, by rw [State.setEngine_engine, h]⟩
    · exact ⟨[], s.engine.draws, transfers, false, by simp⟩
  · exact ⟨[], s.engine.draws, s.engine.inbox, s.engine.captured, by simp⟩

theorem consumeResponses_engineOnly (k : Nat) (s : State) : engineOnly s (consumeResponses k s) :=
  setEngine_engineOnly _ _

theorem forgetResponses_engineOnly (s : State) : engineOnly s (forgetResponses s) := setEngine_engineOnly _ _

theorem drawPins_engineOnly (s : State) : engineOnly s (drawPins s) := setEngine_engineOnly _ _

theorem loseEngine_engineOnly (s : State) : engineOnly s (loseEngine s) :=
  engineOnly_trans (engineOnly_trans (drawPins_engineOnly s) (forgetResponses_engineOnly _)) (setEngine_engineOnly _ _)

/-! ### Frames -/

/-- A frame that completes touches the engine only. -/
theorem execFrame_engineOnly {i : Instr} {s t : State} (h : execFrame i s = .next t) : engineOnly s t := by
  cases i <;> cases h
  · exact clock_engineOnly _ s
  · exact clockCaptureBits_engineOnly _ _ s
  · exact clock_engineOnly _ s
  · exact clockCaptureBytes_engineOnly _ _ s
  · exact clockCaptureBytes_engineOnly _ _ s
  · exact clock_engineOnly _ s
  · exact clockCaptureBits_engineOnly _ _ s
  · exact clockCaptureBits_engineOnly _ _ s
  · exact clock_engineOnly _ s
  · exact clock_engineOnly _ s
  · exact setEngine_engineOnly s _
  · exact setEngine_engineOnly s _
  · exact setEngine_engineOnly s _

/-- On a frame the dispatch and the engine's own match agree. -/
theorem exec_eq_execFrame {i : Instr} (h : i.isRequest = false) (s : State) : exec i s = execFrame i s := by
  cases i <;> first | rfl | exact absurd h (by simp [Instr.isRequest])

/-- The engine's move is the same whether `exec` or `execFrame` gives the frame its meaning. -/
theorem frameStep_exec (transfer : List Byte) (transfers : List (List Byte)) (s : State) :
    frameStep exec transfer transfers s = frameStep execFrame transfer transfers s := by
  unfold frameStep
  split
  · rfl
  · split
    · next i rest h => rw [exec_eq_execFrame (isRequest_of_decodeFrame h)]
    · rfl

theorem afterFrame_next {o : Outcome State Fault Refusal} {t : State} (h : afterFrame o = .next t) :
    ∃ u, o = .next u ∧ t = finishTransfer u := by
  cases o <;> simp_all [afterFrame]

/-- All that a move of the engine that completes can be: the end of a transfer, or a frame and the end of its transfer. -/
theorem frameStep_next {transfer : List Byte} {transfers : List (List Byte)} {s t : State}
    (h : frameStep execFrame transfer transfers s = .next t) :
    (transfer = [] ∧ t = finishTransfer s) ∨
    ∃ i rest u, decodeFrame s.cfg.ops transfer = some (i, rest) ∧ execFrame i (setInbox (rest :: transfers) s) = .next u ∧
      t = finishTransfer u := by
  unfold frameStep at h
  split at h
  · cases h
    exact .inl ⟨rfl, rfl⟩
  · split at h
    · next i rest hd =>
      obtain ⟨u, hu, rfl⟩ := afterFrame_next h
      exact .inr ⟨i, rest, u, hd, hu, rfl⟩
    · exact absurd h (by simp)

theorem frameStep_engineOnly {transfer : List Byte} {transfers : List (List Byte)} {s t : State}
    (h : frameStep execFrame transfer transfers s = .next t) : engineOnly s t := by
  rcases frameStep_next h with ⟨-, rfl⟩ | ⟨i, rest, u, -, hu, rfl⟩
  · exact finishTransfer_engineOnly s
  · exact engineOnly_trans (engineOnly_trans (setInbox_engineOnly _ s) (execFrame_engineOnly hu))
      (finishTransfer_engineOnly u)

theorem catchUpFor_engineOnly (fuel : Nat) (s : State) : engineOnly s (catchUpFor fuel s) := by
  induction fuel generalizing s with
  | zero => exact engineOnly_refl s
  | succ fuel ih =>
    unfold catchUpFor
    split
    · exact engineOnly_refl s
    · split
      · next h => exact engineOnly_trans (frameStep_engineOnly h) (ih _)
      · exact engineOnly_refl s
      · exact engineOnly_refl s

theorem catchUp_engineOnly (s : State) : engineOnly s (catchUp s) := catchUpFor_engineOnly _ s

end Sys2Proof.Machine
end

