-- ==== Sys2Proof/Laws/Memory.lean ====
section
/-! SUPPORT. The laws of the caller's memory: read after write, a write leaves every other byte alone, and every write
keeps the canonical form. -/

namespace Sys2Proof.Machine

theorem Memory.read_of_lt {m : Memory} {a : Nat} (h : ∀ c ∈ m, a < c.1) : m.read a = Memory.unlisted := by
  induction m with
  | nil => rfl
  | cons c m ih =>
    obtain ⟨k, v⟩ := c
    have hk : a < k := h (k, v) (by simp)
    rw [Memory.read, if_neg (by omega)]
    exact ih fun c hc => h c (by simp [hc])

theorem Memory.read_cell (a b : Nat) (v : Byte) :
    (Memory.cell a v).read b = if a = b then v else Memory.unlisted := by
  unfold Memory.cell
  split_ifs with h1 h2 h2 <;> simp_all [Memory.read]

theorem Memory.read_append {m m' : Memory} {a : Nat} (h : ∀ c ∈ m, c.1 ≠ a) : Memory.read (m ++ m') a = m'.read a := by
  induction m with
  | nil => rfl
  | cons c m ih =>
    obtain ⟨k, v⟩ := c
    have hk : k ≠ a := h (k, v) (by simp)
    rw [List.cons_append, Memory.read, if_neg hk]
    exact ih fun c hc => h c (by simp [hc])

/-- Reading behind a cell: the cell's byte at its own address, else what the list behind it gives. -/
theorem Memory.read_cell_append (a b : Nat) (v : Byte) (m : Memory) (h : m.read a = Memory.unlisted) :
    Memory.read (Memory.cell a v ++ m) b = if a = b then v else m.read b := by
  unfold Memory.cell
  by_cases hv : v = Memory.unlisted
  · by_cases hab : a = b
    · simp [hv, hab, ← h]
    · simp [hv, hab]
  · simp [hv, Memory.read]

/-- A read after a write: the byte written at its address, every other byte as before. -/
theorem Memory.read_write {m : Memory} (hm : m.wf) (a b : Nat) (v : Byte) :
    (m.write a v).read b = if a = b then v else m.read b := by
  induction m with
  | nil => exact Memory.read_cell a b v
  | cons c m ih =>
    obtain ⟨k, w⟩ := c
    obtain ⟨hp, hz⟩ := hm
    have hlt : ∀ c ∈ m, k < c.1 := fun c hc => (List.pairwise_cons.mp hp).1 c hc
    have hm' : Memory.wf m := ⟨(List.pairwise_cons.mp hp).2, fun c hc => hz c (by simp [hc])⟩
    by_cases h1 : a < k
    · rw [Memory.write, if_pos h1]
      refine Memory.read_cell_append a b v _ ?_
      rw [Memory.read, if_neg (by omega)]
      exact Memory.read_of_lt fun c hc => by have := hlt c hc; omega
    · by_cases h2 : a = k
      · subst h2
        rw [Memory.write, if_neg h1, if_pos rfl, Memory.read_cell_append a b v m (Memory.read_of_lt hlt)]
        by_cases hb : a = b <;> simp [hb, Memory.read]
      · rw [Memory.write, if_neg h1, if_neg h2, Memory.read, Memory.read, ih hm']
        by_cases hk : k = b
        · rw [if_pos hk, if_pos hk, if_neg (by omega)]
        · rw [if_neg hk, if_neg hk]

theorem Memory.mem_cell {a : Nat} {v : Byte} {c : Host.Cell} (h : c ∈ Memory.cell a v) :
    c.1 = a ∧ c.2 ≠ Memory.unlisted := by
  unfold Memory.cell at h
  split_ifs at h with hv
  · simp at h
  · simp only [List.mem_singleton] at h
    subst h
    exact ⟨rfl, hv⟩

theorem Memory.mem_write {m : Memory} {a : Nat} {v : Byte} {c : Host.Cell} (h : c ∈ m.write a v) :
    c ∈ Memory.cell a v ∨ c ∈ m := by
  induction m with
  | nil => exact .inl h
  | cons d m ih =>
    obtain ⟨k, w⟩ := d
    unfold Memory.write at h
    split_ifs at h with h1 h2
    · exact (List.mem_append.mp h).imp id id
    · exact (List.mem_append.mp h).imp id fun hc => by simp [hc]
    · rcases List.mem_cons.mp h with rfl | hc
      · simp
      · exact (ih hc).imp id fun hc => by simp [hc]

theorem Memory.wf_cell_append {a : Nat} {v : Byte} {m : Memory} (hm : m.wf) (h : ∀ c ∈ m, a < c.1) :
    Memory.wf (Memory.cell a v ++ m) := by
  unfold Memory.cell
  split_ifs with hv
  · exact hm
  · refine ⟨?_, ?_⟩
    · exact List.pairwise_cons.mpr ⟨fun c hc => h c hc, hm.1⟩
    · intro c hc
      rcases List.mem_cons.mp hc with rfl | hc
      · exact hv
      · exact hm.2 c hc

/-- A write keeps the canonical form. -/
theorem Memory.wf_write {m : Memory} (hm : m.wf) (a : Nat) (v : Byte) : (m.write a v).wf := by
  induction m with
  | nil =>
    have := Memory.wf_cell_append (a := a) (v := v) hm (by simp)
    simpa [Memory.write] using this
  | cons c m ih =>
    obtain ⟨k, w⟩ := c
    have hlt : ∀ c ∈ m, k < c.1 := fun c hc => (List.pairwise_cons.mp hm.1).1 c hc
    have hm' : Memory.wf m := ⟨(List.pairwise_cons.mp hm.1).2, fun c hc => hm.2 c (by simp [hc])⟩
    unfold Memory.write
    split_ifs with h1 h2
    · refine Memory.wf_cell_append hm ?_
      intro c hc
      rcases List.mem_cons.mp hc with rfl | hc
      · exact h1
      · have := hlt c hc; omega
    · subst h2
      exact Memory.wf_cell_append hm' hlt
    · refine ⟨List.pairwise_cons.mpr ⟨?_, (ih hm').1⟩, ?_⟩
      · intro c hc
        rcases Memory.mem_write hc with hc | hc
        · have := (Memory.mem_cell hc).1
          show k < c.1
          omega
        · exact hlt c hc
      · intro c hc
        rcases List.mem_cons.mp hc with rfl | hc
        · exact hm.2 (k, w) (by simp)
        · rcases Memory.mem_write hc with hc | hc
          · exact (Memory.mem_cell hc).2
          · exact hm'.2 c hc

theorem Memory.wf_writeBytes {m : Memory} (hm : m.wf) (a : Nat) (bs : List Byte) : (m.writeBytes a bs).wf := by
  induction bs generalizing m a with
  | nil => exact hm
  | cons b bs ih => exact ih (Memory.wf_write hm a b) (a + 1)

/-- A read after a run of bytes is written: the run's byte inside it, every other byte as before. -/
theorem Memory.read_writeBytes {m : Memory} (hm : m.wf) (a b : Nat) (bs : List Byte) :
    (m.writeBytes a bs).read b = if a ≤ b ∧ b < a + bs.length then bs.getD (b - a) 0 else m.read b := by
  induction bs generalizing m a with
  | nil =>
    rw [if_neg (by simp)]
    rfl
  | cons v bs ih =>
    rw [Memory.writeBytes, ih (Memory.wf_write hm a v), Memory.read_write hm]
    simp only [List.length_cons]
    by_cases h1 : a + 1 ≤ b ∧ b < a + 1 + bs.length
    · rw [if_pos h1, if_pos (by omega), show b - a = b - (a + 1) + 1 by omega]
      rfl
    · by_cases h2 : a = b
      · subst h2
        rw [if_neg h1, if_pos rfl, if_pos (by omega)]
        simp
      · rw [if_neg h1, if_neg h2, if_neg (by omega)]

theorem Memory.length_readBytes (m : Memory) (a n : Nat) : (m.readBytes a n).length = n := by
  simp [Memory.readBytes]

end Sys2Proof.Machine
end

