-- ==== Sys2Proof/Laws/Ops.lean ====
section
/-! SUPPORT. The laws of the block's shared operations: what each can do, said once. -/

namespace Sys2Proof.Machine

/-- What an operation inside a request may do to the registers: nothing to those of the request's end (`phase`, `quirk`,
`fault`, `results`), nothing to the configuration and the caller's requests; the logs only grow. -/
def worked (s t : State) : Prop :=
  t.cfg = s.cfg ∧ t.oracle = s.oracle ∧ t.requests = s.requests ∧ t.phase = s.phase ∧ t.quirk = s.quirk ∧
  t.fault = s.fault ∧ t.results = s.results ∧ s.diag <+: t.diag ∧ s.trace <+: t.trace ∧
  s.engine.wave <+: t.engine.wave

theorem worked_refl (s : State) : worked s s := by simp [worked]

theorem worked_trans {s t u : State} (h : worked s t) (h' : worked t u) : worked s u := by
  obtain ⟨h1, h2, h3, h4, h5, h6, h7, h8, h9, h10⟩ := h
  obtain ⟨k1, k2, k3, k4, k5, k6, k7, k8, k9, k10⟩ := h'
  exact ⟨k1.trans h1, k2.trans h2, k3.trans h3, k4.trans h4, k5.trans h5, k6.trans h6, k7.trans h7, h8.trans k8,
    h9.trans k9, h10.trans k10⟩

theorem worked_of_engineOnly {s t : State} (h : engineOnly s t) (hw : s.engine.wave <+: t.engine.wave) :
    worked s t := by
  obtain ⟨⟨h1, h2, h3, -, h4, h5, h6, h7, -, h8, h9⟩, -⟩ := h
  exact ⟨h1, h2, h3, h4, h5, h6, h9, h7 ▸ List.prefix_refl _, h8 ▸ List.prefix_refl _, hw⟩

/-! ### The waveform only grows -/

theorem clock_wave_prefix (levels : List (Bool × Bool)) (s : State) :
    s.engine.wave <+: (clock levels s).2.engine.wave := by
  obtain ⟨ps, h, -⟩ := clock_engine levels s
  simp [h]

theorem clockCaptureBits_wave_prefix (m : Nat) (levels : List (Bool × Bool)) (s : State) :
    s.engine.wave <+: (clockCaptureBits m levels s).engine.wave := by
  obtain ⟨ps, fill, k, h, -⟩ := clockCaptureBits_engine m levels s
  simp [h]

theorem clockCaptureBytes_wave_prefix (c : Nat) (levels : List (Bool × Bool)) (s : State) :
    s.engine.wave <+: (clockCaptureBytes c levels s).engine.wave := by
  obtain ⟨ps, h, -⟩ := clockCaptureBytes_engine c levels s
  simp [h]

theorem execFrame_wave_prefix {i : Instr} {s t : State} (h : execFrame i s = .next t) :
    s.engine.wave <+: t.engine.wave := by
  cases i <;> cases h <;>
    first
    | exact clock_wave_prefix _ s
    | exact clockCaptureBits_wave_prefix _ _ s
    | exact clockCaptureBytes_wave_prefix _ _ s
    | exact List.prefix_refl _

theorem finishTransfer_wave (s : State) : (finishTransfer s).engine.wave = s.engine.wave := by
  obtain ⟨bs, k, inbox, captured, h⟩ := finishTransfer_engine s
  rw [h]

theorem catchUpFor_wave_prefix (fuel : Nat) (s : State) : s.engine.wave <+: (catchUpFor fuel s).engine.wave := by
  induction fuel generalizing s with
  | zero => exact List.prefix_refl _
  | succ fuel ih =>
    unfold catchUpFor
    split
    · exact List.prefix_refl _
    · split
      · next t h =>
        refine List.IsPrefix.trans ?_ (ih t)
        rcases frameStep_next h with ⟨-, rfl⟩ | ⟨i, rest, u, -, hu, rfl⟩
        · rw [finishTransfer_wave]
        · rw [finishTransfer_wave]
          exact (execFrame_wave_prefix hu : (setInbox _ s).engine.wave <+: _)
      · exact List.prefix_refl _
      · exact List.prefix_refl _

theorem catchUp_wave_prefix (s : State) : s.engine.wave <+: (catchUp s).engine.wave := catchUpFor_wave_prefix _ s

theorem loseEngine_wave_prefix (s : State) : s.engine.wave <+: (loseEngine s).engine.wave :=
  List.prefix_append s.engine.wave _

/-! ### The engine's answers -/

theorem configureAnswer_state (pinCfg clockHz : Nat) (s : State) :
    ∃ oks, (configureAnswer pinCfg clockHz s).2 = s.setInputs { s.inputs with configure := oks } := by
  unfold configureAnswer
  split
  · exact ⟨_, rfl⟩
  · split
    · exact ⟨s.inputs.configure, rfl⟩
    · exact ⟨s.inputs.configure, rfl⟩

theorem settlePins_engineOnly (ok : Bool) (s : State) : engineOnly s (settlePins ok s) := by
  unfold settlePins
  split
  · exact engineOnly_refl s
  · dsimp only
    split
    · exact engineOnly_trans (drawPins_engineOnly s) (setEngine_engineOnly _ _)
    · exact drawPins_engineOnly s

theorem settlePins_wave (ok : Bool) (s : State) : (settlePins ok s).engine.wave = s.engine.wave := by
  unfold settlePins
  split
  · rfl
  · dsimp only
    split <;> rfl

/-- `configure` leaves the block alone and makes no pulse. -/
theorem callConfigure_state (pinCfg clockHz : Nat) (s : State) :
    leavesBlock s (callConfigure pinCfg clockHz s).2 ∧
    (callConfigure pinCfg clockHz s).2.engine.wave = s.engine.wave ∧
    (callConfigure pinCfg clockHz s).2.inputs.identity = s.inputs.identity := by
  obtain ⟨oks, h⟩ := configureAnswer_state pinCfg clockHz s
  have hs := settlePins_engineOnly (configureAnswer pinCfg clockHz s).1 (configureAnswer pinCfg clockHz s).2
  have hw := settlePins_wave (configureAnswer pinCfg clockHz s).1 (configureAnswer pinCfg clockHz s).2
  rw [h] at hs hw
  refine ⟨?_, ?_, ?_⟩
  · refine leavesBlock_trans (t := s.setInputs { s.inputs with configure := oks }) (by simp [leavesBlock]) ?_
    simpa [callConfigure, h] using hs.1
  · simp [callConfigure, h, hw]
  · simp [callConfigure, h, hs.2.2.1]

/-- `device_identity` leaves the block and the engine alone. -/
theorem callIdentity_leavesBlock (s : State) :
    leavesBlock s (callIdentity s).2 ∧ (callIdentity s).2.engine = s.engine := by
  unfold callIdentity
  split
  · exact ⟨by simp [leavesBlock], rfl⟩
  · split
    · exact ⟨leavesBlock_refl s, rfl⟩
    · exact ⟨leavesBlock_refl s, rfl⟩

/-- Asking for a flush's answer uses at most a scripted one. -/
theorem flushAnswer_state (n : Nat) (s : State) :
    ∃ fs, (flushAnswer n s).2 = s.setInputs { s.inputs with flush := fs } := by
  unfold flushAnswer
  split
  · exact ⟨_, rfl⟩
  · split
    · exact ⟨s.inputs.flush, rfl⟩
    · exact ⟨s.inputs.flush, rfl⟩

theorem deliver_engineOnly (bs : List Byte) (r : Int) (s : State) : engineOnly s (deliver bs r s) := by
  unfold deliver
  split
  · exact engineOnly_refl s
  · split
    · exact setInbox_engineOnly _ s
    · exact engineOnly_trans (catchUp_engineOnly s) (loseEngine_engineOnly _)

theorem deliver_wave_prefix (bs : List Byte) (r : Int) (s : State) :
    s.engine.wave <+: (deliver bs r s).engine.wave := by
  unfold deliver
  split
  · exact List.prefix_refl _
  · split
    · exact List.prefix_refl _
    · exact (catchUp_wave_prefix s).trans (loseEngine_wave_prefix _)

/-- All that a call of `flush()` does to the block: `pending` is empty and the flush is recorded. -/
theorem callFlush_state (s : State) :
    let t := (callFlush s).2
    worked s t ∧ t.mem = s.mem ∧ t.diag = s.diag ∧ t.pending = [] ∧
    t.trace = s.trace ++ [.flush s.pending.length (callFlush s).1] ∧ t.inputs.read = s.inputs.read := by
  obtain ⟨fs, hf⟩ := flushAnswer_state s.pending.length s
  have hd := deliver_engineOnly s.pending (flushAnswer s.pending.length s).1 (flushAnswer s.pending.length s).2
  have hw := deliver_wave_prefix s.pending (flushAnswer s.pending.length s).1 (flushAnswer s.pending.length s).2
  rw [hf] at hd hw
  obtain ⟨⟨h1, h2, h3, h4, h5, h6, h7, h8, h9, h10, h11⟩, h12, h13, h14, h15⟩ := hd
  simp only [State.setInputs_cfg, State.setInputs_oracle, State.setInputs_requests, State.setInputs_mem,
    State.setInputs_phase, State.setInputs_quirk, State.setInputs_fault, State.setInputs_diag,
    State.setInputs_pending, State.setInputs_trace, State.setInputs_results, State.setInputs_inputs,
    State.setInputs_engine] at h1 h2 h3 h4 h5 h6 h7 h8 h9 h10 h11 h15 hw
  simp [callFlush, worked, hf, h1, h2, h3, h4, h5, h6, h7, h8, h10, h11, h15, hw]

/-- With the reference engine and no scripted answer a flush returns the number of bytes pending. -/
theorem callFlush_reference {s : State} (h : flushesSucceed s) : (callFlush s).1 = (s.pending.length : Int) := by
  simp [callFlush, flushAnswer, h.1, h.2]

/-- And it stays so. -/
theorem callFlush_flushesSucceed {s : State} (h : flushesSucceed s) : flushesSucceed (callFlush s).2 := by
  have hd := deliver_engineOnly s.pending (s.pending.length : Int) s
  simp only [flushesSucceed, callFlush, flushAnswer, h.1, h.2]
  simp [hd.1.2.1, h.1, hd.2.2.2.1, h.2]

/-- A read delivers at most the bytes it was asked for (20_memory.md R59). -/
theorem length_le_of_cutAnswer {n : Nat} {a : ReadAnswer} {bs : List Byte} (h : cutAnswer n a = some bs) :
    bs.length ≤ n := by
  unfold cutAnswer at h
  rw [Option.map_eq_some_iff] at h
  obtain ⟨cs, -, rfl⟩ := h
  simp

theorem settledEngine_wave (a : ReadAnswer) (s : State) : (settledEngine a s).wave = s.engine.wave := by
  unfold settledEngine
  split
  · split <;> rfl
  · rfl

theorem settleResponses_engineOnly (a : ReadAnswer) (s : State) : engineOnly s (settleResponses a s) := by
  unfold settleResponses
  split
  · exact engineOnly_refl s
  · exact setEngine_engineOnly s _

theorem settleResponses_wave (a : ReadAnswer) (s : State) : (settleResponses a s).engine.wave = s.engine.wave := by
  unfold settleResponses
  split
  · rfl
  · exact settledEngine_wave a s

theorem readyToRead_engineOnly (s : State) : engineOnly s (readyToRead s) := by
  unfold readyToRead
  split
  · exact engineOnly_refl s
  · exact catchUp_engineOnly s

theorem readyToRead_wave_prefix (s : State) : s.engine.wave <+: (readyToRead s).engine.wave := by
  unfold readyToRead
  split
  · exact List.prefix_refl _
  · exact catchUp_wave_prefix s

/-- All that a call of `read(n)` does to the block: nothing; and of the scripted answers it uses at most its own. -/
theorem callRead_state (n : Nat) (s : State) :
    leavesBlock s (callRead n s).2 ∧ (callRead n s).2.inputs.flush = s.inputs.flush ∧
    s.engine.wave <+: (callRead n s).2.engine.wave ∧
    ∀ a coming, s.inputs.read = a :: coming →
      (callRead n s).1 = cutAnswer n a ∧ (callRead n s).2.inputs.read = coming := by
  have hr := readyToRead_engineOnly s
  have hw := readyToRead_wave_prefix s
  unfold callRead
  dsimp only
  split
  · next a coming ha =>
    have hs := settleResponses_engineOnly (cutAnswer n a)
      ((readyToRead s).setInputs { (readyToRead s).inputs with read := coming })
    refine ⟨leavesBlock_trans hr.1 (leavesBlock_trans (by simp [leavesBlock]) hs.1), ?_, ?_, ?_⟩
    · rw [hs.2.2.2.1]
      exact hr.2.2.2.1
    · rw [settleResponses_wave]
      exact hw
    · intro a' coming' h
      rw [hr.2.2.2.2, h] at ha
      cases ha
      exact ⟨rfl, by rw [hs.2.2.2.2]; rfl⟩
  · next ha =>
    have hn : ∀ a coming, s.inputs.read ≠ a :: coming := by
      intro a coming h
      rw [hr.2.2.2.2, h] at ha
      cases ha
    split
    · exact ⟨leavesBlock_trans hr.1 (consumeResponses_engineOnly n _).1, hr.2.2.2.1, hw, fun a c h => absurd h (hn a c)⟩
    · split
      · exact ⟨hr.1, hr.2.2.2.1, hw, fun a c h => absurd h (hn a c)⟩
      · exact ⟨leavesBlock_trans hr.1 (forgetResponses_engineOnly _).1, hr.2.2.2.1, hw,
          fun a c h => absurd h (hn a c)⟩

/-! ### The primitives (20_memory.md) -/

theorem enq_worked (bs : List Byte) (s : State) : worked s (enq bs s) := by
  simp [worked, enq]

/-- `Flush` with nothing pending does nothing (R58). -/
theorem flush_nil {s : State} (h : s.pending = []) : flush s = .ok () s := by
  rw [flush, if_pos h]

theorem flush_of_ne {s : State} (h : s.pending ≠ []) :
    flush s = if (callFlush s).1 = (s.pending.length : Int) then .ok () (callFlush s).2
      else .err (.transportFailure (.flush s.pending.length (callFlush s).1)) (callFlush s).2 := by
  rw [flush, if_neg h]

theorem flush_cases (s : State) :
    (s.pending = [] ∧ flush s = .ok () s) ∨
    (s.pending ≠ [] ∧ (callFlush s).1 = (s.pending.length : Int) ∧ flush s = .ok () (callFlush s).2) ∨
    (s.pending ≠ [] ∧ (callFlush s).1 ≠ (s.pending.length : Int) ∧
      flush s = .err (.transportFailure (.flush s.pending.length (callFlush s).1)) (callFlush s).2) := by
  by_cases h : s.pending = []
  · exact .inl ⟨h, flush_nil h⟩
  · by_cases h' : (callFlush s).1 = (s.pending.length : Int)
    · exact .inr (.inl ⟨h, h', by rw [flush_of_ne h, if_pos h']⟩)
    · exact .inr (.inr ⟨h, h', by rw [flush_of_ne h, if_neg h']⟩)

/-- All that `Flush` does to the registers, however it ends. -/
theorem flush_state (s : State) :
    worked s (flush s).state ∧ (flush s).state.mem = s.mem ∧ (flush s).state.diag = s.diag ∧
    (flush s).state.pending = [] ∧ (flush s).state.inputs.read = s.inputs.read := by
  obtain ⟨h1, h2, h3, h4, -, h5⟩ := callFlush_state s
  rcases flush_cases s with ⟨h, e⟩ | ⟨-, -, e⟩ | ⟨-, -, e⟩ <;> rw [e]
  · exact ⟨worked_refl s, rfl, rfl, h, rfl⟩
  · exact ⟨h1, h2, h3, h4, h5⟩
  · exact ⟨h1, h2, h3, h4, h5⟩

theorem andThen_worked {α β : Type} {r : Res α} {f : α → State → Res β} {s : State} (h : worked s r.state)
    (hf : ∀ a t, r = .ok a t → worked t (f a t).state) : worked s (r.andThen f).state := by
  cases r with
  | ok a t => exact worked_trans h (hf a t rfl)
  | err e t => exact h

/-- A capture read (R60): recorded; it succeeds exactly when it answers every byte. -/
theorem captureRead_state (n : Nat) (s : State) :
    ∃ a t, t.trace = s.trace ++ [.read n a] ∧ worked s t ∧ t.mem = s.mem ∧ t.diag = s.diag ∧ t.pending = s.pending ∧
      t.inputs.flush = s.inputs.flush ∧
      (∀ b coming, s.inputs.read = b :: coming → a = cutAnswer n b ∧ t.inputs.read = coming) ∧
      captureRead n s =
        match a with
        | some bs => if bs.length = n then .ok bs t else .err (.transportFailure (.read n a)) t
        | none => .err (.transportFailure (.read n a)) t := by
  obtain ⟨⟨h1, h2, h3, h4, h5, h6, h7, h8, h9, h10, h11⟩, h12, h13, h14⟩ := callRead_state n s
  refine ⟨(callRead n s).1, (callRead n s).2.record (.read n (callRead n s).1), ?_, ?_, h4, h8, h9, h12, h14, rfl⟩
  · simp [h10]
  · exact ⟨h1, h2, h3, h5, h6, h7, h11, h8 ▸ List.prefix_refl _, by simp [h10], h13⟩

/-- A drain's read (R61): recorded; a short or failed one is a diagnostic. -/
theorem drainRead_state (n : Nat) (s : State) :
    ∃ a, (drainRead n s).trace = s.trace ++ [.drain n a] ∧
      (drainRead n s).diag = s.diag ++ (if answersAll n a then [] else [.quirkDrainFailure n a]) ∧
      worked s (drainRead n s) ∧ (drainRead n s).mem = s.mem ∧ (drainRead n s).pending = s.pending ∧
      (drainRead n s).inputs.flush = s.inputs.flush := by
  obtain ⟨⟨h1, h2, h3, h4, h5, h6, h7, h8, h9, h10, h11⟩, h12, h13, -⟩ := callRead_state n s
  refine ⟨(callRead n s).1, ?_⟩
  unfold drainRead
  dsimp only
  split
  · simp [worked, h1, h2, h3, h4, h5, h6, h7, h8, h9, h10, h11, h12, h13]
  · simp [worked, h1, h2, h3, h4, h5, h6, h7, h8, h9, h10, h11, h12, h13]

theorem drain_worked (n : Nat) (s : State) : worked s (drain n s).state :=
  andThen_worked (flush_state s).1 fun _ t _ => by
    obtain ⟨a, -, -, h, -⟩ := drainRead_state n t
    exact h

theorem readBack_worked (n : Nat) (s : State) : worked s (readBack n s).state :=
  andThen_worked (flush_state s).1 fun _ t _ => by
    obtain ⟨a, u, -, h, -, -, -, -, -, e⟩ := captureRead_state n t
    rw [e]
    split
    · split <;> exact h
    · exact h

theorem writeDone_worked (n : Nat) (s : State) : worked s (writeDone n s).state := by
  unfold writeDone
  split
  · exact drain_worked n s
  · exact (flush_state s).1

/-! ### The end of a request (60_exceptions.md) -/

/-- What the end of a request writes: the outcome, and for a fatal error the fault record and the phase. -/
theorem finish_ok (v : OkValue) (s : State) : finish (.ok v s) = s.addResult (.ok v) := rfl

theorem finish_err (e : BlockError) (s : State) : finish (.err e s) = raise e s := rfl

theorem loseTrack_engineOnly (s : State) : engineOnly s (loseTrack s) := by
  unfold loseTrack
  split
  · exact engineOnly_refl s
  · split
    · exact engineOnly_trans (catchUp_engineOnly s) (loseEngine_engineOnly _)
    · exact engineOnly_refl s

theorem engineAfter_engineOnly (e : BlockError) (s : State) : engineOnly s (engineAfter e s) := by
  cases e
  · exact loseTrack_engineOnly s
  · exact engineOnly_refl s

theorem engineAfter_wave_prefix (e : BlockError) (s : State) :
    s.engine.wave <+: (engineAfter e s).engine.wave := by
  cases e
  · rw [engineAfter, loseTrack]
    split
    · exact List.prefix_refl _
    · split
      · exact (catchUp_wave_prefix s).trans (loseEngine_wave_prefix _)
      · exact List.prefix_refl _
  · exact List.prefix_refl _

/-- After a transport failure the reference engine's state is not known (70_reset_and_hazards.md R215). -/
theorem engineAfter_sync {info : TransportInfo} {s : State} (h : s.oracle = .reference) :
    (engineAfter (.transportFailure info) s).engine.sync = false := by
  simp only [engineAfter, loseTrack, h]
  split
  · rfl
  · next hs => simpa using hs

@[simp] theorem raise_cfg (e : BlockError) (s : State) : (raise e s).cfg = s.cfg := (engineAfter_engineOnly e s).1.1
@[simp] theorem raise_oracle (e : BlockError) (s : State) : (raise e s).oracle = s.oracle :=
  (engineAfter_engineOnly e s).1.2.1
@[simp] theorem raise_requests (e : BlockError) (s : State) : (raise e s).requests = s.requests :=
  (engineAfter_engineOnly e s).1.2.2.1
@[simp] theorem raise_mem (e : BlockError) (s : State) : (raise e s).mem = s.mem :=
  (engineAfter_engineOnly e s).1.2.2.2.1
@[simp] theorem raise_phase (e : BlockError) (s : State) : (raise e s).phase = .failed := rfl
@[simp] theorem raise_quirk (e : BlockError) (s : State) : (raise e s).quirk = s.quirk :=
  (engineAfter_engineOnly e s).1.2.2.2.2.2.1
@[simp] theorem raise_diag (e : BlockError) (s : State) : (raise e s).diag = s.diag :=
  (engineAfter_engineOnly e s).1.2.2.2.2.2.2.2.1
@[simp] theorem raise_pending (e : BlockError) (s : State) : (raise e s).pending = s.pending :=
  (engineAfter_engineOnly e s).1.2.2.2.2.2.2.2.2.1
@[simp] theorem raise_trace (e : BlockError) (s : State) : (raise e s).trace = s.trace :=
  (engineAfter_engineOnly e s).1.2.2.2.2.2.2.2.2.2.1
@[simp] theorem raise_results (e : BlockError) (s : State) : (raise e s).results = s.results ++ [.err e] :=
  congrArg (· ++ [RequestResult.err e]) (engineAfter_engineOnly e s).1.2.2.2.2.2.2.2.2.2.2
@[simp] theorem raise_engine (e : BlockError) (s : State) : (raise e s).engine = (engineAfter e s).engine := rfl

theorem raise_fault (e : BlockError) (s : State) : (raise e s).fault = some (s.fault.getD e) := by
  have hf := (engineAfter_engineOnly e s).1.2.2.2.2.2.2.1
  cases h : s.fault <;> simp [raise, State.setFault, State.setPhase, State.addResult, hf, h]

end Sys2Proof.Machine
end

