-- ==== Sys2Proof/Laws/Transfers.lean ====
section
/-! SUPPORT. The laws of the engine executing transfers: a frame does not see the transfers behind it, and running all of
them is running them one after another. -/

namespace Sys2Proof.Machine

open Host (Outcome)

@[simp] theorem setInbox_inbox (b : List (List Byte)) (s : State) : (setInbox b s).engine.inbox = b := rfl

@[simp] theorem setInbox_cfg (b : List (List Byte)) (s : State) : (setInbox b s).cfg = s.cfg := rfl

@[simp] theorem setInbox_setInbox (a b : List (List Byte)) (s : State) : setInbox a (setInbox b s) = setInbox a s := rfl

theorem setInbox_self (s : State) : setInbox s.engine.inbox s = s := rfl

/-! ### A frame does not see the inbox -/

theorem sampleTdo_setInbox (tms tdi : Bool) (b : List (List Byte)) (s : State) :
    sampleTdo tms tdi (setInbox b s) = ((sampleTdo tms tdi s).1, setInbox b (sampleTdo tms tdi s).2) := by
  obtain ⟨cfg, oracle, ⟨ic, ii, ifl, ir, target, fill, chip⟩, requests, mem, phase, quirk, fault, diag, pending, trace,
    results, ⟨tp, dp, loop, gl, gh, resp, wave, inbox, captured, sync, draws⟩⟩ := s
  cases loop
  · cases target with
    | loopback => rfl
    | bits coming => cases coming <;> rfl
  · rfl

theorem pulse_setInbox (tms tdi : Bool) (b : List (List Byte)) (s : State) :
    pulse tms tdi (setInbox b s) = ((pulse tms tdi s).1, setInbox b (pulse tms tdi s).2) := by
  unfold pulse
  rw [sampleTdo_setInbox]
  rfl

theorem clock_setInbox (levels : List (Bool × Bool)) (b : List (List Byte)) (s : State) :
    clock levels (setInbox b s) = ((clock levels s).1, setInbox b (clock levels s).2) := by
  induction levels generalizing s with
  | nil => rfl
  | cons l levels ih => simp only [clock, pulse_setInbox, ih]

theorem drawFill_setInbox (b : List (List Byte)) (s : State) :
    drawFill (setInbox b s) = ((drawFill s).1, setInbox b (drawFill s).2) := by
  obtain ⟨cfg, oracle, ⟨ic, ii, ifl, ir, target, fill, chip⟩, requests, mem, phase, quirk, fault, diag, pending, trace,
    results, engine⟩ := s
  cases fill <;> rfl

theorem clockCaptureBits_setInbox (m : Nat) (levels : List (Bool × Bool)) (b : List (List Byte)) (s : State) :
    clockCaptureBits m levels (setInbox b s) = setInbox b (clockCaptureBits m levels s) := by
  simp only [clockCaptureBits, clock_setInbox, drawFill_setInbox]
  rfl

theorem clockCaptureBytes_setInbox (c : Nat) (levels : List (Bool × Bool)) (b : List (List Byte)) (s : State) :
    clockCaptureBytes c levels (setInbox b s) = setInbox b (clockCaptureBytes c levels s) := by
  simp only [clockCaptureBytes, clock_setInbox]
  rfl

theorem clock_inbox (levels : List (Bool × Bool)) (s : State) :
    (clock levels s).2.engine.inbox = s.engine.inbox := by
  have h := congrArg Prod.snd (clock_setInbox levels s.engine.inbox s)
  rw [setInbox_self] at h
  rw [h, setInbox_inbox]

theorem clockCaptureBits_inbox (m : Nat) (levels : List (Bool × Bool)) (s : State) :
    (clockCaptureBits m levels s).engine.inbox = s.engine.inbox := by
  have h := clockCaptureBits_setInbox m levels s.engine.inbox s
  rw [setInbox_self] at h
  rw [h, setInbox_inbox]

theorem clockCaptureBytes_inbox (c : Nat) (levels : List (Bool × Bool)) (s : State) :
    (clockCaptureBytes c levels s).engine.inbox = s.engine.inbox := by
  have h := clockCaptureBytes_setInbox c levels s.engine.inbox s
  rw [setInbox_self] at h
  rw [h, setInbox_inbox]

/-- A frame that completes does the same whatever the engine still has to execute. -/
theorem execFrame_setInbox {i : Instr} {s t : State} (h : execFrame i s = .next t) (b : List (List Byte)) :
    execFrame i (setInbox b s) = .next (setInbox b t) := by
  cases i <;> cases h
  · exact congrArg Outcome.next (congrArg Prod.snd (clock_setInbox _ b s))
  · exact congrArg Outcome.next (clockCaptureBits_setInbox _ _ b s)
  · exact congrArg Outcome.next (congrArg Prod.snd (clock_setInbox _ b s))
  · exact congrArg Outcome.next (clockCaptureBytes_setInbox _ _ b s)
  · exact congrArg Outcome.next (clockCaptureBytes_setInbox _ _ b s)
  · exact congrArg Outcome.next (congrArg Prod.snd (clock_setInbox _ b s))
  · exact congrArg Outcome.next (clockCaptureBits_setInbox _ _ b s)
  · exact congrArg Outcome.next (clockCaptureBits_setInbox _ _ b s)
  · exact congrArg Outcome.next (congrArg Prod.snd (clock_setInbox _ b s))
  · exact congrArg Outcome.next (congrArg Prod.snd (clock_setInbox _ b s))
  · rfl
  · rfl
  · rfl

/-- A frame that completes leaves the transfers behind it. -/
theorem execFrame_inbox {i : Instr} {s t : State} (h : execFrame i s = .next t) : t.engine.inbox = s.engine.inbox := by
  have h' := execFrame_setInbox h s.engine.inbox
  rw [setInbox_self, h, Outcome.next.injEq] at h'
  rw [h', setInbox_inbox]

/-! ### The end of a transfer -/

theorem finishTransfer_of_cons {s : State} {b : Byte} {bs : List Byte} {ts : List (List Byte)}
    (h : s.engine.inbox = (b :: bs) :: ts) : finishTransfer s = s := by
  simp only [finishTransfer, h]

theorem finishTransfer_inbox {s : State} {ts : List (List Byte)} (h : s.engine.inbox = [] :: ts) :
    (finishTransfer s).engine.inbox = ts := by simp only [finishTransfer, h, State.setEngine_engine]

theorem drawChipResponses_setInbox (b : List (List Byte)) (s : State) :
    drawChipResponses (setInbox b s) = setInbox b (drawChipResponses s) := by
  obtain ⟨cfg, oracle, ⟨ic, ii, ifl, ir, target, fill, chip⟩, requests, mem, phase, quirk, fault, diag, pending, trace,
    results, engine⟩ := s
  cases chip <;> rfl

/-- The end of a transfer is the same whatever transfers come behind it. -/
theorem finishTransfer_append {s : State} (h : s.engine.inbox ≠ []) (more : List (List Byte)) :
    finishTransfer (setInbox (s.engine.inbox ++ more) s) =
      setInbox ((finishTransfer s).engine.inbox ++ more) (finishTransfer s) := by
  match hi : s.engine.inbox with
  | [] => exact absurd hi h
  | (b :: bs) :: ts => rw [finishTransfer_of_cons hi, finishTransfer_of_cons (by rfl), hi]
  | [] :: ts =>
    rw [finishTransfer_inbox hi]
    simp only [finishTransfer, hi, setInbox_inbox, List.cons_append, drawChipResponses_setInbox]
    by_cases hq : (s.cfg.quirkedChip && !s.engine.captured) = true
    · have hq' : ((setInbox ([] :: (ts ++ more)) s).cfg.quirkedChip
          && !(setInbox ([] :: (ts ++ more)) s).engine.captured) = true := hq
      rw [if_pos hq, if_pos hq']
      rfl
    · have hq' : ¬ ((setInbox ([] :: (ts ++ more)) s).cfg.quirkedChip
          && !(setInbox ([] :: (ts ++ more)) s).engine.captured) = true := hq
      rw [if_neg hq, if_neg hq']
      rfl

/-! ### A move of the engine -/

theorem takeNat_length {k v : Nat} {bs rest : List Byte} (h : takeNat k bs = some (v, rest)) :
    rest.length ≤ bs.length := by
  rw [← (takeNat_some h).2, List.length_append]
  omega

theorem takeBit_length {b : Bool} {bs rest : List Byte} (h : takeBit bs = some (b, rest)) : rest.length ≤ bs.length := by
  rw [← takeBit_some h, List.length_cons]
  omega

theorem takeByte_length {b : Byte} {bs rest : List Byte} (h : takeByte bs = some (b, rest)) :
    rest.length ≤ bs.length := by
  rw [← takeByte_some h, List.length_cons]
  omega

theorem takeBytes_length {n : Nat} {xs bs rest : List Byte} (h : takeBytes n bs = some (xs, rest)) :
    rest.length ≤ bs.length := by
  rw [← (takeBytes_some h).2, List.length_append]
  omega

theorem takeBuf_length {b : Buf} {bs rest : List Byte} (h : takeBuf bs = some (b, rest)) : rest.length ≤ bs.length := by
  rw [← (takeBuf_some h).2, List.length_append]
  omega

theorem takeOptBuf_length {o : Option Buf} {bs rest : List Byte} (h : takeOptBuf bs = some (o, rest)) :
    rest.length ≤ bs.length := by
  rw [← (takeOptBuf_some h).2, List.length_append]
  omega

theorem takeBitCount_length {top m : Nat} {bs rest : List Byte} (h : takeBitCount top bs = some (m, rest)) :
    rest.length ≤ bs.length := by
  rw [← (takeBitCount_some h).2.2, List.length_cons]
  omega

theorem takeByteCount_length {c : Nat} {bs rest : List Byte} (h : takeByteCount bs = some (c, rest)) :
    rest.length ≤ bs.length := by
  rw [← (takeByteCount_some h).2.2, List.length_append]
  omega

/-- The fields of an instruction are read off the front: what is left is no longer than what was there. -/
theorem decodeFields_length {neg : Bool} {bs rest : List Byte} {kind : OpKind} {i : Instr}
    (h : decodeFields neg bs kind = some (i, rest)) : rest.length ≤ bs.length := by
  cases kind <;>
    simp only [decodeFields, Option.bind_eq_bind, Option.bind_eq_some_iff, Option.some.injEq, Prod.mk.injEq,
      Prod.exists] at h
  · obtain ⟨_, _, e1, _, _, e2, -, rfl⟩ := h
    exact (takeNat_length e2).trans (takeNat_length e1)
  · obtain ⟨_, _, e1, _, _, e2, -, rfl⟩ := h
    exact (takeNat_length e2).trans (takeBuf_length e1)
  · obtain ⟨_, _, e1, _, _, e2, _, _, e3, -, rfl⟩ := h
    exact ((takeNat_length e3).trans (takeBit_length e2)).trans (takeBit_length e1)
  · obtain ⟨_, _, e1, _, _, e2, _, _, e3, _, _, e4, -, rfl⟩ := h
    exact (((takeBit_length e4).trans (takeNat_length e3)).trans (takeOptBuf_length e2)).trans (takeOptBuf_length e1)
  · obtain ⟨-, rfl⟩ := h
    exact le_rfl
  · obtain ⟨_, _, e1, _, _, e2, -, rfl⟩ := h
    exact (takeByte_length e2).trans (takeBitCount_length e1)
  · obtain ⟨_, _, e1, _, _, e2, -, rfl⟩ := h
    exact (takeByte_length e2).trans (takeBitCount_length e1)
  · obtain ⟨_, _, e1, -, rfl⟩ := h
    exact takeByteCount_length e1
  · obtain ⟨_, _, e1, _, _, e2, -, rfl⟩ := h
    exact (takeBytes_length e2).trans (takeByteCount_length e1)
  · obtain ⟨_, _, e1, -, rfl⟩ := h
    exact takeByteCount_length e1
  · obtain ⟨_, _, e1, _, _, e2, -, rfl⟩ := h
    exact (takeBytes_length e2).trans (takeByteCount_length e1)
  · obtain ⟨_, _, e1, -, rfl⟩ := h
    exact takeBitCount_length e1
  · obtain ⟨_, _, e1, _, _, e2, -, rfl⟩ := h
    exact (takeByte_length e2).trans (takeBitCount_length e1)
  · obtain ⟨_, _, e1, -, rfl⟩ := h
    exact takeBitCount_length e1
  · obtain ⟨_, _, e1, _, _, e2, -, rfl⟩ := h
    exact (takeByte_length e2).trans (takeBitCount_length e1)
  · obtain ⟨_, _, e1, -, rfl⟩ := h
    exact takeByteCount_length e1
  · obtain ⟨_, _, e1, -, rfl⟩ := h
    exact takeBitCount_length e1
  · obtain ⟨_, _, e1, _, _, e2, -, rfl⟩ := h
    exact (takeByte_length e2).trans (takeByte_length e1)
  · obtain ⟨_, _, e1, _, _, e2, -, rfl⟩ := h
    exact (takeByte_length e2).trans (takeByte_length e1)
  · obtain ⟨-, rfl⟩ := h
    exact le_rfl

/-- A frame has at least one byte. -/
theorem decodeFrame_length {o : OpCodes} {bytes rest : List Byte} {i : Instr}
    (h : decodeFrame o bytes = some (i, rest)) : rest.length < bytes.length := by
  obtain ⟨op, bs, row, rfl, -, hf⟩ := decodeBy_ok (decodeFrame_some h)
  exact Nat.lt_succ_of_le (decodeFields_length hf)

/-- A frame that completes and leaves bytes behind it, or ends its transfer: what is left to execute. -/
theorem finishTransfer_size (s : State) : inboxSize (finishTransfer s).engine.inbox ≤ inboxSize s.engine.inbox := by
  match hi : s.engine.inbox with
  | [] => simp only [finishTransfer, hi, le_refl]
  | (b :: bs) :: ts => rw [finishTransfer_of_cons hi, hi]
  | [] :: ts =>
    rw [finishTransfer_inbox hi]
    simp [inboxSize]

/-- Every move of the engine leaves it less to execute. -/
theorem frameStep_size {transfer : List Byte} {transfers : List (List Byte)} {s t : State}
    (hi : s.engine.inbox = transfer :: transfers) (h : frameStep execFrame transfer transfers s = .next t) :
    inboxSize t.engine.inbox < inboxSize s.engine.inbox := by
  rcases frameStep_next h with ⟨rfl, rfl⟩ | ⟨i, rest, u, hd, hu, rfl⟩
  · rw [finishTransfer_inbox hi, hi]
    simp [inboxSize]
  · have h1 := finishTransfer_size u
    rw [execFrame_inbox hu, setInbox_inbox] at h1
    have h2 := decodeFrame_length hd
    rw [hi]
    simp only [inboxSize, List.map_cons, List.sum_cons] at h1 ⊢
    omega

/-- A move of the engine that completes is the same whatever transfers come behind. -/
theorem frameStep_append {transfer : List Byte} {transfers : List (List Byte)} {s t : State}
    (hi : s.engine.inbox = transfer :: transfers) (h : frameStep execFrame transfer transfers s = .next t)
    (more : List (List Byte)) :
    frameStep execFrame transfer (transfers ++ more) (setInbox (s.engine.inbox ++ more) s) =
      .next (setInbox (t.engine.inbox ++ more) t) := by
  have hne : s.engine.inbox ≠ [] := by rw [hi]; simp
  cases transfer with
  | nil =>
    cases h
    exact congrArg Outcome.next (finishTransfer_append hne more)
  | cons b bs =>
    rcases frameStep_next h with ⟨h0, -⟩ | ⟨i, rest, u, hd, hu, rfl⟩
    · exact absurd h0 (by simp)
    · have hu' := execFrame_setInbox hu (rest :: (transfers ++ more))
      have hbox := execFrame_inbox hu
      rw [setInbox_inbox] at hbox
      rw [setInbox_setInbox] at hu'
      have hf := finishTransfer_append (s := u) (by rw [hbox]; simp) more
      rw [hbox, List.cons_append] at hf
      simp only [frameStep, setInbox_cfg, hd, setInbox_setInbox, hu', afterFrame, hf]

/-! ### The engine executes all it has -/

theorem catchUpFor_succ_next {fuel : Nat} {transfer : List Byte} {transfers : List (List Byte)} {s t : State}
    (hi : s.engine.inbox = transfer :: transfers) (h : frameStep execFrame transfer transfers s = .next t) :
    catchUpFor (fuel + 1) s = catchUpFor fuel t := by rw [catchUpFor]; simp only [hi, h]

theorem catchUpFor_nil (fuel : Nat) {s : State} (hi : s.engine.inbox = []) : catchUpFor fuel s = s := by
  cases fuel
  · rfl
  · simp only [catchUpFor, hi]

theorem catchUpFor_stuck (fuel : Nat) {transfer : List Byte} {transfers : List (List Byte)} {s : State}
    (hi : s.engine.inbox = transfer :: transfers) (h : ∀ t, frameStep execFrame transfer transfers s ≠ .next t) :
    catchUpFor fuel s = s := by
  cases fuel with
  | zero => rfl
  | succ fuel =>
    rw [catchUpFor]
    simp only [hi]
    split
    · next t ht => exact absurd ht (h t)
    · rfl
    · rfl

/-- More moves than the engine may need change nothing. -/
theorem catchUpFor_of_le {fuel : Nat} {s : State} (h : inboxSize s.engine.inbox ≤ fuel) :
    catchUpFor fuel s = catchUp s := by
  rw [catchUp]
  generalize hn : inboxSize s.engine.inbox = n at h ⊢
  induction n using Nat.strong_induction_on generalizing s fuel with
  | _ n ih =>
    match hi : s.engine.inbox with
    | [] => rw [catchUpFor_nil _ hi, catchUpFor_nil _ hi]
    | transfer :: transfers =>
      by_cases hs : ∃ t, frameStep execFrame transfer transfers s = .next t
      · obtain ⟨t, ht⟩ := hs
        have hlt := frameStep_size hi ht
        rw [hn] at hlt
        obtain ⟨n, rfl⟩ : ∃ k, n = k + 1 := ⟨n - 1, by omega⟩
        obtain ⟨fuel, rfl⟩ : ∃ k, fuel = k + 1 := ⟨fuel - 1, by omega⟩
        rw [catchUpFor_succ_next hi ht, catchUpFor_succ_next hi ht, ih _ hlt (fuel := fuel) rfl (by omega),
          ih _ hlt (fuel := n) rfl (by omega)]
      · have hs' : ∀ t, frameStep execFrame transfer transfers s ≠ .next t := fun t ht => hs ⟨t, ht⟩
        rw [catchUpFor_stuck _ hi hs', catchUpFor_stuck _ hi hs']

/-- An engine with nothing to execute stays as it is. -/
theorem catchUp_nil {s : State} (hi : s.engine.inbox = []) : catchUp s = s := catchUpFor_nil _ hi

/-- The engine makes its next move and then all the others. -/
theorem catchUp_next {transfer : List Byte} {transfers : List (List Byte)} {s t : State}
    (hi : s.engine.inbox = transfer :: transfers) (h : frameStep execFrame transfer transfers s = .next t) :
    catchUp s = catchUp t := by
  have hlt := frameStep_size hi h
  rw [← catchUpFor_of_le (fuel := inboxSize s.engine.inbox + 1) (by omega), catchUpFor_succ_next hi h,
    catchUpFor_of_le (by omega)]

/-- An engine that stops where it is stays as it is. -/
theorem catchUp_stuck {transfer : List Byte} {transfers : List (List Byte)} {s : State}
    (hi : s.engine.inbox = transfer :: transfers) (h : ∀ t, frameStep execFrame transfer transfers s ≠ .next t) :
    catchUp s = s := catchUpFor_stuck _ hi h

/-- Transfers that come behind what an engine executes to the end are executed after it. -/
theorem catchUp_append {s : State} (h : (catchUp s).engine.inbox = []) (more : List (List Byte)) :
    catchUp (setInbox (s.engine.inbox ++ more) s) = catchUp (setInbox more (catchUp s)) := by
  generalize hn : inboxSize s.engine.inbox = n
  induction n using Nat.strong_induction_on generalizing s with
  | _ n ih =>
    match hi : s.engine.inbox with
    | [] => rw [catchUp_nil hi, List.nil_append]
    | transfer :: transfers =>
      by_cases hs : ∃ t, frameStep execFrame transfer transfers s = .next t
      · obtain ⟨t, ht⟩ := hs
        have hlt := frameStep_size hi ht
        rw [hn] at hlt
        have ha := frameStep_append hi ht more
        rw [hi] at ha
        rw [catchUp_next hi ht] at h ⊢
        rw [catchUp_next (s := setInbox (transfer :: transfers ++ more) s) rfl ha]
        exact ih _ hlt h rfl
      · rw [catchUp_stuck hi fun t ht => hs ⟨t, ht⟩, hi] at h
        exact absurd h (by simp)

/-! ### The engine does not see the block -/

/-- The block and the caller of `b` with the engine of `s` and the answers that only the engine uses. -/
def onto (b s : State) : State :=
  { b with engine := s.engine, inputs :=
      { b.inputs with target := s.inputs.target, fill := s.inputs.fill, chipResponses := s.inputs.chipResponses } }

@[simp] theorem onto_engine (b s : State) : (onto b s).engine = s.engine := rfl

@[simp] theorem onto_cfg (b s : State) : (onto b s).cfg = b.cfg := rfl

@[simp] theorem onto_onto (a b s : State) : onto a (onto b s) = onto a s := rfl

theorem onto_setInbox (b s : State) (inbox : List (List Byte)) :
    onto b (setInbox inbox s) = setInbox inbox (onto b s) := rfl

theorem onto_self (s : State) : onto s s = s := rfl

/-- A change of the block and the caller alone. -/
theorem onto_of_eq {b s : State} (he : b.engine = s.engine) (ht : b.inputs.target = s.inputs.target)
    (hf : b.inputs.fill = s.inputs.fill) (hc : b.inputs.chipResponses = s.inputs.chipResponses) : onto b s = b := by
  rw [onto, ← he, ← ht, ← hf, ← hc]

theorem sampleTdo_onto (tms tdi : Bool) (b s : State) :
    sampleTdo tms tdi (onto b s) = ((sampleTdo tms tdi s).1, onto b (sampleTdo tms tdi s).2) := by
  obtain ⟨cfg, oracle, ⟨ic, ii, ifl, ir, target, fill, chip⟩, requests, mem, phase, quirk, fault, diag, pending, trace,
    results, ⟨tp, dp, loop, gl, gh, resp, wave, inbox, captured, sync, draws⟩⟩ := s
  cases loop
  · cases target with
    | loopback => rfl
    | bits coming => cases coming <;> rfl
  · rfl

theorem pulse_onto (tms tdi : Bool) (b s : State) :
    pulse tms tdi (onto b s) = ((pulse tms tdi s).1, onto b (pulse tms tdi s).2) := by
  unfold pulse
  rw [sampleTdo_onto]
  rfl

theorem clock_onto (levels : List (Bool × Bool)) (b s : State) :
    clock levels (onto b s) = ((clock levels s).1, onto b (clock levels s).2) := by
  induction levels generalizing s with
  | nil => rfl
  | cons l levels ih => simp only [clock, pulse_onto, ih]

theorem drawFill_onto (b s : State) : drawFill (onto b s) = ((drawFill s).1, onto b (drawFill s).2) := by
  obtain ⟨cfg, oracle, ⟨ic, ii, ifl, ir, target, fill, chip⟩, requests, mem, phase, quirk, fault, diag, pending, trace,
    results, engine⟩ := s
  cases fill <;> rfl

theorem clockCaptureBits_onto (m : Nat) (levels : List (Bool × Bool)) (b s : State) :
    clockCaptureBits m levels (onto b s) = onto b (clockCaptureBits m levels s) := by
  simp only [clockCaptureBits, clock_onto, drawFill_onto]
  rfl

theorem clockCaptureBytes_onto (c : Nat) (levels : List (Bool × Bool)) (b s : State) :
    clockCaptureBytes c levels (onto b s) = onto b (clockCaptureBytes c levels s) := by
  simp only [clockCaptureBytes, clock_onto]
  rfl

/-- A frame that completes does the same to the engine whatever the block and the caller are. -/
theorem execFrame_onto {i : Instr} {s t : State} (h : execFrame i s = .next t) (b : State) :
    execFrame i (onto b s) = .next (onto b t) := by
  cases i <;> cases h
  · exact congrArg Outcome.next (congrArg Prod.snd (clock_onto _ b s))
  · exact congrArg Outcome.next (clockCaptureBits_onto _ _ b s)
  · exact congrArg Outcome.next (congrArg Prod.snd (clock_onto _ b s))
  · exact congrArg Outcome.next (clockCaptureBytes_onto _ _ b s)
  · exact congrArg Outcome.next (clockCaptureBytes_onto _ _ b s)
  · exact congrArg Outcome.next (congrArg Prod.snd (clock_onto _ b s))
  · exact congrArg Outcome.next (clockCaptureBits_onto _ _ b s)
  · exact congrArg Outcome.next (clockCaptureBits_onto _ _ b s)
  · exact congrArg Outcome.next (congrArg Prod.snd (clock_onto _ b s))
  · exact congrArg Outcome.next (congrArg Prod.snd (clock_onto _ b s))
  · rfl
  · rfl
  · rfl

theorem drawChipResponses_onto (b s : State) : drawChipResponses (onto b s) = onto b (drawChipResponses s) := by
  obtain ⟨cfg, oracle, ⟨ic, ii, ifl, ir, target, fill, chip⟩, requests, mem, phase, quirk, fault, diag, pending, trace,
    results, engine⟩ := s
  cases chip <;> rfl

theorem finishTransfer_onto {b s : State} (hc : b.cfg = s.cfg) :
    finishTransfer (onto b s) = onto b (finishTransfer s) := by
  have hb : (onto b s).cfg = s.cfg := hc
  unfold finishTransfer
  rw [onto_engine, hb]
  split
  · simp only [drawChipResponses_onto]
    split <;> rfl
  · rfl

/-- The engine's moves do not depend on the block and the caller, but for the configuration. -/
theorem catchUp_onto {b s : State} (hc : b.cfg = s.cfg) : catchUp (onto b s) = onto b (catchUp s) := by
  generalize hn : inboxSize s.engine.inbox = n
  induction n using Nat.strong_induction_on generalizing s with
  | _ n ih =>
    match hi : s.engine.inbox with
    | [] => rw [catchUp_nil (s := s) hi, catchUp_nil (s := onto b s) hi]
    | transfer :: transfers =>
      have hframe : ∀ t, frameStep execFrame transfer transfers s = .next t →
          frameStep execFrame transfer transfers (onto b s) = .next (onto b t) := by
        intro t ht
        cases transfer with
        | nil =>
          cases ht
          exact congrArg Outcome.next (finishTransfer_onto hc)
        | cons x xs =>
          rcases frameStep_next ht with ⟨h0, -⟩ | ⟨i, rest, u, hd, hu, rfl⟩
          · exact absurd h0 (by simp)
          · have hu' := execFrame_onto hu b
            have hcu : b.cfg = u.cfg := hc.trans (execFrame_engineOnly hu).1.1.symm
            rw [onto_setInbox] at hu'
            simp only [frameStep, onto_cfg, hc, hd, hu', afterFrame, finishTransfer_onto hcu]
      by_cases hs : ∃ t, frameStep execFrame transfer transfers s = .next t
      · obtain ⟨t, ht⟩ := hs
        have hlt := frameStep_size hi ht
        rw [hn] at hlt
        rw [catchUp_next hi ht, catchUp_next (s := onto b s) hi (hframe t ht)]
        exact ih _ hlt (hc.trans (frameStep_engineOnly ht).1.1.symm) rfl
      · have hs' : ∀ t, frameStep execFrame transfer transfers s ≠ .next t := fun t ht => hs ⟨t, ht⟩
        have hs'' : ∀ t, frameStep execFrame transfer transfers (onto b s) ≠ .next t := by
          intro t ht
          cases transfer with
          | nil => exact hs' _ rfl
          | cons x xs =>
            rcases frameStep_next ht with ⟨h0, -⟩ | ⟨i, rest, u, hd, hu, rfl⟩
            · exact absurd h0 (by simp)
            · have hu' := execFrame_onto hu s
              rw [onto_setInbox, onto_onto, onto_self] at hu'
              exact hs' (finishTransfer (onto s u)) (by
                rw [onto_cfg, hc] at hd
                simp only [frameStep, hd, hu', afterFrame])
        rw [catchUp_stuck hi hs', catchUp_stuck (s := onto b s) hi hs'']

end Sys2Proof.Machine
end

