-- ==== Sys2Proof/Laws/EngineRuns.lean ====
section
/-! SUPPORT. The laws of the block and the reference engine together: what the engine will have executed once it has
caught up, before and after each call of the block. -/

namespace Sys2Proof.Machine

open Host (Outcome)

/-! ### Whether the engine's state is known -/

theorem execFrame_sync {i : Instr} {s t : State} (h : execFrame i s = .next t) : t.engine.sync = s.engine.sync := by
  have hclock : ∀ levels, (clock levels s).2.engine.sync = s.engine.sync := fun levels => by
    obtain ⟨ps, h, -⟩ := clock_engine levels s
    rw [h]
  have hbits : ∀ m levels, (clockCaptureBits m levels s).engine.sync = s.engine.sync := fun m levels => by
    obtain ⟨ps, fill, k, h, -⟩ := clockCaptureBits_engine m levels s
    rw [h]
  have hbytes : ∀ c levels, (clockCaptureBytes c levels s).engine.sync = s.engine.sync := fun c levels => by
    obtain ⟨ps, h, -⟩ := clockCaptureBytes_engine c levels s
    rw [h]
  cases i <;> cases h <;> first | exact hclock _ | exact hbits _ _ | exact hbytes _ _ | rfl

theorem finishTransfer_sync (s : State) : (finishTransfer s).engine.sync = s.engine.sync := by
  obtain ⟨bs, k, inbox, captured, h⟩ := finishTransfer_engine s
  rw [h]

theorem frameStep_sync {transfer : List Byte} {transfers : List (List Byte)} {s t : State}
    (h : frameStep execFrame transfer transfers s = .next t) : t.engine.sync = s.engine.sync := by
  rcases frameStep_next h with ⟨-, rfl⟩ | ⟨i, rest, u, -, hu, rfl⟩
  · exact finishTransfer_sync s
  · rw [finishTransfer_sync, execFrame_sync hu]
    rfl

/-- Executing frames leaves the engine as known as it was. -/
theorem catchUp_sync (s : State) : (catchUp s).engine.sync = s.engine.sync := by
  generalize hn : inboxSize s.engine.inbox = n
  induction n using Nat.strong_induction_on generalizing s with
  | _ n ih =>
    match hi : s.engine.inbox with
    | [] => rw [catchUp_nil hi]
    | transfer :: transfers =>
      by_cases hs : ∃ t, frameStep execFrame transfer transfers s = .next t
      · obtain ⟨t, ht⟩ := hs
        have hlt := frameStep_size hi ht
        rw [hn] at hlt
        rw [catchUp_next hi ht, ih _ hlt t rfl, frameStep_sync ht]
      · rw [catchUp_stuck hi fun t ht => hs ⟨t, ht⟩]

/-- The reference engine answers, its state is known, and it can execute all it has received. -/
def engineRuns (s : State) : Prop :=
  s.oracle = .reference ∧ s.engine.sync = true ∧ (catchUp s).engine.inbox = []

/-- The engine of `t`, and the answers that only the engine uses, are those of `s`. -/
def sameEngine (s t : State) : Prop :=
  t.engine = s.engine ∧ t.inputs.target = s.inputs.target ∧ t.inputs.fill = s.inputs.fill ∧
  t.inputs.chipResponses = s.inputs.chipResponses

/-- A change of the block and the caller alone changes nothing of what the engine will have executed. -/
theorem catchUp_sameEngine {s t : State} (h : sameEngine s t) (hc : t.cfg = s.cfg) :
    catchUp t = onto t (catchUp s) := by
  obtain ⟨h1, h2, h3, h4⟩ := h
  rw [← catchUp_onto hc, onto_of_eq h1 h2 h3 h4]

theorem engineRuns_sameEngine {s t : State} (h : sameEngine s t) (hc : t.cfg = s.cfg) (ho : t.oracle = s.oracle)
    (hr : engineRuns s) : engineRuns t :=
  ⟨ho.trans hr.1, (congrArg Engine.sync h.1).trans hr.2.1, by rw [catchUp_sameEngine h hc]; exact hr.2.2⟩

/-- The scripted answers that a flush leaves are those that only the engine uses. -/
theorem flushAnswer_sameEngine (n : Nat) (s : State) : sameEngine s (flushAnswer n s).2 := by
  obtain ⟨fs, h⟩ := flushAnswer_state n s
  rw [h]
  exact ⟨rfl, rfl, rfl, rfl⟩

/-- A flush that succeeds: once the engine has caught up it has executed, after all it had before, the bytes that were
pending. -/
theorem callFlush_runs {s : State} (h : engineRuns s) (hr : (callFlush s).1 = (s.pending.length : Int)) :
    catchUp (callFlush s).2 = onto (callFlush s).2 (catchUp (setInbox [s.pending] (catchUp s))) ∧
    (callFlush s).2.engine.sync = true ∧ (callFlush s).2.oracle = .reference := by
  obtain ⟨ho, hs, hb⟩ := h
  obtain ⟨fs, hf⟩ := flushAnswer_state s.pending.length s
  have hr' : (flushAnswer s.pending.length s).1 = (s.pending.length : Int) := hr
  have ht : (callFlush s).2 = ((((setInbox (s.engine.inbox ++ [s.pending]) s).setInputs
      { s.inputs with flush := fs }).record (.flush s.pending.length s.pending.length)).setPending []) := by
    simp only [callFlush, hr', hf, deliver, State.setInputs_oracle, State.setInputs_engine, ho, hs, and_self, if_true]
    rfl
  have hsame : sameEngine (setInbox (s.engine.inbox ++ [s.pending]) s) (callFlush s).2 := by
    rw [ht]
    exact ⟨rfl, rfl, rfl, rfl⟩
  refine ⟨?_, ?_, ?_⟩
  · rw [catchUp_sameEngine hsame (by rw [ht]; rfl), catchUp_append hb]
  · rw [ht]
    exact hs
  · rw [ht]
    exact ho

/-- What a read leaves of an engine that has caught up: its responses and the counter of its draws may have moved, and
nothing else. -/
theorem callRead_runs (n : Nat) {s : State} (h : engineRuns s) :
    let t := (callRead n s).2
    ∃ resp k, t.engine = { (catchUp s).engine with resp := resp, draws := k } ∧
      t.inputs.target = (catchUp s).inputs.target ∧ t.inputs.fill = (catchUp s).inputs.fill ∧
      t.inputs.chipResponses = (catchUp s).inputs.chipResponses ∧ engineRuns t ∧ catchUp t = t := by
  obtain ⟨ho, hs, hb⟩ := h
  have hready : readyToRead s = catchUp s := by simp only [readyToRead, ho]
  have ho' : (catchUp s).oracle = .reference := (catchUp_engineOnly s).1.2.1.trans ho
  have hsync : (catchUp s).engine.sync = true := (catchUp_sync s).trans hs
  have key : ∀ t : State, (∃ resp k, t.engine = { (catchUp s).engine with resp := resp, draws := k }) →
      t.oracle = .reference → engineRuns t ∧ catchUp t = t := by
    rintro t ⟨resp, k, he⟩ hot
    have hbox : t.engine.inbox = [] := by rw [he]; exact hb
    have hct : catchUp t = t := catchUp_nil hbox
    exact ⟨⟨hot, by rw [he]; exact hsync, by rw [hct, hbox]⟩, hct⟩
  intro t
  have main : (∃ resp k, t.engine = { (catchUp s).engine with resp := resp, draws := k }) ∧
      t.inputs.target = (catchUp s).inputs.target ∧ t.inputs.fill = (catchUp s).inputs.fill ∧
      t.inputs.chipResponses = (catchUp s).inputs.chipResponses ∧ t.oracle = .reference := by
    simp only [t, callRead, hready]
    split
    · next a coming _ =>
      have he : ∃ resp k, settledEngine (cutAnswer n a) ((catchUp s).setInputs { (catchUp s).inputs with read := coming })
          = { (catchUp s).engine with resp := resp, draws := k } := by
        unfold settledEngine
        split
        · split
          · exact ⟨_, (catchUp s).engine.draws, rfl⟩
          · exact ⟨_, _, rfl⟩
        · exact ⟨_, _, rfl⟩
      simp only [settleResponses, State.setInputs_oracle, ho']
      exact ⟨he, rfl, rfl, rfl, ho'⟩
    · split
      · exact ⟨⟨_, (catchUp s).engine.draws, rfl⟩, rfl, rfl, rfl, ho'⟩
      · simp only [ho']
        exact ⟨⟨_, _, rfl⟩, rfl, rfl, rfl, ho'⟩
  obtain ⟨⟨resp, k, he⟩, h1, h2, h3, h4⟩ := main
  obtain ⟨h5, h6⟩ := key t ⟨resp, k, he⟩ h4
  exact ⟨resp, k, he, h1, h2, h3, h5, h6⟩

end Sys2Proof.Machine
end

