-- ==== Sys2Proof/Laws/PerInstr.lean ====
section
/-! SUPPORT. Statements about every instruction as syntax, one lemma a constructor. -/

namespace Sys2Proof

/-- The READ_NEG bit of an instruction's opcode. -/
def readNegOf : Instr → Bool
  | .init _ _ => false
  | .tmsShift _ _ => false
  | .clockTick _ _ _ => false
  | .dataShift _ _ _ _ => false
  | .teardown => false
  | .opTmsW _ _ => false
  | .opTmsWr neg _ _ => neg
  | .opByteN _ => false
  | .opByteW _ => false
  | .opByteR neg _ => neg
  | .opByteWr neg _ => neg
  | .opBitN _ => false
  | .opBitW _ _ => false
  | .opBitR neg _ => neg
  | .opBitWr neg _ _ => neg
  | .opClkBytes _ => false
  | .opClkBits _ => false
  | .opSetLow _ _ => false
  | .opSetHigh _ _ => false
  | .opLoopbackOn => false

/-- The family: whatever the opcode parameters, an instruction's encoding begins with the value of a row of its own kind
and READ_NEG bit, a tag for a request and an opcode for a frame (30_encoding.md R76, R81); where the opcodes are distinct,
that row is found by the value and no other is (`rowOf_of_mem`). -/
def Laws.OpcodeKind.Statement (i : Instr) : Prop :=
  ∀ o : OpCodes, ∃ op bs, encode o i = op :: bs ∧
    (⟨rowKind i, op, readNegOf i⟩ : OpRow) ∈ if i.isRequest then tagRows else opRows o

theorem Laws.OpcodeKind.init (pinCfg : Nat) (clockHz : Nat) :
    Laws.OpcodeKind.Statement (.init pinCfg clockHz) := fun _ =>
  ⟨_, _, rfl, by simp [rowKind, readNegOf, Instr.isRequest, tagRows]⟩

theorem Laws.OpcodeKind.tmsShift (tms : Buf) (len : Nat) :
    Laws.OpcodeKind.Statement (.tmsShift tms len) := fun _ =>
  ⟨_, _, rfl, by simp [rowKind, readNegOf, Instr.isRequest, tagRows]⟩

theorem Laws.OpcodeKind.clockTick (a : Bool) (b : Bool) (n : Nat) :
    Laws.OpcodeKind.Statement (.clockTick a b n) := fun _ =>
  ⟨_, _, rfl, by simp [rowKind, readNegOf, Instr.isRequest, tagRows]⟩

theorem Laws.OpcodeKind.dataShift (tdi : Option Buf) (tdo : Option Buf) (len : Nat) (last : Bool) :
    Laws.OpcodeKind.Statement (.dataShift tdi tdo len last) := fun _ =>
  ⟨_, _, rfl, by simp [rowKind, readNegOf, Instr.isRequest, tagRows]⟩

theorem Laws.OpcodeKind.teardown :
    Laws.OpcodeKind.Statement .teardown := fun _ =>
  ⟨_, _, rfl, by simp [rowKind, readNegOf, Instr.isRequest, tagRows]⟩

theorem Laws.OpcodeKind.opTmsW (n : Nat) (d : Byte) :
    Laws.OpcodeKind.Statement (.opTmsW n d) := fun _ =>
  ⟨_, _, rfl, by simp [rowKind, readNegOf, Instr.isRequest, opRows]⟩

theorem Laws.OpcodeKind.opTmsWr (neg : Bool) (n : Nat) (d : Byte) :
    Laws.OpcodeKind.Statement (.opTmsWr neg n d) := fun _ =>
  ⟨_, _, rfl, by cases neg <;> simp [rowKind, readNegOf, Instr.isRequest, opRows]⟩

theorem Laws.OpcodeKind.opByteN (c : Nat) :
    Laws.OpcodeKind.Statement (.opByteN c) := fun _ =>
  ⟨_, _, rfl, by simp [rowKind, readNegOf, Instr.isRequest, opRows]⟩

theorem Laws.OpcodeKind.opByteW (p : List Byte) :
    Laws.OpcodeKind.Statement (.opByteW p) := fun _ =>
  ⟨_, _, rfl, by simp [rowKind, readNegOf, Instr.isRequest, opRows]⟩

theorem Laws.OpcodeKind.opByteR (neg : Bool) (c : Nat) :
    Laws.OpcodeKind.Statement (.opByteR neg c) := fun _ =>
  ⟨_, _, rfl, by cases neg <;> simp [rowKind, readNegOf, Instr.isRequest, opRows]⟩

theorem Laws.OpcodeKind.opByteWr (neg : Bool) (p : List Byte) :
    Laws.OpcodeKind.Statement (.opByteWr neg p) := fun _ =>
  ⟨_, _, rfl, by cases neg <;> simp [rowKind, readNegOf, Instr.isRequest, opRows]⟩

theorem Laws.OpcodeKind.opBitN (m : Nat) :
    Laws.OpcodeKind.Statement (.opBitN m) := fun _ =>
  ⟨_, _, rfl, by simp [rowKind, readNegOf, Instr.isRequest, opRows]⟩

theorem Laws.OpcodeKind.opBitW (m : Nat) (p : Byte) :
    Laws.OpcodeKind.Statement (.opBitW m p) := fun _ =>
  ⟨_, _, rfl, by simp [rowKind, readNegOf, Instr.isRequest, opRows]⟩

theorem Laws.OpcodeKind.opBitR (neg : Bool) (m : Nat) :
    Laws.OpcodeKind.Statement (.opBitR neg m) := fun _ =>
  ⟨_, _, rfl, by cases neg <;> simp [rowKind, readNegOf, Instr.isRequest, opRows]⟩

theorem Laws.OpcodeKind.opBitWr (neg : Bool) (m : Nat) (p : Byte) :
    Laws.OpcodeKind.Statement (.opBitWr neg m p) := fun _ =>
  ⟨_, _, rfl, by cases neg <;> simp [rowKind, readNegOf, Instr.isRequest, opRows]⟩

theorem Laws.OpcodeKind.opClkBytes (g : Nat) :
    Laws.OpcodeKind.Statement (.opClkBytes g) := fun _ =>
  ⟨_, _, rfl, by simp [rowKind, readNegOf, Instr.isRequest, opRows]⟩

theorem Laws.OpcodeKind.opClkBits (r : Nat) :
    Laws.OpcodeKind.Statement (.opClkBits r) := fun _ =>
  ⟨_, _, rfl, by simp [rowKind, readNegOf, Instr.isRequest, opRows]⟩

theorem Laws.OpcodeKind.opSetLow (v : Byte) (d : Byte) :
    Laws.OpcodeKind.Statement (.opSetLow v d) := fun _ =>
  ⟨_, _, rfl, by simp [rowKind, readNegOf, Instr.isRequest, opRows]⟩

theorem Laws.OpcodeKind.opSetHigh (v : Byte) (d : Byte) :
    Laws.OpcodeKind.Statement (.opSetHigh v d) := fun _ =>
  ⟨_, _, rfl, by simp [rowKind, readNegOf, Instr.isRequest, opRows]⟩

theorem Laws.OpcodeKind.opLoopbackOn :
    Laws.OpcodeKind.Statement .opLoopbackOn := fun _ =>
  ⟨_, _, rfl, by simp [rowKind, readNegOf, Instr.isRequest, opRows]⟩

/-- The family of every instruction. -/
theorem encode_first (i : Instr) : Laws.OpcodeKind.Statement i := by
  cases i
  · exact Laws.OpcodeKind.init _ _
  · exact Laws.OpcodeKind.tmsShift _ _
  · exact Laws.OpcodeKind.clockTick _ _ _
  · exact Laws.OpcodeKind.dataShift _ _ _ _
  · exact Laws.OpcodeKind.teardown
  · exact Laws.OpcodeKind.opTmsW _ _
  · exact Laws.OpcodeKind.opTmsWr _ _ _
  · exact Laws.OpcodeKind.opByteN _
  · exact Laws.OpcodeKind.opByteW _
  · exact Laws.OpcodeKind.opByteR _ _
  · exact Laws.OpcodeKind.opByteWr _ _
  · exact Laws.OpcodeKind.opBitN _
  · exact Laws.OpcodeKind.opBitW _ _
  · exact Laws.OpcodeKind.opBitR _ _
  · exact Laws.OpcodeKind.opBitWr _ _ _
  · exact Laws.OpcodeKind.opClkBytes _
  · exact Laws.OpcodeKind.opClkBits _
  · exact Laws.OpcodeKind.opSetLow _ _
  · exact Laws.OpcodeKind.opSetHigh _ _
  · exact Laws.OpcodeKind.opLoopbackOn

end Sys2Proof
end

