-- ==== Sys2Proof/Laws/Requests.lean ====
section
/-! SUPPORT. The laws of the requests' bodies: what each can do to the registers, however it ends. -/

namespace Sys2Proof.Machine

theorem longEnough_iff {len : Nat} {b : Buf} : longEnough len b = true ↔ (len + 7) / 8 ≤ b.size := by
  unfold longEnough
  rw [decide_eq_true_eq]
  rfl

/-! ### Every primitive leaves nothing pending -/

theorem drain_pending (n : Nat) (s : State) : (drain n s).state.pending = [] := by
  have h := (flush_state s).2.2.2.1
  cases hf : flush s with
  | ok u t =>
    obtain ⟨a, -, -, -, -, hp, -⟩ := drainRead_state n t
    rw [hf] at h
    simpa [drain, hf, Res.andThen, Res.state, hp] using h
  | err e t =>
    rw [hf] at h
    simpa [drain, hf, Res.andThen, Res.state] using h

theorem readBack_pending (n : Nat) (s : State) : (readBack n s).state.pending = [] := by
  have h := (flush_state s).2.2.2.1
  cases hf : flush s with
  | ok u t =>
    obtain ⟨a, v, -, -, -, -, hp, -, -, e⟩ := captureRead_state n t
    rw [hf] at h
    have hv : v.pending = [] := by simpa [Res.state, hp] using h
    simp only [readBack, hf, Res.andThen, e]
    split
    · split <;> exact hv
    · exact hv
  | err e t =>
    rw [hf] at h
    simpa [readBack, hf, Res.andThen, Res.state] using h

theorem writeDone_pending (n : Nat) (s : State) : (writeDone n s).state.pending = [] := by
  unfold writeDone
  split
  · exact drain_pending n s
  · exact (flush_state s).2.2.2.1

/-! ### And none of them writes memory -/

theorem drain_mem (n : Nat) (s : State) : (drain n s).state.mem = s.mem := by
  have h := (flush_state s).2.1
  cases hf : flush s with
  | ok u t =>
    obtain ⟨a, -, -, -, hm, -⟩ := drainRead_state n t
    rw [hf] at h
    simpa [drain, hf, Res.andThen, Res.state, hm] using h
  | err e t =>
    rw [hf] at h
    simpa [drain, hf, Res.andThen, Res.state] using h

theorem readBack_mem (n : Nat) (s : State) : (readBack n s).state.mem = s.mem := by
  have h := (flush_state s).2.1
  cases hf : flush s with
  | ok u t =>
    obtain ⟨a, v, -, -, hm, -, -, -, -, e⟩ := captureRead_state n t
    rw [hf] at h
    have hv : v.mem = s.mem := hm.trans h
    simp only [readBack, hf, Res.andThen, e]
    split
    · split <;> exact hv
    · exact hv
  | err e t =>
    rw [hf] at h
    simpa [readBack, hf, Res.andThen, Res.state] using h

theorem writeDone_mem (n : Nat) (s : State) : (writeDone n s).state.mem = s.mem := by
  unfold writeDone
  split
  · exact drain_mem n s
  · exact (flush_state s).2.1

/-- A capture read that succeeds answers as many bytes as were asked for. -/
theorem readBack_length {n : Nat} {s t : State} {bs : List Byte} (h : readBack n s = .ok bs t) : bs.length = n := by
  unfold readBack at h
  cases hf : flush s with
  | ok u v =>
    obtain ⟨a, w, -, -, -, -, -, -, -, e⟩ := captureRead_state n v
    rw [hf] at h
    simp only [Res.andThen, e] at h
    split at h
    · split at h
      · cases h
        assumption
      · cases h
    · cases h
  | err e v =>
    rw [hf] at h
    cases h

/-! ### TMS_SHIFT and CLOCK_TICK -/

theorem flushDrain_worked (n : Nat) (s : State) : worked s (flushDrain n s).state :=
  andThen_worked (flush_state s).1 fun _ t _ => by
    split
    · exact drain_worked n t
    · exact worked_refl t

theorem flushDrain_mem (n : Nat) (s : State) : (flushDrain n s).state.mem = s.mem := by
  have h := (flush_state s).2.1
  unfold flushDrain
  cases hf : flush s with
  | ok u t =>
    rw [hf] at h
    simp only [Res.andThen]
    split
    · exact (drain_mem n t).trans h
    · exact h
  | err e t =>
    rw [hf] at h
    exact h

theorem flushDrain_pending (n : Nat) (s : State) : (flushDrain n s).state.pending = [] := by
  have h := (flush_state s).2.2.2.1
  unfold flushDrain
  cases hf : flush s with
  | ok u t =>
    rw [hf] at h
    simp only [Res.andThen]
    split
    · exact drain_pending n t
    · exact h
  | err e t =>
    rw [hf] at h
    exact h

theorem sendTmsFrames_worked (perFlush n : Nat) (frames : List (List Byte)) (k : Nat) (s : State) :
    worked s (sendTmsFrames perFlush n frames k s).state := by
  induction frames generalizing k s with
  | nil => exact worked_refl s
  | cons f fs ih =>
    refine worked_trans (enq_worked f s) ?_
    rw [sendTmsFrames]
    split
    · exact andThen_worked (flushDrain_worked n _) fun _ t _ => ih 0 t
    · exact ih _ _

theorem sendTmsFrames_mem (perFlush n : Nat) (frames : List (List Byte)) (k : Nat) (s : State) :
    (sendTmsFrames perFlush n frames k s).state.mem = s.mem := by
  induction frames generalizing k s with
  | nil => rfl
  | cons f fs ih =>
    rw [sendTmsFrames]
    split
    · have h := flushDrain_mem n (enq f s)
      cases hf : flushDrain n (enq f s) with
      | ok u t =>
        rw [hf] at h
        exact (ih 0 t).trans h
      | err e t =>
        rw [hf] at h
        exact h
    · exact ih _ _

/-- Frames that stop at a fatal error stop with nothing pending. -/
theorem sendTmsFrames_err_pending {perFlush n k : Nat} {frames : List (List Byte)} {s t : State} {e : BlockError}
    (h : sendTmsFrames perFlush n frames k s = .err e t) : t.pending = [] := by
  induction frames generalizing k s with
  | nil => cases h
  | cons f fs ih =>
    rw [sendTmsFrames] at h
    split at h
    · have hp := flushDrain_pending n (enq f s)
      cases hf : flushDrain n (enq f s) with
      | ok u v =>
        rw [hf] at h
        exact ih h
      | err e' v =>
        rw [hf] at h hp
        cases h
        exact hp
    · exact ih h

theorem tmsBody_worked (bits : Nat → Bool) (len : Nat) (s : State) : worked s (tmsBody bits len s).state := by
  unfold tmsBody
  split
  · exact worked_refl s
  · exact andThen_worked
      (andThen_worked (sendTmsFrames_worked _ _ _ _ s) fun _ t _ => flushDrain_worked _ t) fun _ t _ => worked_refl t

theorem tmsBody_mem (bits : Nat → Bool) (len : Nat) (s : State) : (tmsBody bits len s).state.mem = s.mem := by
  unfold tmsBody
  split
  · rfl
  · have h := sendTmsFrames_mem (framesPerFlush s.cfg) (ceil8 len) (tmsFrames s.cfg bits len) 0 s
    cases hs : sendTmsFrames (framesPerFlush s.cfg) (ceil8 len) (tmsFrames s.cfg bits len) 0 s with
    | ok u t =>
      rw [hs] at h
      have hd := flushDrain_mem (ceil8 len) t
      simp only [Res.andThen]
      cases hf : flushDrain (ceil8 len) t with
      | ok u' t' =>
        rw [hf] at hd
        exact hd.trans h
      | err e t' =>
        rw [hf] at hd
        exact hd.trans h
    | err e t =>
      rw [hs] at h
      exact h

theorem tmsBody_pending {bits : Nat → Bool} {len : Nat} {s : State} (h : s.pending = []) :
    (tmsBody bits len s).state.pending = [] := by
  unfold tmsBody
  split
  · exact h
  · cases hs : sendTmsFrames (framesPerFlush s.cfg) (ceil8 len) (tmsFrames s.cfg bits len) 0 s with
    | ok u t =>
      have hd := flushDrain_pending (ceil8 len) t
      simp only [Res.andThen]
      cases hf : flushDrain (ceil8 len) t with
      | ok u' t' =>
        rw [hf] at hd
        exact hd
      | err e t' =>
        rw [hf] at hd
        exact hd
    | err e t => exact sendTmsFrames_err_pending hs

theorem tmsBody_value {bits : Nat → Bool} {len : Nat} {s t : State} {v : OkValue}
    (h : tmsBody bits len s = .ok v t) : v = .value len := by
  unfold tmsBody at h
  split at h
  · next h0 =>
    cases h
    rw [h0]
  · cases hs : sendTmsFrames (framesPerFlush s.cfg) (ceil8 len) (tmsFrames s.cfg bits len) 0 s with
    | ok u w =>
      rw [hs] at h
      simp only [Res.andThen] at h
      cases hf : flushDrain (ceil8 len) w with
      | ok u' w' =>
        rw [hf] at h
        cases h
        rfl
      | err e w' =>
        rw [hf] at h
        cases h
    | err e w =>
      rw [hs] at h
      cases h

theorem clockFrame_state (units : Nat) (frame : List Byte) (s : State) :
    worked s (clockFrame units frame s).state ∧ (clockFrame units frame s).state.mem = s.mem ∧
    (clockFrame units frame s).state.diag = s.diag ∧
    (s.pending = [] → (clockFrame units frame s).state.pending = []) := by
  unfold clockFrame
  split
  · exact ⟨worked_refl s, rfl, rfl, id⟩
  · obtain ⟨h1, h2, h3, h4, -⟩ := flush_state (enq frame s)
    exact ⟨worked_trans (enq_worked frame s) h1, h2, h3, fun _ => h4⟩

theorem clockFast_state (count : Nat) (s : State) :
    worked s (clockFast count s).state ∧ (clockFast count s).state.mem = s.mem ∧
    (clockFast count s).state.diag = s.diag ∧ (s.pending = [] → (clockFast count s).state.pending = []) ∧
    ∀ v t, clockFast count s = .ok v t → v = .value count := by
  obtain ⟨h1, h2, h3, h4⟩ := clockFrame_state (count / 8) (clkBytesFrame s.cfg (count / 8)) s
  unfold clockFast
  cases ha : clockFrame (count / 8) (clkBytesFrame s.cfg (count / 8)) s with
  | ok u t =>
    rw [ha] at h1 h2 h3 h4
    obtain ⟨k1, k2, k3, k4⟩ := clockFrame_state (count % 8) (clkBitsFrame t.cfg (count % 8)) t
    simp only [Res.andThen]
    cases hb : clockFrame (count % 8) (clkBitsFrame t.cfg (count % 8)) t with
    | ok u' t' =>
      rw [hb] at k1 k2 k3 k4
      exact ⟨worked_trans h1 k1, k2.trans h2, k3.trans h3, fun h => k4 (h4 h), fun v w e => by cases e; rfl⟩
    | err e t' =>
      rw [hb] at k1 k2 k3 k4
      exact ⟨worked_trans h1 k1, k2.trans h2, k3.trans h3, fun h => k4 (h4 h), fun v w e => by cases e⟩
  | err e t =>
    rw [ha] at h1 h2 h3 h4
    exact ⟨h1, h2, h3, h4, fun v w e => by cases e⟩

/-! ### DATA_SHIFT -/

theorem setMem_worked (m : Memory) (s : State) : worked s (s.setMem m) := by simp [worked]

theorem closeStep_worked (tdo : Option Nat) (n : Nat) (store : State → List Byte → List Byte) (s : State) :
    worked s (closeStep tdo n store s).state := by
  unfold closeStep
  split
  · exact writeDone_worked n s
  · next a =>
    have h := readBack_worked n s
    cases hr : readBack n s with
    | ok bs t =>
      rw [hr] at h
      exact worked_trans h (setMem_worked _ t)
    | err e t =>
      rw [hr] at h
      exact worked_trans h (setMem_worked _ t)

theorem closeStep_pending (tdo : Option Nat) (n : Nat) (store : State → List Byte → List Byte) (s : State) :
    (closeStep tdo n store s).state.pending = [] := by
  unfold closeStep
  split
  · exact writeDone_pending n s
  · next a =>
    have h := readBack_pending n s
    cases hr : readBack n s with
    | ok bs t =>
      rw [hr] at h
      exact h
    | err e t =>
      rw [hr] at h
      exact h

/-- The memory a step leaves: as it was, or with a run of bytes written at the step's TDO address: as many bytes as were
read, or, after a failure, as many as should have been. -/
theorem closeStep_mem (tdo : Option Nat) (n : Nat) (store : State → List Byte → List Byte) (s : State) :
    (tdo = none ∧ (closeStep tdo n store s).state.mem = s.mem) ∨
    (∃ a t bs, tdo = some a ∧ readBack n s = .ok bs t ∧
      closeStep tdo n store s = .ok () (t.setMem (s.mem.writeBytes a (store t bs)))) ∨
    ∃ a t e bs, tdo = some a ∧ readBack n s = .err e t ∧ bs.length = n ∧
      closeStep tdo n store s = .err e (t.setMem (s.mem.writeBytes a bs)) := by
  unfold closeStep
  split
  · exact .inl ⟨rfl, writeDone_mem n s⟩
  · next a =>
    have h := readBack_mem n s
    cases hr : readBack n s with
    | ok bs t =>
      rw [hr] at h
      have hm : t.mem = s.mem := h
      exact .inr (.inl ⟨a, t, bs, rfl, rfl, by rw [← hm]⟩)
    | err e t =>
      rw [hr] at h
      have hm : t.mem = s.mem := h
      refine .inr (.inr ⟨a, t, e, (List.range n).map fun i => Config.freeTdoByte t.trace (a + i), rfl, rfl, ?_, ?_⟩)
      · simp
      · rw [← hm]
        rfl

theorem enqTdi_worked (tdi : Option Buf) (cur n : Nat) (s : State) : worked s (enqTdi tdi cur n s) := by
  unfold enqTdi
  split
  · exact worked_refl s
  · exact enq_worked _ s

theorem enqTdi_mem (tdi : Option Buf) (cur n : Nat) (s : State) : (enqTdi tdi cur n s).mem = s.mem := by
  unfold enqTdi
  split <;> rfl

theorem dataChunk_worked (tdi tdo : Option Buf) (cur c : Nat) (s : State) :
    worked s (dataChunk tdi tdo cur c s).state :=
  worked_trans (worked_trans (enq_worked _ s) (enqTdi_worked tdi cur c _)) (closeStep_worked _ _ _ _)

theorem dataChunks_worked (tdi tdo : Option Buf) (sizes : List Nat) (cur : Nat) (s : State) :
    worked s (dataChunks tdi tdo sizes cur s).state := by
  induction sizes generalizing cur s with
  | nil => exact worked_refl s
  | cons c sizes ih => exact andThen_worked (dataChunk_worked tdi tdo cur c s) fun _ t _ => ih _ t

theorem dataResidual_worked (tdi tdo : Option Buf) (nbByte nbBit : Nat) (s : State) :
    worked s (dataResidual tdi tdo nbByte nbBit s).state := by
  unfold dataResidual
  split
  · exact worked_refl s
  · exact worked_trans (worked_trans (enq_worked _ s) (enqTdi_worked tdi nbByte 1 _)) (closeStep_worked _ _ _ _)

theorem dataExit_worked (tdi tdo : Option Buf) (nbByte nbBit : Nat) (last : Bool) (s : State) :
    worked s (dataExit tdi tdo nbByte nbBit last s).state := by
  unfold dataExit
  split
  · exact worked_trans (enq_worked _ s) (closeStep_worked _ _ _ _)
  · exact worked_refl s

theorem dataSteps_worked (tdi tdo : Option Buf) (nbByte nbBit : Nat) (last : Bool) (s : State) :
    worked s (dataSteps tdi tdo nbByte nbBit last s).state :=
  andThen_worked
    (andThen_worked
      (andThen_worked (dataChunks_worked tdi tdo _ _ s) fun _ t _ => dataResidual_worked tdi tdo nbByte nbBit t)
      fun _ t _ => dataExit_worked tdi tdo nbByte nbBit last t)
    fun _ t _ => worked_refl t

theorem dataChunks_pending {tdi tdo : Option Buf} {sizes : List Nat} {cur : Nat} {s : State} (h : s.pending = []) :
    (dataChunks tdi tdo sizes cur s).state.pending = [] := by
  induction sizes generalizing cur s with
  | nil => exact h
  | cons c sizes ih =>
    rw [dataChunks]
    have hp := closeStep_pending (tdoAt tdo cur) c (fun _ bs => bs)
      (enqTdi tdi cur c (enq (byteHeader s.cfg tdi.isSome tdo.isSome c) s))
    cases hc : dataChunk tdi tdo cur c s with
    | ok u t =>
      rw [dataChunk] at hc
      rw [hc] at hp
      exact ih hp
    | err e t =>
      rw [dataChunk] at hc
      rw [hc] at hp
      exact hp

theorem dataResidual_pending {tdi tdo : Option Buf} {nbByte nbBit : Nat} {s : State} (h : s.pending = []) :
    (dataResidual tdi tdo nbByte nbBit s).state.pending = [] := by
  unfold dataResidual
  split
  · exact h
  · exact closeStep_pending _ _ _ _

theorem dataExit_pending {tdi tdo : Option Buf} {nbByte nbBit : Nat} {last : Bool} {s : State} (h : s.pending = []) :
    (dataExit tdi tdo nbByte nbBit last s).state.pending = [] := by
  unfold dataExit
  split
  · exact closeStep_pending _ _ _ _
  · exact h

theorem dataSteps_pending {tdi tdo : Option Buf} {nbByte nbBit : Nat} {last : Bool} {s : State} (h : s.pending = []) :
    (dataSteps tdi tdo nbByte nbBit last s).state.pending = [] := by
  have h1 := dataChunks_pending (tdi := tdi) (tdo := tdo) (sizes := chunkSizes nbByte nbByte (chunkLimit s.cfg))
    (cur := 0) h
  unfold dataSteps
  cases ha : dataChunks tdi tdo (chunkSizes nbByte nbByte (chunkLimit s.cfg)) 0 s with
  | err e t =>
    rw [ha] at h1
    exact h1
  | ok u t =>
    rw [ha] at h1
    have h2 := dataResidual_pending (tdi := tdi) (tdo := tdo) (nbByte := nbByte) (nbBit := nbBit) (s := t) h1
    simp only [Res.andThen]
    cases hb : dataResidual tdi tdo nbByte nbBit t with
    | err e t' =>
      rw [hb] at h2
      exact h2
    | ok u' t' =>
      rw [hb] at h2
      have h3 := dataExit_pending (tdi := tdi) (tdo := tdo) (nbByte := nbByte) (nbBit := nbBit) (last := last)
        (s := t') h2
      dsimp only
      cases hc : dataExit tdi tdo nbByte nbBit last t' with
      | err e t'' =>
        rw [hc] at h3
        exact h3
      | ok u'' t'' =>
        rw [hc] at h3
        exact h3

/-- The split of step 2 is always sound (43_data_shifter.md R131). -/
theorem splitOk_true (n : Nat) : splitOk n (n / 8) (n % 8) = true := by
  simp only [splitOk, beq_iff_eq]
  omega

/-- A DATA_SHIFT's body: the length error for 0, else the steps; the split check never fails. -/
theorem dataBody_eq (tdi tdo : Option Buf) (len : Nat) (last : Bool) (s : State) :
    dataBody tdi tdo len last s =
      if len = 0 then .err (.protocolConsistencyFailure (.lenZero len last)) s
      else dataSteps tdi tdo (realLen len last / 8) (realLen len last % 8) last s := by
  unfold dataBody
  split
  · rfl
  · rw [if_pos (splitOk_true _)]

theorem dataBody_worked (tdi tdo : Option Buf) (len : Nat) (last : Bool) (s : State) :
    worked s (dataBody tdi tdo len last s).state := by
  rw [dataBody_eq]
  split
  · exact worked_refl s
  · exact dataSteps_worked _ _ _ _ _ s

theorem dataBody_pending {tdi tdo : Option Buf} {len : Nat} {last : Bool} {s : State} (h : s.pending = []) :
    (dataBody tdi tdo len last s).state.pending = [] := by
  rw [dataBody_eq]
  split
  · exact h
  · exact dataSteps_pending h

theorem dataBody_value {tdi tdo : Option Buf} {len : Nat} {last : Bool} {s t : State} {v : OkValue}
    (h : dataBody tdi tdo len last s = .ok v t) : v = .value 0 := by
  rw [dataBody_eq] at h
  split at h
  · cases h
  · unfold dataSteps at h
    cases ha : ((dataChunks tdi tdo (chunkSizes (realLen len last / 8) (realLen len last / 8) (chunkLimit s.cfg)) 0
        s).andThen fun _ s => dataResidual tdi tdo (realLen len last / 8) (realLen len last % 8) s).andThen
        fun _ s => dataExit tdi tdo (realLen len last / 8) (realLen len last % 8) last s with
    | ok u w =>
      rw [ha] at h
      cases h
      rfl
    | err e w =>
      rw [ha] at h
      cases h

/-! ### INIT and TEARDOWN -/

/-- INIT's body leaves all but `quirk`, `phase`, the trace and the engine's side alone. -/
theorem initBody_state (pinCfg clockHz : Nat) (s : State) :
    let t := (initBody pinCfg clockHz s).state
    t.cfg = s.cfg ∧ t.oracle = s.oracle ∧ t.requests = s.requests ∧ t.mem = s.mem ∧ t.fault = s.fault ∧
    t.diag = s.diag ∧ t.pending = s.pending ∧ t.results = s.results ∧ s.trace <+: t.trace ∧
    t.engine.wave = s.engine.wave ∧
    (∀ v u, initBody pinCfg clockHz s = .ok v u → v = .unit ∧ u.phase = .ready) ∧
    ∀ e u, initBody pinCfg clockHz s = .err e u → e = .transportFailure .configure ∧ u.quirk = s.quirk ∧
      u.trace = s.trace ++ [.configure s.cfg.engineMode pinCfg clockHz false] := by
  obtain ⟨⟨h1, h2, h3, h4, h5, h6, h7, h8, h9, h10, h11⟩, h12, -⟩ := callConfigure_state pinCfg clockHz s
  unfold initBody
  dsimp only [configureCalled]
  split
  · obtain ⟨⟨k1, k2, k3, k4, k5, k6, k7, k8, k9, k10, k11⟩, k12⟩ := callIdentity_leavesBlock
      ((callConfigure pinCfg clockHz s).2.record (.configure s.cfg.engineMode pinCfg clockHz
        (callConfigure pinCfg clockHz s).1))
    refine ⟨?_, ?_, ?_, ?_, ?_, ?_, ?_, ?_, ?_, ?_, ?_, ?_⟩
    · exact k1.trans h1
    · exact k2.trans h2
    · exact k3.trans h3
    · exact k4.trans h4
    · exact k7.trans h7
    · exact k8.trans h8
    · exact k9.trans h9
    · exact k11.trans h11
    · simp [Res.state, identityCalled, k10, h10]
    · simp [Res.state, identityCalled, k12, h12]
    · intro v u e
      cases e
      exact ⟨rfl, rfl⟩
    · intro e u he
      cases he
  · next hf =>
    have hf' : (callConfigure pinCfg clockHz s).1 = false := by simpa using hf
    refine ⟨h1, h2, h3, h4, h7, h8, h9, h11, by simp [Res.state, h10], h12, ?_, ?_⟩
    · intro v u e
      cases e
    · intro e u he
      cases he
      exact ⟨rfl, h6, by simp [h10, hf']⟩

theorem enqAll_state (frames : List (List Byte)) (s : State) :
    worked s (enqAll frames s) ∧ (enqAll frames s).mem = s.mem ∧ (enqAll frames s).diag = s.diag ∧
    (enqAll frames s).pending = s.pending ++ frames.flatten ∧
    (enqAll frames s).trace = s.trace ++ frames.map Event.enq ∧ (enqAll frames s).inputs = s.inputs := by
  induction frames generalizing s with
  | nil => exact ⟨worked_refl s, rfl, rfl, by simp [enqAll], by simp [enqAll], rfl⟩
  | cons f fs ih =>
    obtain ⟨h1, h2, h3, h4, h5, h6⟩ := ih (enq f s)
    refine ⟨worked_trans (enq_worked f s) h1, h2, h3, ?_, ?_, h6⟩
    · rw [enqAll, h4]
      simp [enq]
    · rw [enqAll, h5]
      simp [enq]

/-- The self-test's read: recorded; a short or failed one is a diagnostic. -/
theorem teardownRead_state (s : State) :
    worked s (teardownRead s) ∧ (teardownRead s).mem = s.mem ∧ (teardownRead s).pending = s.pending ∧
    ∃ a, (teardownRead s).trace = s.trace ++ [.read s.cfg.probe.length a] ∧
      (teardownRead s).diag = s.diag ++
        (if answersAll s.cfg.probe.length a then [] else [.teardownMismatchRead s.cfg.probe.length a]) ∧
      ∀ b coming, s.inputs.read = b :: coming → a = cutAnswer s.cfg.probe.length b := by
  obtain ⟨⟨h1, h2, h3, h4, h5, h6, h7, h8, h9, h10, h11⟩, h12, h13, h14⟩ := callRead_state s.cfg.probe.length s
  unfold teardownRead
  dsimp only
  split
  · next h =>
    refine ⟨?_, h4, h9, (callRead s.cfg.probe.length s).1, ?_, ?_, fun b c e => (h14 b c e).1⟩
    · simp [worked, h1, h2, h3, h5, h6, h7, h8, h10, h11, h13]
    · simp [h10]
    · simp [h8, h]
  · next h =>
    refine ⟨?_, h4, h9, (callRead s.cfg.probe.length s).1, ?_, ?_, fun b c e => (h14 b c e).1⟩
    · simp [worked, h1, h2, h3, h5, h6, h7, h8, h10, h11, h13]
    · simp [h10]
    · simp [h8, h]

theorem selfTest_state (s : State) :
    worked s (selfTest s) ∧ (selfTest s).mem = s.mem ∧ (selfTest s).pending = [] := by
  obtain ⟨h1, h2, h3, h4, h5, h6⟩ := enqAll_state (teardownFrames s.cfg) s
  obtain ⟨k1, k2, k3, k4, k5, k6⟩ := callFlush_state (enqAll (teardownFrames s.cfg) s)
  unfold selfTest
  dsimp only
  split
  · obtain ⟨l1, l2, l3, -⟩ := teardownRead_state (callFlush (enqAll (teardownFrames s.cfg) s)).2
    exact ⟨worked_trans (worked_trans h1 k1) l1, (l2.trans k2).trans h2, l3.trans k4⟩
  · refine ⟨worked_trans (worked_trans h1 k1) ?_, k2.trans h2, k4⟩
    simp [worked]

end Sys2Proof.Machine
end

