-- ==== Sys2Proof/Tests/Slice0.lean ====
section
/-! SUPPORT. Tests of the model. Words are written out from the encodings of 30_encoding.md, expected results are those of
95_test_vectors.md (each test names its vector). The witnesses at the end meet the hypotheses of the statements. -/

namespace Sys2Proof.Tests

open Sys2Proof Sys2Proof.Machine

/-! ### Helpers -/

/-- A READY block on the reference engine with a loopback target (95_test_vectors.md, Conventions). -/
def ready (mem : Memory) : State :=
  { State.reset with
    phase := .ready
    oracle := .reference
    inputs := { Inputs.free with target := .loopback }
    mem := mem }

/-- The same with another buffer size and quirk flag. -/
def readyWith (bufSize : Nat) (quirk : Bool) (mem : Memory) : State :=
  { ready mem with cfg := { Config.vectors with bufSize := bufSize }, quirk := quirk }

/-- The same block right after reset, with a script for INIT. -/
def fresh (configure : List Bool) (identity : List (Option String)) : State :=
  { State.reset with inputs := { Inputs.free with configure := configure, identity := identity } }

/-- The engine of the vectors of 2.6 with these levels on TMS and TDI. -/
def engineAt (tms tdi : Bool) : State :=
  { ready [] with engine := { Engine.reset with tmsPin := tms, tdiPin := tdi } }

/-- What a read of the state after an instruction gives; `none` where it does not complete. -/
def after {α : Type} (i : Instr) (s : State) (f : State → α) : Option α :=
  match exec i s with
  | .next t => some (f t)
  | .fault _ => none
  | .refused _ => none

/-- The levels of the pulses. -/
def levels (s : State) : List (Bool × Bool) := s.engine.wave.map fun p => (p.tms, p.tdi)

/-- Bytes from address `a` on. -/
def bytesAt (a : Nat) (bs : List Byte) : Memory := Memory.writeBytes [] a bs

/-! ### Well-formedness: an ill-formed term for each check -/

theorem test_wf_fits_field :
    (Instr.init (2 ^ 64) 0).wellFormed = false ∧ (Instr.init 0 (2 ^ 64)).wellFormed = false ∧
    (Instr.clockTick true false (2 ^ 64)).wellFormed = false ∧ (Instr.tmsShift ⟨0, 1⟩ (2 ^ 64)).wellFormed = false ∧
    (Instr.dataShift none none (2 ^ 64) true).wellFormed = false := by decide

theorem test_wf_buffers :
    (Instr.tmsShift ⟨2 ^ 64, 1⟩ 1).wellFormed = false ∧ (Instr.tmsShift ⟨0, 2 ^ 64⟩ 1).wellFormed = false ∧
    (Instr.dataShift (some ⟨2 ^ 64, 1⟩) none 1 true).wellFormed = false ∧
    (Instr.dataShift none (some ⟨0, 2 ^ 64⟩) 1 true).wellFormed = false := by decide

theorem test_wf_tms_count :
    (Instr.opTmsW 0 0).wellFormed = false ∧ (Instr.opTmsW 7 0).wellFormed = false ∧
    (Instr.opTmsWr true 0 0).wellFormed = false ∧ (Instr.opTmsWr false 8 0).wellFormed = false := by decide

theorem test_wf_bit_count :
    (Instr.opBitN 0).wellFormed = false ∧ (Instr.opBitW 9 0).wellFormed = false ∧
    (Instr.opBitR false 0).wellFormed = false ∧ (Instr.opBitWr false 9 0).wellFormed = false ∧
    (Instr.opClkBits 9).wellFormed = false := by decide

theorem test_wf_byte_count :
    (Instr.opByteN 0).wellFormed = false ∧ (Instr.opByteN 65537).wellFormed = false ∧
    (Instr.opByteW []).wellFormed = false ∧ (Instr.opByteR true 65537).wellFormed = false ∧
    (Instr.opByteWr true []).wellFormed = false ∧ (Instr.opClkBytes 65537).wellFormed = false := by decide

/-! ### Decoding: words written out from the formats -/

/-- The record layout of log 2: tag 1, then two 8-byte naturals, low byte first. -/
theorem test_decode_init :
    decodeRequest [0x01, 0x02, 0x01, 0, 0, 0, 0, 0, 0, 0x40, 0x42, 0x0F, 0, 0, 0, 0, 0] =
      some (.init 258 1000000) := by decide

theorem test_decode_tmsShift :
    decodeRequest [0x02, 0x10, 0, 0, 0, 0, 0, 0, 0, 0x02, 0, 0, 0, 0, 0, 0, 0, 0x0D, 0, 0, 0, 0, 0, 0, 0] =
      some (.tmsShift ⟨16, 2⟩ 13) := by decide

theorem test_decode_clockTick :
    decodeRequest [0x03, 0x01, 0x00, 0x14, 0, 0, 0, 0, 0, 0, 0] = some (.clockTick true false 20) ∧
    decodeRequest [0x03, 0x02, 0x00, 0x14, 0, 0, 0, 0, 0, 0, 0] = none := by decide

theorem test_decode_dataShift :
    decodeRequest [0x04, 0x01, 0x07, 0, 0, 0, 0, 0, 0, 0, 0x01, 0, 0, 0, 0, 0, 0, 0, 0x00, 0x08, 0, 0, 0, 0, 0, 0, 0, 0x01] =
      some (.dataShift (some ⟨7, 1⟩) none 8 true) := by decide

/-- 30_encoding.md R76, R77: a tag alone; a tag 6; a record with a byte left over; a frame is no request. -/
theorem test_decode_teardown :
    decodeRequest [0x05] = some .teardown ∧ decodeRequest [0x06] = none ∧ decodeRequest [0x05, 0x00] = none ∧
    decodeRequest [0x84] = none := by decide

/-- V-TMS-1's frame; a count field of 6 is reserved (30_encoding.md R83). -/
theorem test_decode_opTmsW :
    decodeFrame OpCodes.defaults [0x4B, 0x04, 0x9F] = some (.opTmsW 5 0x9F, []) ∧ decodeFrame OpCodes.defaults [0x4B, 0x06, 0x9F] = none := by decide

theorem test_decode_opTmsWr :
    decodeFrame OpCodes.defaults [0x6B, 0x00, 0x81] = some (.opTmsWr false 1 0x81, []) ∧
    decodeFrame OpCodes.defaults [0x6F, 0x00, 0x81] = some (.opTmsWr true 1 0x81, []) := by decide

theorem test_decode_opByteN : decodeFrame OpCodes.defaults [0x09, 0x00, 0x01] = some (.opByteN 257, []) := by decide

/-- Two frames of one transfer; a payload that ends too early. -/
theorem test_decode_opByteW :
    decodeFrame OpCodes.defaults [0x19, 0x01, 0x00, 0xC3, 0x5A, 0x84] = some (.opByteW [0xC3, 0x5A], [0x84]) ∧
    decodeFrame OpCodes.defaults [0x19, 0x01, 0x00, 0xC3] = none := by decide

theorem test_decode_opByteR :
    decodeFrame OpCodes.defaults [0x29, 0x01, 0x00] = some (.opByteR false 2, []) ∧
    decodeFrame OpCodes.defaults [0x2D, 0x01, 0x00] = some (.opByteR true 2, []) := by decide

theorem test_decode_opByteWr :
    decodeFrame OpCodes.defaults [0x39, 0x00, 0x00, 0xA5] = some (.opByteWr false [0xA5], []) ∧
    decodeFrame OpCodes.defaults [0x3D, 0x00, 0x00, 0xA5] = some (.opByteWr true [0xA5], []) := by decide

theorem test_decode_opBitN : decodeFrame OpCodes.defaults [0x0B, 0x02] = some (.opBitN 3, []) := by decide

theorem test_decode_opBitW : decodeFrame OpCodes.defaults [0x1B, 0x06, 0x80] = some (.opBitW 7 0x80, []) := by decide

theorem test_decode_opBitR :
    decodeFrame OpCodes.defaults [0x2B, 0x07] = some (.opBitR false 8, []) ∧ decodeFrame OpCodes.defaults [0x2F, 0x07] = some (.opBitR true 8, []) ∧
    decodeFrame OpCodes.defaults [0x2B, 0x08] = none := by decide

theorem test_decode_opBitWr :
    decodeFrame OpCodes.defaults [0x3B, 0x04, 0x09] = some (.opBitWr false 5 0x09, []) ∧
    decodeFrame OpCodes.defaults [0x3F, 0x04, 0x09] = some (.opBitWr true 5 0x09, []) := by decide

theorem test_decode_opClkBytes : decodeFrame OpCodes.defaults [0x8F, 0xFF, 0xFF] = some (.opClkBytes 65536, []) := by decide

theorem test_decode_opClkBits : decodeFrame OpCodes.defaults [0x8E, 0x03] = some (.opClkBits 4, []) := by decide

theorem test_decode_opSetLow : decodeFrame OpCodes.defaults [0x80, 0x12, 0x34] = some (.opSetLow 0x12 0x34, []) := by decide

theorem test_decode_opSetHigh : decodeFrame OpCodes.defaults [0x82, 0x12, 0x34] = some (.opSetHigh 0x12 0x34, []) := by decide

/-- A reserved opcode is no frame, and neither is a request tag (45_engine_frames.md R168). -/
theorem test_decode_opLoopbackOn :
    decodeFrame OpCodes.defaults [0x84] = some (.opLoopbackOn, []) ∧ decodeFrame OpCodes.defaults [0x85] = none ∧ decodeFrame OpCodes.defaults [0x05] = none := by decide

/-- spec/opcode_table.json: the kind, the "mask" and the "match" of its frame rows. -/
def tableFrames : List (OpKind × Byte × Byte) :=
  [(.tmsW, 0xFF, 0x4B), (.tmsWr, 0xFB, 0x6B), (.byteN, 0xFF, 0x09), (.byteW, 0xFF, 0x19), (.byteR, 0xFB, 0x29),
    (.byteWr, 0xFB, 0x39), (.bitN, 0xFF, 0x0B), (.bitW, 0xFF, 0x1B), (.bitR, 0xFB, 0x2B), (.bitWr, 0xFB, 0x3B)] ++
  [(.clkBytes, 0xFF, 0x8F), (.clkBits, 0xFF, 0x8E), (.setLow, 0xFF, 0x80), (.setHigh, 0xFF, 0x82),
    (.loopbackOn, 0xFF, 0x84)]

set_option maxRecDepth 8000 in
/-- With the default parameters the first bytes of a kind are those the table's mask and match cover. -/
theorem test_default_opcodes :
    ∀ row ∈ tableFrames, ((List.range 256).map byte).filter (fun b => b &&& row.2.1 == row.2.2) =
      ((opRows OpCodes.defaults).filter (·.kind == row.1)).map (·.value) := by decide

/-- Other parameters: with `LSB` of weight 0x80 a TMS frame begins with 0xC3 (30_encoding.md R81). -/
theorem test_other_opcodes :
    encode { OpCodes.defaults with lsb := 0x80 } (.opTmsW 5 0x9F) = [0xC3, 0x04, 0x9F] ∧
    decodeFrame { OpCodes.defaults with lsb := 0x80 } [0xC3, 0x04, 0x9F] = some (.opTmsW 5 0x9F, []) ∧
    decodeFrame { OpCodes.defaults with lsb := 0x80 } [0x4B, 0x04, 0x9F] = none := by decide

/-! ### The requests (95_test_vectors.md 2.1 to 2.5) -/

/-- V-INIT-1. -/
theorem test_init_quirk :
    after (.init 7 9) (fresh [true] [some "Sipeed-Debug"]) (fun t => (t.trace, t.results, t.phase, t.quirk)) =
      some ([.configure 0 7 9 true, .identity (some "Sipeed-Debug")], [.ok .unit], .ready, true) := by decide

/-- V-INIT-4. -/
theorem test_init_fails :
    after (.init 7 9) (fresh [false] []) (fun t => (t.trace, t.results, t.phase, t.quirk, t.fault)) =
      some ([.configure 0 7 9 false], [.err (.transportFailure .configure)], .failed, false,
        some (.transportFailure .configure)) := by decide

/-- V-TMS-6. -/
theorem test_tmsShift_threshold :
    after (.tmsShift ⟨0, 2⟩ 13) (readyWith 7 false (bytesAt 0 [0xFF, 0x1F])) (fun t => (t.trace, t.results)) =
      some ([.enq [0x4B, 0x05, 0xBF], .enq [0x4B, 0x05, 0xBF], .flush 6 6, .enq [0x4B, 0x00, 0x81], .flush 3 3],
        [.ok (.value 13)]) := by decide

/-- V-TMS-13. -/
theorem test_tmsShift_short_drain :
    after (.tmsShift ⟨0, 2⟩ 13)
        { readyWith 7 true (bytesAt 0 [0xFF, 0x1F]) with
          inputs := { Inputs.free with read := [some [0x00], some [0x00, 0x00]] } }
        (fun t => (t.trace, t.results, t.diag)) =
      some ([.enq [0x4B, 0x05, 0xBF], .enq [0x4B, 0x05, 0xBF], .flush 6 6, .drain 2 (some [0x00]),
          .enq [0x4B, 0x00, 0x81], .flush 3 3, .drain 2 (some [0x00, 0x00])],
        [.ok (.value 13)], [.quirkDrainFailure 2 (some [0x00])]) := by decide

/-- V-CLK-3. -/
theorem test_clockTick_fast :
    after (.clockTick true false 20) (ready []) (fun t => (t.trace, t.results)) =
      some ([.enq [0x8F, 0x01, 0x00], .flush 3 3, .enq [0x8E, 0x03], .flush 2 2], [.ok (.value 20)]) := by decide

/-- V-CLK-10. -/
theorem test_clockTick_fallback :
    after (.clockTick false true 3)
        { ready [] with
          cfg := { Config.vectors with bufSize := 7, clkOnlyCapable := false }
          quirk := true
          inputs := { Inputs.free with read := [some [0x00]] } }
        (fun t => (t.trace, t.results)) =
      some ([.enq [0x4B, 0x02, 0x80], .flush 3 3, .drain 1 (some [0x00])], [.ok (.value 3)]) := by decide

/-- V-DAT-4. -/
theorem test_dataShift_exit :
    after (.dataShift (some ⟨0, 2⟩) (some ⟨16, 2⟩) 12 true)
        { readyWith 7 false (bytesAt 0 [0xFF, 0x0A]) with
          inputs := { Inputs.free with target := .loopback, fill := [0, 0] } }
        (fun t => (t.trace, t.results, t.mem.readBytes 16 2)) =
      some ([.enq [0x39, 0x00, 0x00], .enq [0xFF], .flush 4 4, .read 1 (some [0xFF]), .enq [0x3B, 0x02], .enq [0x0A],
          .flush 3 3, .read 1 (some [0x40]), .enq [0x6B, 0x00, 0x81], .flush 3 3, .read 1 (some [0x80])],
        [.ok (.value 0)], [0xFF, 0x0A]) := by decide

/-- V-DAT-16. -/
theorem test_dataShift_drains :
    after (.dataShift (some ⟨0, 1⟩) none 8 true)
        { readyWith 4096 true (bytesAt 0 [0x80]) with inputs := { Inputs.free with read := [some [0], some [0]] } }
        (fun t => (t.trace, t.results)) =
      some ([.enq [0x1B, 0x06], .enq [0x80], .flush 3 3, .drain 1 (some [0]), .enq [0x4B, 0x00, 0x81], .flush 3 3,
          .drain 1 (some [0])], [.ok (.value 0)]) := by decide

set_option maxRecDepth 8000 in
/-- V-TD-1. -/
theorem test_teardown :
    after .teardown (ready []) (fun t => (t.trace, t.results, t.phase, t.diag)) =
      some ([.enq [0x80, 0x00, 0x00], .enq [0x82, 0x00, 0x00], .enq [0x84],
          .enq [0x39, 0x04, 0x00, 0xAA, 0x55, 0x00, 0xFF, 0xAA], .flush 15 15,
          .read 5 (some [0xAA, 0x55, 0x00, 0xFF, 0xAA])], [.ok .unit], .closed, []) := by decide

set_option maxRecDepth 8000 in
/-- V-TD-3. -/
theorem test_teardown_mismatch :
    after .teardown { ready [] with inputs := { Inputs.free with read := [some [0xAA, 0x55, 0x00]] } }
        (fun t => (t.phase, t.diag, t.fault)) =
      some (.closed, [.teardownMismatchRead 5 (some [0xAA, 0x55, 0x00])], none) := by decide

/-! ### The frames (95_test_vectors.md 2.6, or the rule named) -/

/-- V-ENG-1. -/
theorem test_opTmsW :
    after (.opTmsW 5 0x9F) (engineAt false false) (fun t => (levels t, t.engine.tmsPin, t.engine.tdiPin)) =
      some (List.replicate 5 (true, true), true, true) := by decide

/-- V-ENG-2, with the drawn bits scripted as 0010101. -/
theorem test_opTmsWr :
    after (.opTmsWr false 1 0x81)
        { engineAt false false with inputs := { Inputs.free with target := .loopback, fill := [0xD5] } }
        (fun t => (levels t, t.engine.resp)) = some ([(true, true)], [0xD5]) := by decide

/-- V-ENG-5. -/
theorem test_opByteN : exec (.opByteN 1) (engineAt false false) = .fault (.engineUnmodelled [0x09, 0x00, 0x00]) := by
  rfl

/-- 45_engine_frames.md R154: TMS held, the payload's bits on TDI, nothing captured. -/
theorem test_opByteW :
    after (.opByteW [0xA5]) (engineAt true false) (fun t => (levels t, t.engine.resp)) =
      some ([(true, true), (true, false), (true, true), (true, false), (true, false), (true, true), (true, false),
        (true, true)], []) := by decide

/-- V-DAT-7's frame: TDO always 1. -/
theorem test_opByteR :
    after (.opByteR false 2)
        { engineAt false true with inputs := { Inputs.free with target := .bits (List.replicate 16 true) } }
        (fun t => (levels t, t.engine.resp)) = some (List.replicate 16 (false, true), [0xFF, 0xFF]) := by decide

/-- V-DAT-3's frame, on a loopback target. -/
theorem test_opByteWr :
    after (.opByteWr true [0xA5]) (engineAt false false) (fun t => (t.engine.resp, t.engine.wave.length)) =
      some ([0xA5], 8) := by decide

/-- 45_engine_frames.md R161 and R167. -/
theorem test_opBitN : exec (.opBitN 3) (engineAt false false) = .fault (.engineUnmodelled [0x0B, 0x02]) := by rfl

/-- V-DAT-16's frame. -/
theorem test_opBitW :
    after (.opBitW 7 0x80) (engineAt true true) (fun t => (levels t, t.engine.resp)) =
      some (List.replicate 7 (true, false), []) := by decide

/-- V-DAT-8's frame: TDO 1, 0, 1 with the low bits drawn as 11111. -/
theorem test_opBitR :
    after (.opBitR false 3)
        { engineAt false false with inputs := { Inputs.free with target := .bits [true, false, true], fill := [0xFF] } }
        (fun t => t.engine.resp) = some [0xBF] := by decide

/-- V-ENG-3, with the drawn bits scripted as 111. -/
theorem test_opBitWr :
    after (.opBitWr false 5 0x09)
        { engineAt false false with inputs := { Inputs.free with target := .loopback, fill := [0x07] } }
        (fun t => (levels t, t.engine.resp)) =
      some ([(false, true), (false, false), (false, false), (false, true), (false, false)], [0x4F]) := by decide

/-- 45_engine_frames.md R162. -/
theorem test_opClkBytes :
    after (.opClkBytes 1) (engineAt true true) (fun t => (levels t, t.engine.resp)) =
      some (List.replicate 8 (true, true), []) := by decide

/-- V-ENG-4. -/
theorem test_opClkBits :
    after (.opClkBits 4) (engineAt true false) (fun t => (levels t, t.engine.resp)) =
      some (List.replicate 4 (true, false), []) := by decide

/-- 45_engine_frames.md R164. -/
theorem test_opSetLow :
    after (.opSetLow 0x12 0x34) (engineAt true false) (fun t => (t.engine.gpioLow, t.engine.gpioHigh, levels t)) =
      some ((0x12, 0x34), (0, 0), []) := by decide

/-- 45_engine_frames.md R165. -/
theorem test_opSetHigh :
    after (.opSetHigh 0x12 0x34) (engineAt true false) (fun t => (t.engine.gpioLow, t.engine.gpioHigh, levels t)) =
      some ((0, 0), (0x12, 0x34), []) := by decide

/-- 45_engine_frames.md R166. -/
theorem test_opLoopbackOn :
    after .opLoopbackOn (engineAt true false) (fun t => (t.engine.loop, levels t)) = some (true, []) := by decide

/-! ### A step -/

/-- A malformed record is refused and taken (30_encoding.md R77). -/
theorem test_step_malformed :
    (match step { ready [] with requests := [[0x07], [0x05]] } with
      | .next t => some (t.results, t.requests, t.trace)
      | .fault _ => none
      | .refused _ => none) = some ([.refused .malformedRequest], [[0x05]], []) := by decide

/-- The engine runs the frames of a transfer in order, one a step (45_engine_frames.md R149). -/
theorem test_step_frame :
    (match step { engineAt false false with
                  engine := { Engine.reset with inbox := [[0x4B, 0x00, 0x81, 0x8E, 0x03]] } } with
      | .next t => some (levels t, t.engine.inbox)
      | .fault _ => none
      | .refused _ => none) = some ([(true, true)], [[0x8E, 0x03]]) := by decide

/-! ### Witnesses: a concrete input that meets the hypotheses of each statement that has some, clause by clause -/

/-- A READY block whose next flush answers are these. -/
def flushing (answers : List Int) : State :=
  { ready (bytesAt 0 [0x5A]) with inputs := { Inputs.free with flush := answers, target := .loopback } }

/-- A READY block with 9 TDI bits at 0, whose next reads answer these. -/
def reading (answers : List ReadAnswer) : State :=
  { ready (bytesAt 0 [0xC3, 0x01]) with inputs := { Inputs.free with read := answers, target := .loopback } }

theorem witness_DecodeEncodeRequests :
    (Instr.init 0 (2 ^ 64 - 1)).isRequest = true ∧ (Instr.init 0 (2 ^ 64 - 1)).wellFormed = true ∧
    (Instr.dataShift (some ⟨2 ^ 64 - 1, 0⟩) none 0 true).isRequest = true ∧
    (Instr.dataShift (some ⟨2 ^ 64 - 1, 0⟩) none 0 true).wellFormed = true := by decide

theorem witness_DecodeEncodeFrames :
    ((Instr.opClkBytes 65536).isRequest = false ∧ (Instr.opClkBytes 65536).wellFormed = true ∧
      (Instr.opTmsWr true 6 0xFF).isRequest = false ∧ (Instr.opTmsWr true 6 0xFF).wellFormed = true) ∧
    OpCodes.defaults.distinct = true ∧ ((tagRows ++ opRows OpCodes.defaults).map (·.value)).Nodup := by decide

theorem witness_DecodedBytesAreTheEncoding :
    decode OpCodes.defaults [0x8E, 0x07, 0x84] = .ok (.opClkBits 8, [0x84]) ∧ decodeRequest [0x05] = some .teardown ∧
    decodeFrame OpCodes.defaults [0x8E, 0x07, 0x84] = some (.opClkBits 8, [0x84]) := by decide

theorem witness_MultiByteCountsAreLittleEndian :
    (1 ≤ 1 ∧ 1 ≤ 65536 ∧ [(0xA5 : Byte)].length = 1) ∧
    1 ≤ 65536 ∧ 65536 ≤ 65536 ∧ (List.replicate 65536 (0xA5 : Byte)).length = 65536 :=
  ⟨by decide, by decide, by decide, List.length_replicate⟩

theorem witness_TmsFrameFormat :
    (6 * 0 < 1 ∧ 0 < min 6 (1 - 6 * 0) ∧ min 6 (1 - 6 * 0) ≤ 1 ∧ 1 < 7) ∧
    6 * 2 < 18 ∧ 5 < min 6 (18 - 6 * 2) ∧ min 6 (18 - 6 * 2) ≤ 6 ∧ 6 < 7 := by decide

theorem witness_StepRunsDecodedInstruction :
    ({ ready [] with requests := [[0x05]] }.engine.inbox = [] ∧
      { ready [] with requests := [[0x05]] }.requests = [0x05] :: [] ∧ decodeRequest [0x05] = some .teardown) ∧
    ({ ready [] with engine := { Engine.reset with inbox := [[0x8E, 0x07, 0x84]] } }.engine.inbox =
        [0x8E, 0x07, 0x84] :: [] ∧
      decodeFrame (ready []).cfg.ops [0x8E, 0x07, 0x84] = some (.opClkBits 8, [0x84])) ∧
    { ready [] with engine := { Engine.reset with inbox := [[]] } }.engine.inbox = [] :: [] := by decide

theorem witness_BytesThatAreNoInstruction :
    ({ ready [] with requests := [[0x06]] }.engine.inbox = [] ∧
      { ready [] with requests := [[0x06]] }.requests = [0x06] :: [] ∧
      ∀ i : Instr, i.isRequest = true → i.wellFormed = true → [0x06] ≠ encode (ready []).cfg.ops i) ∧
    [(0x85 : Byte)] ≠ [] ∧
    { ready [] with engine := { Engine.reset with inbox := [[0x85]] } }.engine.inbox = [0x85] :: [] ∧
    ∀ (i : Instr) (rest : List Byte), i.isRequest = false → i.wellFormed = true →
      [0x85] ≠ encode (ready []).cfg.ops i ++ rest := by
  have key : ∀ b ∈ (opRows (ready []).cfg.ops).map (·.value), (0x85 : Byte) ≠ b := by decide
  refine ⟨⟨rfl, rfl, fun i hr _ h => ?_⟩, by decide, rfl, fun i rest hr _ h => ?_⟩
  · cases i <;> first | (cases hr; done) | simp [encode] at h
  · obtain ⟨b, bs, he, hm⟩ := encode_first i (ready []).cfg.ops
    rw [hr] at hm
    have hb : b ∈ (opRows (ready []).cfg.ops).map (·.value) := List.mem_map_of_mem hm
    rw [he] at h
    exact key b hb (by simpa using (List.cons.inj h).1)

theorem witness_StepKeepsInvariant :
    Inv { ready (bytesAt 0 [0x5A]) with requests := [encode Config.vectors.ops (.tmsShift ⟨0, 1⟩ 8)] } ∧
    ∃ t, step { ready (bytesAt 0 [0x5A]) with requests := [encode Config.vectors.ops (.tmsShift ⟨0, 1⟩ 8)] } = .next t ∧
      t.results = [.ok (.value 8)] :=
  ⟨⟨by decide, rfl, ⟨by decide, rfl⟩, rfl⟩, _, rfl, by decide⟩

theorem witness_NoWorkOutsideReady :
    State.reset.phase ≠ .ready ∧ { ready [] with phase := .closed }.phase ≠ .ready ∧ (ready []).phase ≠ .uninit := by
  decide

theorem witness_ConfigurationIsNeverWritten : ∃ t, exec (.init 7 9) (fresh [true] [none]) = .next t ∧ t.phase = .ready :=
  ⟨_, rfl, by decide⟩

theorem witness_QuirkIsReadOnlyAfterInit :
    (readyWith 7 true []).phase ≠ .uninit ∧ ∃ t, exec .teardown (readyWith 7 true []) = .next t :=
  ⟨by decide, _, rfl⟩

theorem witness_PhaseMovesAsDrawn : ∃ t, exec (.dataShift none none 0 false) (ready []) = .next t ∧ t.phase = .failed :=
  ⟨_, rfl, by decide⟩

/-- Each clause of the statement: a fault that is there already, and one that is written. -/
theorem witness_FaultIsSticky :
    ({ ready [] with fault := some (.transportFailure .configure) }.fault = some (.transportFailure .configure) ∧
      ∃ t, exec (.dataShift none none 0 false) { ready [] with fault := some (.transportFailure .configure) } = .next t) ∧
    ∃ t, exec (.dataShift none none 0 false) (ready []) = .next t ∧ t.fault ≠ (ready []).fault :=
  ⟨⟨rfl, _, rfl⟩, _, rfl, by decide⟩

theorem witness_LogsAreAppendOnly : ∃ t, exec (.clockTick true false 5) (ready []) = .next t ∧ t.trace.length = 2 :=
  ⟨_, rfl, by decide⟩

theorem witness_EveryRequestHasOneOutcome :
    (Instr.clockTick true false 5).isRequest = true ∧
    ∃ t, exec (.clockTick true false 5) (ready []) = .next t ∧ t.results = (ready []).results ++ [.ok (.value 5)] :=
  ⟨rfl, _, rfl, by decide⟩

theorem witness_RefusalWritesNothing :
    (Instr.clockTick true false 524296).isRequest = true ∧
    ∃ t, exec (.clockTick true false 524296) (ready []) = .next t ∧
      t.results = (ready []).results ++ [.refused .clockTooLong] :=
  ⟨rfl, _, rfl, by decide⟩

/-- A flush of 3 bytes that answers 2 (V-CLK-11), a capture read that fails, and a configure that fails, all on the
reference engine. -/
theorem witness_FatalErrorEndsAtTheFailingCall :
    ((Instr.clockTick true false 20).isRequest = true ∧ (flushing [2]).pending = [] ∧
      (flushing [2]).oracle = .reference ∧
      ∃ t, exec (.clockTick true false 20) (flushing [2]) = .next t ∧
        t.results = (flushing [2]).results ++ [.err (.transportFailure (.flush 3 2))]) ∧
    ((reading [none]).pending = [] ∧ (reading [none]).oracle = .reference ∧
      ∃ t, exec (.dataShift (some ⟨0, 2⟩) (some ⟨2, 2⟩) 9 true) (reading [none]) = .next t ∧
        t.results = (reading [none]).results ++ [.err (.transportFailure (.read 1 none))]) ∧
    let s : State := { fresh [false] [] with oracle := .reference }
    s.pending = [] ∧ s.oracle = .reference ∧
    ∃ t, exec (.init 7 9) s = .next t ∧ t.results = s.results ++ [.err (.transportFailure .configure)] :=
  ⟨⟨rfl, rfl, rfl, _, rfl, by decide⟩, ⟨rfl, rfl, _, rfl, by decide⟩, rfl, rfl, _, rfl, by decide⟩

theorem witness_ConsistencyFailureComesFirst :
    ((Instr.dataShift none none 0 true).isRequest = true ∧
      ∃ t, exec (.dataShift none none 0 true) (ready []) = .next t ∧
        t.results = (ready []).results ++ [.err (.protocolConsistencyFailure (.lenZero 0 true))]) ∧
    dataAdmitted (some ⟨0, 0⟩) (some ⟨0, 0⟩) 0 (ready []) := by
  refine ⟨⟨rfl, _, rfl, by decide⟩, rfl, by decide, ?_, ?_, ?_⟩
  · intro b h
    cases h
    decide
  · intro b h
    cases h
    decide
  · intro a b ha hb h
    cases ha
    obtain ⟨x, hx, -⟩ := h
    dsimp only at hx
    omega

theorem witness_RequestFrames :
    ((Instr.tmsShift ⟨0, 1⟩ 8).isRequest = true ∧ (flushing []).quirk = false ∧ (flushing []).pending = [] ∧
      ∃ t, exec (.tmsShift ⟨0, 1⟩ 8) (flushing []) = .next t ∧ ∀ e, t.results ≠ (flushing []).results ++ [.err e]) ∧
    (Instr.init 7 9).isRequest = true ∧ ∃ t, exec (.init 7 9) (fresh [true] [none]) = .next t := by
  refine ⟨⟨rfl, rfl, rfl, _, rfl, ?_⟩, rfl, _, rfl⟩
  intro e h
  have hr : (finish (tmsBody (bufBit (flushing []).mem ⟨0, 1⟩) 8 (flushing []))).results = [.ok (.value 8)] := by decide
  exact absurd (hr.symm.trans h) (by simp [flushing, ready, State.reset, State.resetWith])

theorem witness_FlushSendsWhatIsPending : (ready []).pending = [] ∧ (enq [0x84] (ready [])).pending ≠ [] := by decide

theorem witness_ReadBackNeedsEveryByte :
    (∃ e u, flush (enq [0x84] (flushing [0])) = .err e u) ∧
    (∃ u, flush (ready []) = .ok () u) ∧ (some [(0xC3 : Byte)]).map List.length = some 1 :=
  ⟨⟨_, _, rfl⟩, ⟨_, rfl⟩, rfl⟩

theorem witness_DrainReadIsNotFatal :
    (∃ e u, flush (enq [0x84] (flushing [0])) = .err e u) ∧ (∃ u, flush (ready []) = .ok () u) ∧
    (∃ bs, (some [(0xC3 : Byte)]) = some bs ∧ bs.length = 1) ∧ (∀ bs, (none : ReadAnswer) = some bs → bs.length ≠ 1) ∧
    (readyWith 7 true []).quirk = true ∧ (ready []).quirk = false :=
  ⟨⟨_, _, rfl⟩, ⟨_, rfl⟩, ⟨_, rfl, rfl⟩, fun _ h => (by cases h), rfl, rfl⟩

/-- Both answers scripted; and both the reference engine's own. -/
theorem witness_InitConfiguresThenReadsIdentity :
    ((fresh [true] [some "Other"]).phase = .uninit ∧ 4 ≤ (fresh [true] [some "Other"]).cfg.bufSize ∧
      (fresh [true] [some "Other"]).cfg.bufSize ≤ 65539 ∧ (fresh [true] [some "Other"]).inputs.configure = true :: [] ∧
      (fresh [true] [some "Other"]).inputs.identity = some "Other" :: []) ∧
    let s : State := { fresh [] [] with oracle := .reference }
    s.phase = .uninit ∧ 4 ≤ s.cfg.bufSize ∧ s.cfg.bufSize ≤ 65539 ∧ (s.inputs.configure = [] ∧ s.oracle = .reference) ∧
      s.inputs.identity = [] ∧ s.oracle = .reference ∧ Config.vectors.productName = s.cfg.productName := by decide

theorem witness_InitFailsWithConfigure :
    (fresh [false] []).phase = .uninit ∧ 4 ≤ (fresh [false] []).cfg.bufSize ∧ (fresh [false] []).cfg.bufSize ≤ 65539 ∧
    (fresh [false] []).inputs.configure = false :: [] := by decide

/-- B = 3 and B = 65540 are out of range; P = 0 and 10 + P > B. -/
theorem witness_InitAndTeardownAdmission :
    ((State.resetWith { Config.vectors with bufSize := 3 }).phase = .uninit ∧ ¬ (4 ≤ 3 ∧ 3 ≤ 65539) ∧
      ¬ (4 ≤ 65540 ∧ 65540 ≤ 65539)) ∧
    (State.reset.phase = .uninit ∨ State.reset.phase = .closed) ∧
    ((readyWith 7 false []).phase = .ready ∨ (readyWith 7 false []).phase = .failed) ∧
    ¬ (1 ≤ (readyWith 7 false []).cfg.probe.length ∧ (readyWith 7 false []).cfg.probe.length ≤ 65536 ∧
      10 + (readyWith 7 false []).cfg.probe.length ≤ (readyWith 7 false []).cfg.bufSize) := by decide

theorem witness_TmsShiftRefusals :
    State.reset.phase ≠ .ready ∧ ((ready []).phase = .ready ∧ 2 ^ 31 ≤ 2 ^ 31) ∧
    (ready []).phase = .ready ∧ 2 ^ 31 - 1 < 2 ^ 31 ∧ (⟨0, 2 ^ 28 - 1⟩ : Buf).size < (2 ^ 31 - 1 + 7) / 8 := by decide

theorem witness_TmsShiftOfNothing : (readyWith 7 true []).phase = .ready := by decide

theorem witness_TmsShiftCompletes :
    flushesSucceed (readyWith 7 true (bytesAt 0 [0xFF, 0x1F])) ∧
    (readyWith 7 true (bytesAt 0 [0xFF, 0x1F])).phase = .ready ∧ 13 < 2 ^ 31 ∧ (13 + 7) / 8 ≤ (⟨0, 2⟩ : Buf).size ∧
    (readyWith 7 true (bytesAt 0 [0xFF, 0x1F])).pending = [] :=
  ⟨⟨rfl, rfl⟩, rfl, by decide, by decide, rfl⟩

theorem witness_TmsFramesReproduceTheInput :
    ∃ t, exec (.tmsShift ⟨0, 1⟩ 8) (flushing []) = .next t ∧ t.results = (flushing []).results ++ [.ok (.value 8)] :=
  ⟨_, rfl, by decide⟩

/-- Two memories that differ above bit 4 of the buffer's byte. -/
theorem witness_TmsShiftReadsOnlyItsBits :
    (∀ i < 5, bufBit (bytesAt 0 [0xFA]) ⟨0, 1⟩ i = bufBit (ready (bytesAt 0 [0x5A])).mem ⟨0, 1⟩ i) ∧
    bytesAt 0 [0xFA] ≠ bytesAt 0 [0x5A] := by decide

theorem witness_ClockTickRefusals :
    State.reset.phase ≠ .ready ∧ ((ready []).phase = .ready ∧ 2 ^ 31 ≤ 2 ^ 31) ∧
    ((readyWith 7 true []).phase = .ready ∧ 5 < 2 ^ 31 ∧ (readyWith 7 true []).cfg.clkOnlyCapable = true ∧
      (readyWith 7 true []).quirk = true) ∧
    (ready []).phase = .ready ∧ 524296 < 2 ^ 31 ∧ (ready []).cfg.clkOnlyCapable = true ∧ (ready []).quirk = false ∧
    65536 < 524296 / 8 := by decide

theorem witness_ClockFastPath :
    flushesSucceed (ready []) ∧ (ready []).phase = .ready ∧ 524295 < 524296 ∧ (ready []).cfg.clkOnlyCapable = true ∧
    (ready []).quirk = false ∧ (ready []).pending = [] :=
  ⟨⟨rfl, rfl⟩, rfl, by decide, rfl, rfl, rfl⟩

/-- V-CLK-9's level and count, over a memory that lists nothing. -/
theorem witness_ClockFallbackIsTmsShift :
    { ready [] with cfg := { Config.vectors with clkOnlyCapable := false } }.cfg.clkOnlyCapable = false ∧
    (10 + 7) / 8 ≤ (⟨0, 2⟩ : Buf).size ∧ ∀ i < 10, bufBit (bytesAt 0 [0xFF, 0x03]) ⟨0, 2⟩ i = true := by decide

theorem witness_DataShiftRefusals :
    State.reset.phase ≠ .ready ∧ ((ready []).phase = .ready ∧ 2 ^ 31 ≤ 2 ^ 31) ∧
    ((ready []).phase = .ready ∧ 9 < 2 ^ 31 ∧
      ∃ b, (some (⟨0, 1⟩ : Buf) = some b ∨ (none : Option Buf) = some b) ∧ b.size < (9 + 7) / 8) ∧
    (ready []).phase = .ready ∧ 8 < 2 ^ 31 ∧
    (∀ b, some (⟨0, 2⟩ : Buf) = some b ∨ some (⟨1, 1⟩ : Buf) = some b → (8 + 7) / 8 ≤ b.size) ∧
    ∃ a b, some (⟨0, 2⟩ : Buf) = some a ∧ some (⟨1, 1⟩ : Buf) = some b ∧ shareByte a b := by
  refine ⟨by decide, ⟨rfl, by decide⟩, ⟨rfl, by decide, _, .inl rfl, by decide⟩, rfl, by decide, ?_,
    _, _, rfl, rfl, 1, by decide, by decide⟩
  intro b h
  rcases h with h | h <;> cases h <;> decide

theorem witness_DataShiftWritesOnly :
    flushesSucceed (readyWith 7 true (bytesAt 0 [0xFF, 0x0A])) ∧
    dataAdmitted (some ⟨0, 2⟩) none 12 (readyWith 7 true (bytesAt 0 [0xFF, 0x0A])) ∧ 12 ≠ 0 ∧
    (readyWith 7 true (bytesAt 0 [0xFF, 0x0A])).pending = [] := by
  refine ⟨⟨rfl, rfl⟩, ⟨rfl, by decide, ?_, fun b h => (by cases h), fun a b _ h => (by cases h)⟩, by decide, rfl⟩
  intro b h
  cases h
  decide

/-- V-DAT-14's admission: 9 bits with an exit, the buffers next to each other. -/
theorem admitted_9 (answers : List ReadAnswer) :
    dataAdmitted (some ⟨0, 2⟩) (some ⟨2, 2⟩) 9 (reading answers) := by
  refine ⟨rfl, by decide, ?_, ?_, ?_⟩
  · intro b h
    cases h
    decide
  · intro b h
    cases h
    decide
  · intro a b ha hb h
    cases ha
    cases hb
    obtain ⟨x, hx, hy⟩ := h
    dsimp only at hx hy
    omega

/-- V-DAT-14 with its answers scripted (no residual bits), and the case of residual bits. -/
theorem witness_DataShiftStoresWhatItReads :
    (flushesSucceed (reading [some [0xC3], some [0x80]]) ∧ 4 ≤ (reading [some [0xC3], some [0x80]]).cfg.bufSize ∧
      dataAdmitted (some ⟨0, 2⟩) (some ⟨2, 2⟩) 9 (reading [some [0xC3], some [0x80]]) ∧ 9 ≠ 0 ∧
      (reading [some [0xC3], some [0x80]]).pending = [] ∧ (reading [some [0xC3], some [0x80]]).mem.wf ∧
      [[(0xC3 : Byte)]].map List.length = chunkSizes (realLen 9 true / 8) (realLen 9 true / 8) (4096 - 3) ∧
      (reading [some [0xC3], some [0x80]]).inputs.read =
        [[(0xC3 : Byte)]].map some ++ ((if realLen 9 true % 8 = 0 then [] else [some [0]]) ++
          ((if true then [some [0x80]] else []) ++ []))) ∧
    realLen 12 true % 8 ≠ 0 ∧
    [some [(0xFF : Byte)], some [0x40], some [0x80]] =
      [[(0xFF : Byte)]].map some ++ ((if realLen 12 true % 8 = 0 then [] else [some [0x40]]) ++
        ((if true then [some [0x80]] else []) ++ [])) :=
  ⟨⟨⟨rfl, rfl⟩, by decide, admitted_9 _, by decide, rfl, by decide, by decide, by decide⟩, by decide, by decide⟩

/-- A run that completes, and one whose residual step fails after a chunk that was stored: 9 bits, the second read an
error. -/
theorem witness_DataShiftMemoryFrame :
    ((reading []).mem.wf ∧ (∃ t, exec (.dataShift (some ⟨0, 2⟩) (some ⟨2, 2⟩) 9 true) (reading []) = .next t) ∧
      ∀ b, some (⟨2, 2⟩ : Buf) = some b → ¬ (b.base ≤ 4 ∧ 4 < b.base + tdoWritten 9 true)) ∧
    ∃ t, exec (.dataShift (some ⟨0, 2⟩) (some ⟨2, 2⟩) 9 false) (reading [some [0xC3], none]) = .next t ∧
      t.phase = .failed ∧ fullReads t.trace = [[0xC3]] ∧
      (chunkSizes (realLen 9 false / 8) (realLen 9 false / 8) (4096 - 3)).length = 1 := by
  refine ⟨⟨by decide, ⟨_, rfl⟩, ?_⟩, _, rfl, by decide, by decide, by decide⟩
  intro b h
  cases h
  decide

theorem witness_ChunksCoverEveryByte :
    1 ≤ 4 ∧ 2 < (chunkSizes 10 10 4).length ∧ 1 + 1 < (chunkSizes 10 10 4).length := by decide

theorem witness_CapturedBitsLandInPlace : (7 < 8 ∧ (List.replicate 7 true).length = 7) ∧ 0 < 8 ∧ ([] : List Bool).length = 0 := by
  decide

theorem witness_LoopbackReturnsWhatWasSent :
    flushesSucceed (reading []) ∧ engineIdle (reading []) ∧ loopedBack (reading []) ∧
    (reading []).cfg.ops.distinct = true ∧ (reading []).inputs.read = [] ∧
    4 ≤ (reading []).cfg.bufSize ∧ (reading []).cfg.bufSize ≤ 65539 ∧
    dataAdmitted (some ⟨0, 2⟩) (some ⟨2, 2⟩) 9 (reading []) ∧ 9 ≠ 0 ∧ (reading []).pending = [] ∧ (reading []).mem.wf ∧
    realLen 9 true % 8 = 0 ∧ realLen 9 false % 8 ≠ 0 ∧ realLen 12 true % 8 ≠ 0 :=
  ⟨⟨rfl, rfl⟩, ⟨rfl, rfl, rfl⟩, .inr rfl, by decide, rfl, by decide, by decide, admitted_9 [], by decide, rfl, by decide,
    by decide, by decide, by decide⟩

/-- A READY block whose next flush and next read answer these. -/
def closing (flushed : Int) (answer : ReadAnswer) : State :=
  { ready [] with inputs := { Inputs.free with flush := [flushed], read := [answer] } }

/-- V-TD-2: the flush of 15 bytes answers 14; and one that answers 15, on an idle reference engine. -/
theorem witness_TeardownSelfTest :
    (((closing 14 (some [0])).phase = .ready ∨ (closing 14 (some [0])).phase = .failed) ∧
      1 ≤ (closing 14 (some [0])).cfg.probe.length ∧ (closing 14 (some [0])).cfg.probe.length ≤ 65536 ∧
      10 + (closing 14 (some [0])).cfg.probe.length ≤ (closing 14 (some [0])).cfg.bufSize ∧
      (closing 14 (some [0])).pending = [] ∧ (closing 14 (some [0])).inputs.flush = 14 :: [] ∧
      (closing 14 (some [0])).inputs.read = some [0] :: []) ∧
    (closing 15 none).inputs.flush = 15 :: [] ∧ (closing 15 none).inputs.read = none :: [] ∧
    (closing 15 none).oracle = .reference ∧ (closing 15 none).engine.inbox = [] ∧
    (closing 15 none).engine.sync = true ∧ (closing 15 none).cfg.ops.distinct = true ∧
    (15 : Int) = ((10 + (closing 15 none).cfg.probe.length : Nat) : Int) := by decide

theorem witness_TmsFrameWaveform : (1 ≤ 1 ∧ 1 ≤ 6) ∧ 1 ≤ 6 ∧ 6 ≤ 6 := by decide

theorem witness_ExitFrameCaptures : (1 ≤ 1 ∧ 1 ≤ 6) ∧ 1 ≤ 6 ∧ 6 ≤ 6 := by decide

theorem witness_ByteWriteWaveform : 1 ≤ [(0xA5 : Byte)].length := by decide

theorem witness_BitFrames :
    (1 ≤ 5 ∧ 5 ≤ 8) ∧ ∀ j < 5, (0xE9 : Byte).getLsbD j = (0x09 : Byte).getLsbD j := by decide

theorem witness_LoopbackSamplesTdi :
    (Instr.opTmsWr false 1 0x81).isRequest = false ∧ loopedBack (ready []) ∧
    loopedBack { ready [] with engine := { Engine.reset with loop := true } } ∧
    ∃ t, exec (.opTmsWr false 1 0x81) (ready []) = .next t :=
  ⟨rfl, .inr rfl, .inl rfl, _, rfl⟩

theorem witness_FramesMakeTheirPulses :
    (Instr.opByteWr true [0xA5]).isRequest = false ∧ ∃ t, exec (.opByteWr true [0xA5]) (ready []) = .next t :=
  ⟨rfl, _, rfl⟩

/-- A block whose engine stands in this transfer. -/
def within (quirkedChip captured : Bool) (transfer : List Byte) : State :=
  { ready [] with
    cfg := { Config.vectors with quirkedChip := quirkedChip }
    inputs := { Inputs.free with chipResponses := [[0x12, 0x34]] }
    engine := { Engine.reset with inbox := [transfer], captured := captured } }

/-- Each clause: the end of a transfer that captured nothing, of one that captured, on a chip that is not quirked, a
transfer that is not at its end, and reads of two of three response bytes, of all of them and of none. -/
theorem witness_QuirkedChipAddsResponses :
    ((Instr.opTmsWr false 1 0x81).isRequest = false ∧
      ∃ t, exec (.opTmsWr false 1 0x81) (ready []) = .next t ∧ t.engine.captured = true) ∧
    ((within true false []).engine.inbox = [] :: [] ∧ (within true false []).cfg.quirkedChip = true ∧
      (within true false []).engine.captured = false ∧
      (within true false []).inputs.chipResponses = [0x12, 0x34] :: []) ∧
    (within true true []).engine.captured = true ∧ (within false false []).cfg.quirkedChip = false ∧
    (within true false [0x84]).engine.inbox = (0x84 :: []) :: [] ∧
    let s : State := { ready [] with engine := { Engine.reset with resp := [0x12, 0x34, 0x56] } }
    s.oracle = .reference ∧ s.inputs.read = [] ∧ s.engine.inbox = [] ∧ s.engine.sync = true ∧
      2 ≤ s.engine.resp.length ∧ 3 ≤ s.engine.resp.length ∧ 0 ≤ s.engine.resp.length :=
  ⟨⟨rfl, _, rfl, rfl⟩, by decide⟩

theorem witness_TmsWaveformIsTheInput :
    (flushing []).oracle = .reference ∧ (flushing []).engine.inbox = [] ∧ (flushing []).engine.sync = true ∧
    (flushing []).cfg.ops.distinct = true ∧ (flushing []).pending = [] ∧
    ∃ t, exec (.tmsShift ⟨0, 1⟩ 8) (flushing []) = .next t ∧ t.results = (flushing []).results ++ [.ok (.value 8)] :=
  ⟨rfl, rfl, rfl, by decide, rfl, _, rfl, by decide⟩

theorem witness_ClockTickMakesCountPulses :
    ((ready []).oracle = .reference ∧ (ready []).engine.inbox = [] ∧ (ready []).engine.sync = true ∧
      (ready []).cfg.ops.distinct = true ∧ (ready []).pending = [] ∧ (ready []).cfg.clkOnlyCapable = true ∧
      ∃ t, exec (.clockTick true false 20) (ready []) = .next t ∧ t.results = (ready []).results ++ [.ok (.value 20)]) ∧
    let s : State := { ready [] with cfg := { Config.vectors with clkOnlyCapable := false } }
    s.cfg.clkOnlyCapable = false ∧ ∃ t, exec (.clockTick true false 20) s = .next t ∧ t.results = s.results ++ [.ok (.value 20)] :=
  ⟨⟨rfl, rfl, rfl, by decide, rfl, rfl, _, rfl, by decide⟩, rfl, _, rfl, by decide⟩

/-- With TDI; with TDO alone; with neither and more than an exit bit. -/
theorem witness_DataWaveformIsTheInput :
    ((reading []).oracle = .reference ∧ (reading []).engine.inbox = [] ∧ (reading []).engine.sync = true ∧
      (reading []).cfg.ops.distinct = true ∧ (reading []).pending = [] ∧ 4 ≤ (reading []).cfg.bufSize ∧
      (reading []).cfg.bufSize ≤ 65539 ∧ (reading []).mem.wf) ∧
    (∃ t, exec (.dataShift (some ⟨0, 2⟩) none 9 true) (reading []) = .next t ∧
      t.results = (reading []).results ++ [.ok (.value 0)]) ∧
    (∃ t, exec (.dataShift none (some ⟨2, 2⟩) 9 true) (reading [some [0], some [0]]) = .next t ∧
      t.results = (reading [some [0], some [0]]).results ++ [.ok (.value 0)]) ∧
    (∃ t, exec (.dataShift none none 1 true) (reading []) = .next t ∧
      t.results = (reading []).results ++ [.ok (.value 0)] ∧ realLen 1 true = 0) ∧
    ∃ t, exec (.dataShift none none 9 true) (reading []) = .next t ∧
      t.results = (reading []).results ++ [.ok (.value 0)] ∧ realLen 9 true ≠ 0 :=
  ⟨⟨rfl, rfl, rfl, by decide, rfl, by decide, by decide, by decide⟩, ⟨_, rfl, by decide⟩, ⟨_, rfl, by decide⟩,
    ⟨_, rfl, by decide, by decide⟩, _, rfl, by decide, by decide⟩

end Sys2Proof.Tests
end

section
/-! PROOFS. What an instruction can do to the block's registers, said once for all twenty; and from it, that `quirk` is
read-only after INIT (10_state.md R27). -/

namespace Sys2Proof.Machine

/-! ### A request that is admitted finds the phase it needs -/

theorem phase_of_tmsRefusal_none {tms : Buf} {len : Nat} {s : State} (h : tmsRefusal tms len s = none) :
    s.phase = .ready := by
  by_contra hp
  simp [tmsRefusal, hp] at h

theorem phase_of_clockRefusal_none {count : Nat} {s : State} (h : clockRefusal count s = none) : s.phase = .ready := by
  by_contra hp
  simp [clockRefusal, hp] at h

theorem phase_of_dataRefusal_none {tdi tdo : Option Buf} {len : Nat} {s : State}
    (h : dataRefusal tdi tdo len s = none) : s.phase = .ready := by
  by_contra hp
  simp [dataRefusal, hp] at h

theorem phase_of_initRefusal_none {s : State} (h : initRefusal s = none) : s.phase = .uninit := by
  by_contra hp
  simp [initRefusal, hp] at h

/-! ### What an instruction can do -/

/-- The ways in which instruction `i` can take `s` to a next state: a frame moves the engine only; a request is refused;
an admitted INIT runs its body; an admitted TMS_SHIFT, CLOCK_TICK or DATA_SHIFT does its work and finishes; TEARDOWN has
nothing to do, or makes the self-test and closes. -/
inductive Ending (i : Instr) (s : State) : State → Prop
  | frame {t : State} (hi : i.isRequest = false) (ht : engineOnly s t) : Ending i s t
  | refused (hi : i.isRequest = true) (reason : RefusedReason) : Ending i s (refuse reason s)
  | initialized (pinCfg clockHz : Nat) (hi : i = .init pinCfg clockHz) (hs : s.phase = .uninit) :
      Ending i s (finish (initBody pinCfg clockHz s))
  | shifted (r : Res OkValue) (hi : i.isRequest = true) (hn : i ≠ .teardown) (hs : s.phase = .ready)
      (hr : worked s r.state) : Ending i s (finish r)
  | nothingToClose (hi : i = .teardown) (hs : s.phase = .uninit ∨ s.phase = .closed) :
      Ending i s (s.addResult (.ok .unit))
  | closed (hi : i = .teardown) (hs : s.phase = .ready ∨ s.phase = .failed) :
      Ending i s (((selfTest s).setPhase .closed).addResult (.ok .unit))

theorem execInit_ending {pinCfg clockHz : Nat} {s t : State} (h : execInit pinCfg clockHz s = .next t) :
    Ending (.init pinCfg clockHz) s t := by
  unfold execInit at h
  cases h
  split
  · next reason _ => exact .refused rfl reason
  · next hr => exact .initialized pinCfg clockHz rfl (phase_of_initRefusal_none hr)

theorem execTmsShift_ending {tms : Buf} {len : Nat} {s t : State} (h : execTmsShift tms len s = .next t) :
    Ending (.tmsShift tms len) s t := by
  unfold execTmsShift at h
  cases h
  split
  · next reason _ => exact .refused rfl reason
  · next hr => exact .shifted _ rfl nofun (phase_of_tmsRefusal_none hr) (tmsBody_worked _ len s)

theorem execClockTick_ending {tmsLevel tdiLevel : Bool} {count : Nat} {s t : State}
    (h : execClockTick tmsLevel tdiLevel count s = .next t) : Ending (.clockTick tmsLevel tdiLevel count) s t := by
  unfold execClockTick at h
  cases h
  split
  · next reason _ => exact .refused rfl reason
  · next hr =>
    refine .shifted _ rfl nofun (phase_of_clockRefusal_none hr) ?_
    split
    · exact (clockFast_state count s).1
    · exact tmsBody_worked _ count s

theorem execDataShift_ending {tdi tdo : Option Buf} {len : Nat} {last : Bool} {s t : State}
    (h : execDataShift tdi tdo len last s = .next t) : Ending (.dataShift tdi tdo len last) s t := by
  unfold execDataShift at h
  cases h
  split
  · next reason _ => exact .refused rfl reason
  · next hr => exact .shifted _ rfl nofun (phase_of_dataRefusal_none hr) (dataBody_worked tdi tdo len last s)

theorem execTeardown_ending {s t : State} (h : execTeardown s = .next t) : Ending .teardown s t := by
  unfold execTeardown at h
  cases h
  split
  · next hs => exact .nothingToClose rfl (.inl hs)
  · next hs => exact .nothingToClose rfl (.inr hs)
  · next hs =>
    split
    · exact .closed rfl (.inl hs)
    · exact .refused rfl .config
  · next hs =>
    split
    · exact .closed rfl (.inr hs)
    · exact .refused rfl .config

/-- All that an instruction that answers a next state can have done. -/
theorem exec_ending {i : Instr} {s t : State} (h : exec i s = .next t) : Ending i s t := by
  cases hi : i.isRequest with
  | false => exact .frame hi (execFrame_engineOnly (exec_eq_execFrame hi s ▸ h))
  | true =>
    cases i with
    | init pinCfg clockHz => exact execInit_ending h
    | tmsShift tms len => exact execTmsShift_ending h
    | clockTick tmsLevel tdiLevel count => exact execClockTick_ending h
    | dataShift tdi tdo len last => exact execDataShift_ending h
    | teardown => exact execTeardown_ending h
    | _ => cases hi

/-! ### `quirk` after INIT -/

@[simp] theorem finish_quirk (r : Res OkValue) : (finish r).quirk = r.state.quirk := by
  cases r with
  | ok v s => rfl
  | err e s => exact raise_quirk e s

theorem finish_phase (r : Res OkValue) : (finish r).phase = r.state.phase ∨ (finish r).phase = .failed := by
  cases r with
  | ok v s => exact .inl rfl
  | err e s => exact .inr rfl

/-- Settles O14: of the ways an instruction can end only an admitted INIT writes `quirk`, and it needs UNINIT; and no
ending enters UNINIT. -/
theorem quirkIsReadOnlyAfterInit : Obligations.QuirkIsReadOnlyAfterInit := by
  intro i s t hs h
  cases exec_ending h with
  | frame _ ht =>
    obtain ⟨⟨-, -, -, -, hphase, hquirk, -⟩, -⟩ := ht
    exact ⟨hquirk, hphase ▸ hs⟩
  | refused _ reason => exact ⟨rfl, hs⟩
  | initialized _ _ _ hu => exact absurd hu hs
  | shifted r _ _ _ hr =>
    obtain ⟨-, -, -, hphase, hquirk, -⟩ := hr
    refine ⟨(finish_quirk r).trans hquirk, ?_⟩
    rcases finish_phase r with hp | hp
    · rwa [hp, hphase]
    · simp [hp]
  | nothingToClose => exact ⟨rfl, hs⟩
  | closed =>
    obtain ⟨-, -, -, -, hquirk, -⟩ := (selfTest_state s).1
    exact ⟨hquirk, nofun⟩

end Sys2Proof.Machine
end

section
/-! PROOFS. The count fields, and the primitives Enq, ReadBack, Drain and WriteDone (20_memory.md R50, R57, R60 to R62). -/

namespace Sys2Proof

/-! ### The 16-bit count fields -/

theorem byte_mod (v : Nat) : byte (v % 256) = byte v := by
  apply BitVec.eq_of_toNat_eq
  rw [byte_toNat, byte_toNat, Nat.mod_mod]

/-- A 16-bit count field: the low byte of the count minus one, then the high byte. -/
theorem byteCountBytes_eq (c : Nat) : byteCountBytes c = [byte ((c - 1) % 256), byte ((c - 1) / 256)] := by
  rw [byte_mod]
  rfl

theorem length_byteCountBytes (c : Nat) : (byteCountBytes c).length = 2 := length_leBytes 2 (c - 1)

/-- Settles O5: every frame and header has the one field `byteCountBytes c` after its opcode. -/
theorem multiByteCountsAreLittleEndian : Obligations.MultiByteCountsAreLittleEndian := by
  intro c _ _
  rw [← byteCountBytes_eq]
  refine ⟨fun o neg payload hc => ?_, fun cfg w rd => rfl⟩
  have htake : (byteCountBytes c ++ payload).take 2 = byteCountBytes c :=
    List.take_left' (length_byteCountBytes c)
  simp only [encode, List.tail_cons, hc, htake, List.replicate]

end Sys2Proof

namespace Sys2Proof.Machine

/-- Settles O24: `enq` is the two register updates. -/
theorem enqueueAppends : Obligations.EnqueueAppends := fun _ _ => rfl

/-! ### A primitive after its flush -/

theorem readBack_of_flush_err {n : Nat} {s u : State} {e : BlockError} (h : flush s = .err e u) :
    readBack n s = .err e u := by
  rw [readBack, h, Res.andThen]

theorem readBack_of_flush_ok {n : Nat} {s u : State} (h : flush s = .ok () u) : readBack n s = captureRead n u := by
  rw [readBack, h, Res.andThen]

theorem drain_of_flush_err {n : Nat} {s u : State} {e : BlockError} (h : flush s = .err e u) :
    drain n s = .err e u := by
  rw [drain, h, Res.andThen]

theorem drain_of_flush_ok {n : Nat} {s u : State} (h : flush s = .ok () u) :
    drain n s = .ok () (drainRead n u) := by
  rw [drain, h, Res.andThen]

theorem answersAll_iff {n : Nat} {a : ReadAnswer} : answersAll n a = true ↔ ∃ bs, a = some bs ∧ bs.length = n := by
  cases a <;> simp [answersAll]

theorem writeDone_of_quirk {n : Nat} {s : State} (h : s.quirk = true) : writeDone n s = drain n s := if_pos h

theorem writeDone_of_not_quirk {n : Nat} {s : State} (h : s.quirk = false) : writeDone n s = flush s := by
  rw [writeDone, h]
  rfl

/-- Settles O26: after its flush ReadBack is the capture read, whose answer decides how it ends. -/
theorem readBackNeedsEveryByte : Obligations.ReadBackNeedsEveryByte := by
  refine fun n s => ⟨fun e u => readBack_of_flush_err, fun u hu => ?_⟩
  obtain ⟨a, t, htrace, -, -, -, -, -, -, hread⟩ := captureRead_state n u
  rw [readBack_of_flush_ok hu, hread]
  refine ⟨a, t, htrace, ?_, fun hshort => ?_⟩
  · rintro bs rfl hlen
    exact if_pos hlen
  · cases a with
    | none => rfl
    | some bs => exact if_neg (hshort bs rfl)

/-- Settles O27: after its flush Drain is the drain read, which cannot fail; whether it answered in full decides the
diagnostic. -/
theorem drainReadIsNotFatal : Obligations.DrainReadIsNotFatal := by
  refine fun n s => ⟨fun e u => drain_of_flush_err, fun u hu => ?_, writeDone_of_quirk, writeDone_of_not_quirk⟩
  obtain ⟨a, htrace, hdiag, ⟨-, -, -, hphase, -, hfault, -⟩, hmem, -⟩ := drainRead_state n u
  refine ⟨a, drainRead n u, drain_of_flush_ok hu, htrace, hmem, hfault, hphase, fun hall => ?_, fun hshort => ?_⟩
  · rw [hdiag, if_pos (answersAll_iff.mpr hall), List.append_nil]
  · have hnot : ¬ answersAll n a = true := by
      rw [answersAll_iff]
      rintro ⟨bs, hbs, hlen⟩
      exact hshort bs hbs hlen
    rw [hdiag, if_neg hnot]

/-! ### Where captured bits land -/

theorem getLsbD_residualByte (nbBit : Nat) (b : Byte) (j : Nat) :
    (residualByte nbBit b).getLsbD j = b.getLsbD (8 - nbBit + j) := BitVec.getLsbD_ushiftRight b (8 - nbBit) j

/-- Of the mask of the exit capture only bit 7 is set. -/
theorem getLsbD_bit7 (k : Nat) : (0x80 : Byte).getLsbD k = decide (k = 7) := by
  by_cases hk : k < 8
  · interval_cases k <;> rfl
  · rw [BitVec.getLsbD_of_ge _ _ (by omega), decide_eq_false (by omega)]

/-- Settles O44: captured bit `j` of `m` is bit `8 - m + j` of its byte, and each shift moves what is below it out. -/
theorem capturedBitsLandInPlace : Obligations.CapturedBitsLandInPlace := by
  refine fun nbBit bits fill hnb hlen => ⟨fun j hj => ?_, fun bit j hj => ?_⟩
  · rw [getLsbD_residualByte]
    by_cases hjn : j < nbBit
    · exact getLsbD_leftPack (by omega) hjn
    · rw [BitVec.getLsbD_of_ge _ _ (by omega), List.getD_eq_default _ _ (by omega)]
  · rw [exitBit, BitVec.getLsbD_ushiftRight, BitVec.getLsbD_and, getLsbD_bit7]
    by_cases hjn : j = nbBit
    · have hbit : (leftPack 1 [bit] fill).getLsbD (8 - 1 + 0) = bit := getLsbD_leftPack (by omega) (by omega)
      rw [show 7 - nbBit + j = 8 - 1 + 0 by omega, hbit, decide_eq_true hjn, Bool.and_comm]
      rfl
    · rw [decide_eq_false hjn, decide_eq_false (show ¬ 7 - nbBit + j = 7 by omega), Bool.and_false, Bool.false_and]

end Sys2Proof.Machine
end

section
/-! PROOFS. A frame decodes from its encoding, and what the block enqueues for the steps of a DATA_SHIFT with TDI and TDO
are encodings of reading frames (30_encoding.md R82 to R86). -/

namespace Sys2Proof

/-- What follows the opcode of a well-formed frame decodes to the frame and leaves the bytes behind it. -/
theorem decodeFields_encode {o : OpCodes} {i : Instr} {op : Byte} {bs : List Byte} (rest : List Byte)
    (hi : i.isRequest = false) (hw : i.wellFormed = true) (he : encode o i = op :: bs) :
    decodeFields (readNegOf i) (bs ++ rest) (rowKind i) = some (i, rest) := by
  have hbits : ∀ {top m : Nat} (r : List Byte), 1 ≤ m ∧ m ≤ top → top ≤ 256 →
      takeBitCount top (bitCountByte m :: r) = some (m, r) :=
    fun r h h3 => takeBitCount_bitCountByte r h.1 h.2 h3
  have hbytes : ∀ {c : Nat} (r : List Byte), 1 ≤ c ∧ c ≤ 65536 →
      takeByteCount (byteCountBytes c ++ r) = some (c, r) :=
    fun r h => takeByteCount_byteCountBytes r h.1 h.2
  cases i with
  | init | tmsShift | clockTick | dataShift | teardown => cases hi
  | _ =>
    cases he
    simp only [Instr.wellFormed, tmsCount, bitCount, byteCount, decide_eq_true_eq] at hw
    simp [decodeFields, rowKind, readNegOf, takeByte, hbits, hbytes, hw, takeBytes_append]

/-- A well-formed frame is decoded at the head of a transfer, where no two opcodes are equal. -/
theorem decodeFrame_encode {o : OpCodes} {i : Instr} (rest : List Byte) (ho : o.distinct = true)
    (hi : i.isRequest = false) (hw : i.wellFormed = true) : decodeFrame o (encode o i ++ rest) = some (i, rest) := by
  obtain ⟨op, bs, he, hrow⟩ := encode_first i o
  rw [hi, if_neg Bool.false_ne_true] at hrow
  have hfind : rowOf (opRows o) op = some ⟨rowKind i, op, readNegOf i⟩ := rowOf_of_mem (of_decide_eq_true ho) hrow
  have hfields := decodeFields_encode rest hi hw he
  simp only [decodeFrame, he, List.cons_append, decodeBy, hfind, hfields]

end Sys2Proof

namespace Sys2Proof.Machine

/-- `op_data(1, 1, 0)` is `OP_DB_WR` and `op_data(1, 1, 1)` is `OP_Db_WR` (30_encoding.md R82). -/
theorem opData_writeRead (cfg : Config) (bm : Bool) :
    opData cfg true true bm = if bm then cfg.ops.bitWr cfg.rdNeg else cfg.ops.byteWr cfg.rdNeg := by
  cases bm
  · simp only [opData, flagIf, OpCodes.byteWr, OpCodes.readEdge, if_true, Bool.false_eq_true, if_false]
    ac_rfl
  · simp only [opData, flagIf, OpCodes.bitWr, OpCodes.readEdge, if_true]
    ac_rfl

/-- `op_exit(1)` is `OP_TMS_WR` (30_encoding.md R82). -/
theorem opExit_read (cfg : Config) : opExit cfg true = cfg.ops.tmsWr cfg.rdNeg := by
  simp only [opExit, flagIf, OpCodes.tmsWr, OpCodes.readEdge, if_true]
  ac_rfl

theorem byteHeader_append_eq_encode (cfg : Config) (payload : List Byte) :
    byteHeader cfg true true payload.length ++ payload = encode cfg.ops (.opByteWr cfg.rdNeg payload) := by
  simp [byteHeader, opData_writeRead, encode]

theorem bitHeader_append_eq_encode (cfg : Config) (m : Nat) (p : Byte) :
    bitHeader cfg true true m ++ [p] = encode cfg.ops (.opBitWr cfg.rdNeg m p) := by
  simp [bitHeader, opData_writeRead, encode]

theorem exitFrame_eq_encode (cfg : Config) (fb : Bool) :
    exitFrame cfg true fb = encode cfg.ops (.opTmsWr cfg.rdNeg 1 (0x01 ||| level7 fb)) := by
  rw [exitFrame, opExit_read]
  rfl

end Sys2Proof.Machine
end

section
/-! PROOFS. One step of a DATA_SHIFT on a looped-back reference engine: the engine answers the bits that the step's frame
sent (45_engine_frames.md R172). -/

namespace Sys2Proof.Machine

open Host (Outcome)

/-! ### A frame under loopback -/

/-- Under loopback the frame captures, and its response bytes meet `P`. -/
def Echoes (i : Instr) (P : List Byte → Prop) : Prop :=
  ∀ s, loopedBack s → ∃ t bs, execFrame i s = .next t ∧ t.engine.resp = s.engine.resp ++ bs ∧ P bs ∧
    t.engine.captured = true ∧ loopedBack t

theorem bitAt_byte (bs : List Byte) (i : Nat) {j : Nat} (hj : j < 8) :
    bitAt bs (8 * i + j) = (bs.getD i 0).getLsbD j := by
  rw [bitAt, show (8 * i + j) / 8 = i by omega, show (8 * i + j) % 8 = j by omega]

/-- Bytes whose bits are captured in order come back as they were. -/
theorem packBytes_allBits (bs : List Byte) : packBytes bs.length (allBits bs) = bs := by
  refine List.ext_getElem (length_packBytes _ _) fun i h1 h2 => BitVec.eq_of_getLsbD_eq fun j hj => ?_
  have hk : 8 * i + j < 8 * bs.length := by omega
  have hbit : bitAt (packBytes bs.length (allBits bs)) (8 * i + j) = bitAt bs (8 * i + j) := by
    rw [bitAt_packBytes hk, allBits, List.getD_eq_getElem _ _ (by simpa using hk)]
    simp
  rw [bitAt_byte _ _ hj, bitAt_byte _ _ hj, List.getD_eq_getElem _ _ h1, List.getD_eq_getElem _ _ h2] at hbit
  exact hbit

theorem dataLevels_tdi (s : State) (bits : List Bool) : (dataLevels s bits).map Prod.snd = bits := by
  simp [dataLevels]

theorem clockCaptureBytes_loopedBack {c : Nat} {levels : List (Bool × Bool)} {s : State} (h : loopedBack s) :
    (clockCaptureBytes c levels s).engine.resp = s.engine.resp ++ packBytes c (levels.map Prod.snd) ∧
    (clockCaptureBytes c levels s).engine.captured = true ∧ loopedBack (clockCaptureBytes c levels s) := by
  obtain ⟨hbits, hloop⟩ := clock_loopedBack (levels := levels) h
  obtain ⟨ps, he, -, -, hps⟩ := clockCaptureBytes_engine c levels s
  rw [he, ← hps, hbits]
  exact ⟨rfl, rfl, hloop⟩

theorem drawFill_loopedBack {s : State} (h : loopedBack s) : loopedBack (drawFill s).2 := by
  obtain ⟨k, hk⟩ := drawFill_engine s
  rwa [loopedBack, hk, drawFill_target]

theorem clockCaptureBits_loopedBack {m : Nat} {levels : List (Bool × Bool)} {s : State} (h : loopedBack s) :
    (∃ fill, (clockCaptureBits m levels s).engine.resp = s.engine.resp ++ [leftPack m (levels.map Prod.snd) fill]) ∧
    (clockCaptureBits m levels s).engine.captured = true ∧ loopedBack (clockCaptureBits m levels s) := by
  obtain ⟨hbits, hloop⟩ := clock_loopedBack (levels := levels) h
  obtain ⟨ps, fill, k, he, -, -, hps, -⟩ := clockCaptureBits_engine m levels s
  rw [he, ← hps, hbits]
  exact ⟨⟨fill, rfl⟩, rfl, drawFill_loopedBack hloop⟩

theorem opByteWr_echoes (neg : Bool) (payload : List Byte) : Echoes (.opByteWr neg payload) (· = payload) := by
  intro s h
  obtain ⟨hresp, hcap, hloop⟩ :=
    clockCaptureBytes_loopedBack (c := payload.length) (levels := dataLevels s (allBits payload)) h
  rw [dataLevels_tdi, packBytes_allBits] at hresp
  exact ⟨_, payload, rfl, hresp, rfl, hcap, hloop⟩

theorem opBitWr_echoes (neg : Bool) (m : Nat) (p : Byte) :
    Echoes (.opBitWr neg m p) fun bs => ∃ fill, bs = [leftPack m (lowBits m p) fill] := by
  intro s h
  obtain ⟨⟨fill, hresp⟩, hcap, hloop⟩ :=
    clockCaptureBits_loopedBack (m := m) (levels := dataLevels s (lowBits m p)) h
  rw [dataLevels_tdi] at hresp
  exact ⟨_, _, rfl, hresp, ⟨fill, rfl⟩, hcap, hloop⟩

/-- The exit frame's one pulse drives bit 7 of its data byte on TDI. -/
theorem exitFrame_echoes (neg fb : Bool) :
    Echoes (.opTmsWr neg 1 (0x01 ||| level7 fb)) fun bs => ∃ fill, bs = [leftPack 1 [fb] fill] := by
  intro s h
  have htdi : (tmsLevels 1 (0x01 ||| level7 fb)).map Prod.snd = [fb] := by cases fb <;> rfl
  obtain ⟨⟨fill, hresp⟩, hcap, hloop⟩ :=
    clockCaptureBits_loopedBack (m := 1) (levels := tmsLevels 1 (0x01 ||| level7 fb)) h
  rw [htdi] at hresp
  exact ⟨_, _, rfl, hresp, ⟨fill, rfl⟩, hcap, hloop⟩

/-! ### A transfer of one frame -/

/-- The end of a transfer that captured only takes it from the inbox (45_engine_frames.md R169). -/
theorem finishTransfer_of_captured {s : State} {ts : List (List Byte)} (hi : s.engine.inbox = [] :: ts)
    (hc : s.engine.captured = true) :
    finishTransfer s = s.setEngine { s.engine with inbox := ts, captured := false } := by
  simp [finishTransfer, hi, hc]

/-- An engine whose inbox is one encoded frame executes it and ends its transfer. -/
theorem catchUp_frame {i : Instr} {s t : State} (ho : s.cfg.ops.distinct = true) (hi : i.isRequest = false)
    (hw : i.wellFormed = true) (hbox : s.engine.inbox = [encode s.cfg.ops i])
    (h : execFrame i (setInbox [[]] s) = .next t) : catchUp s = finishTransfer t := by
  obtain ⟨op, bs, he, -⟩ := encode_first i s.cfg.ops
  have hd := decodeFrame_encode [] ho hi hw
  rw [List.append_nil, he] at hd
  have hstep : frameStep execFrame (encode s.cfg.ops i) [] s = .next (finishTransfer t) := by
    simp only [frameStep, he, hd, h, afterFrame]
  have hnil : (finishTransfer t).engine.inbox = [] := finishTransfer_inbox (execFrame_inbox h)
  rw [catchUp_next hbox hstep, catchUp_nil hnil]

/-! ### A capture read under loopback -/

/-- The reference engine is idle and looped back, and every answer is its own. -/
structure Looping (s : State) : Prop where
  flushes : flushesSucceed s
  idle : engineIdle s
  looped : loopedBack s
  distinct : s.cfg.ops.distinct = true
  unscripted : s.inputs.read = []

theorem enq_looping {bs : List Byte} {s : State} (h : Looping s) : Looping (enq bs s) :=
  ⟨h.flushes, h.idle, h.looped, h.distinct, h.unscripted⟩

theorem setMem_looping {m : Memory} {s : State} (h : Looping s) : Looping (s.setMem m) :=
  ⟨h.flushes, h.idle, h.looped, h.distinct, h.unscripted⟩

/-- A read that nothing scripts and that the engine, once it has caught up, can answer. -/
theorem callRead_of_canAnswer {n : Nat} {s : State} (ho : s.oracle = .reference) (hr : s.inputs.read = [])
    (hc : canAnswer n (catchUp s) = true) :
    callRead n s = (some ((catchUp s).engine.resp.take n), consumeResponses n (catchUp s)) := by
  have hready : readyToRead s = catchUp s := by simp only [readyToRead, ho]
  obtain ⟨-, -, -, -, hread⟩ := catchUp_engineOnly s
  simp only [callRead, hready, hread, hr, hc, if_true]

/-- `t` is `s` after the flush of one frame: once the engine has caught up it holds the response bytes `bs` and nothing
else. -/
structure Answering (s t : State) (bs : List Byte) : Prop where
  flushes : flushesSucceed t
  unscripted : t.inputs.read = []
  cfg : t.cfg = s.cfg
  mem : t.mem = s.mem
  pending : t.pending = []
  looped : loopedBack (catchUp t)
  inbox : (catchUp t).engine.inbox = []
  resp : (catchUp t).engine.resp = bs
  sync : (catchUp t).engine.sync = true

/-- Flush with one looped-back frame pending. -/
theorem flush_echo {i : Instr} {P : List Byte → Prop} {s : State} (h : Looping s) (he : Echoes i P)
    (hi : i.isRequest = false) (hw : i.wellFormed = true) (hp : s.pending = encode s.cfg.ops i) :
    ∃ t bs, flush s = .ok () t ∧ P bs ∧ Answering s t bs := by
  obtain ⟨hbox, hresp, hsync⟩ := h.idle
  have hidle : catchUp s = s := catchUp_nil hbox
  have hne : s.pending ≠ [] := by
    obtain ⟨op, bs, hop, -⟩ := encode_first i s.cfg.ops
    rw [hp, hop]
    exact List.cons_ne_nil op bs
  have hret := callFlush_reference h.flushes
  obtain ⟨⟨hcfg, -⟩, hmem, -, hpend, -, hread⟩ := callFlush_state s
  obtain ⟨hcatch, hfsync, -⟩ := callFlush_runs ⟨h.flushes.1, hsync, by rw [hidle, hbox]⟩ hret
  obtain ⟨u, bs, hu, huresp, hP, hucap, huloop⟩ := he (setInbox [[]] s) h.looped
  have hframe : catchUp (setInbox [s.pending] s) = finishTransfer u :=
    catchUp_frame (s := setInbox [s.pending] s) h.distinct hi hw (by rw [hp]; rfl) hu
  have hbs : u.engine.resp = bs := huresp.trans (congrArg (· ++ bs) hresp)
  rw [hidle, hframe, finishTransfer_of_captured (execFrame_inbox hu) hucap] at hcatch
  refine ⟨(callFlush s).2, bs, by rw [flush_of_ne hne, if_pos hret], hP, ?_⟩
  exact {
    flushes := callFlush_flushesSucceed h.flushes
    unscripted := hread.trans h.unscripted
    cfg := hcfg
    mem := hmem
    pending := hpend
    looped := by rw [hcatch]; exact huloop
    inbox := by rw [hcatch]; rfl
    resp := by rw [hcatch]; exact hbs
    sync := by rw [catchUp_sync, hfsync] }

/-- ReadBack with one looped-back frame pending brings its response bytes back, and leaves the block and the engine as
they were before the frame was enqueued. -/
theorem readBack_echo {i : Instr} {P : List Byte → Prop} {n : Nat} {s : State} (h : Looping s) (he : Echoes i P)
    (hn : ∀ bs, P bs → bs.length = n) (hi : i.isRequest = false) (hw : i.wellFormed = true)
    (hp : s.pending = encode s.cfg.ops i) :
    ∃ t bs, readBack n s = .ok bs t ∧ P bs ∧ Looping t ∧ t.pending = [] ∧ t.cfg = s.cfg ∧ t.mem = s.mem := by
  obtain ⟨u, bs, hflush, hP, hu⟩ := flush_echo h he hi hw hp
  have hlen := hn bs hP
  obtain ⟨ho, hnoFlush⟩ := hu.flushes
  obtain ⟨⟨hcfg, horacle, -, hmem, -, -, -, -, hpend, -⟩, -, -, hflushes, hreads⟩ := catchUp_engineOnly u
  have hcan : canAnswer n (catchUp u) = true := by
    simp [canAnswer, horacle, ho, hu.inbox, hu.sync, hu.resp, hlen]
  have htake : (catchUp u).engine.resp.take n = bs := by rw [hu.resp, ← hlen, List.take_length]
  have hdrop : (catchUp u).engine.resp.drop n = [] := by rw [hu.resp, ← hlen, List.drop_length]
  have hdistinct : (catchUp u).cfg.ops.distinct = true := by rw [hcfg, hu.cfg, h.distinct]
  refine ⟨(consumeResponses n (catchUp u)).record (.read n (some bs)), bs, ?_, hP, ?_, hpend.trans hu.pending,
    hcfg.trans hu.cfg, hmem.trans hu.mem⟩
  · rw [readBack_of_flush_ok hflush, captureRead, callRead_of_canAnswer ho hu.unscripted hcan, htake]
    exact if_pos hlen
  · exact {
      flushes := ⟨horacle.trans ho, hflushes.trans hnoFlush⟩
      idle := ⟨hu.inbox, hdrop, hu.sync⟩
      looped := hu.looped
      distinct := hdistinct
      unscripted := hreads.trans hu.unscripted }

end Sys2Proof.Machine
end

section
/-! PROOFS. A DATA_SHIFT with TDI and TDO on a looped-back reference engine brings back every bit it sent
(45_engine_frames.md R172): step after step, what each step stores and what it leaves. -/

namespace Sys2Proof.Machine

/-! ### Chunk sizes -/

theorem chunkSizes_bounds {fuel rem c k : Nat} (hc : 1 ≤ c) (hk : k ∈ chunkSizes fuel rem c) : 1 ≤ k ∧ k ≤ c := by
  induction fuel generalizing rem with
  | zero => cases hk
  | succ fuel ih =>
    rw [chunkSizes] at hk
    split at hk
    · cases hk
    · rcases List.mem_cons.mp hk with rfl | hk
      · omega
      · exact ih hk

theorem chunkSizes_sum {fuel rem c : Nat} (hc : 1 ≤ c) (hf : rem ≤ fuel) : (chunkSizes fuel rem c).sum = rem := by
  induction fuel generalizing rem with
  | zero => exact (Nat.le_zero.mp hf).symm
  | succ fuel ih =>
    rw [chunkSizes]
    split
    · next h => exact h.symm
    · rw [List.sum_cons, ih (by omega)]
      omega

/-! ### The two buffers -/

theorem overlap_iff {a b : Buf} : overlap a b = true ↔ shareByte a b := by
  rw [overlap, decide_eq_true_eq]
  constructor
  · intro h
    exact ⟨max a.base b.base, by omega, by omega⟩
  · rintro ⟨x, ha, hb⟩
    omega

theorem optLongEnough_of_forall {len : Nat} {o : Option Buf} (h : ∀ b, o = some b → ceil8 len ≤ b.size) :
    optLongEnough len o = true := by
  cases o with
  | none => rfl
  | some b => exact decide_eq_true (h b rfl)

/-- An admitted DATA_SHIFT is not refused (43_data_shifter.md R128). -/
theorem dataRefusal_of_admitted {tdi tdo : Option Buf} {len : Nat} {s : State} (h : dataAdmitted tdi tdo len s) :
    dataRefusal tdi tdo len s = none := by
  obtain ⟨hready, hlen, htdi, htdo, hshare⟩ := h
  have halias : aliased tdi tdo = false := by
    cases tdi with
    | none => rfl
    | some a =>
      cases tdo with
      | none => rfl
      | some b => exact Bool.eq_false_iff.mpr fun ho => hshare a b rfl rfl (overlap_iff.mp ho)
  have hlim : ¬ lengthLimit ≤ len := Nat.not_le.mpr hlen
  simp [dataRefusal, hready, hlim, optLongEnough_of_forall htdi, optLongEnough_of_forall htdo, halias]

/-- The first `n` bytes of the two buffers are at different addresses. -/
def Apart (a b : Buf) (n : Nat) : Prop := ∀ i < n, ∀ j < n, a.base + i ≠ b.base + j

theorem apart_of_not_shareByte {a b : Buf} {n : Nat} (ha : n ≤ a.size) (hb : n ≤ b.size) (h : ¬ shareByte a b) :
    Apart a b n := by
  intro i hi j hj heq
  exact h ⟨a.base + i, by omega, by omega⟩

/-! ### A step that completes -/

/-- A state between two steps of a DATA_SHIFT. -/
structure AtRest (s : State) : Prop extends Looping s where
  pending : s.pending = []
  wf : s.mem.wf

/-- From `s` to `t` steps have completed that wrote none but the `n` bytes of memory from `a` on. -/
structure Stepped (s t : State) (a n : Nat) : Prop where
  atRest : AtRest t
  cfg : t.cfg = s.cfg
  outside : ∀ x, ¬ (a ≤ x ∧ x < a + n) → t.mem.read x = s.mem.read x

theorem stepped_refl {s : State} (h : AtRest s) (a n : Nat) : Stepped s s a n := ⟨h, rfl, fun _ _ => rfl⟩

/-- Steps that write TDO leave the bytes of TDI. -/
theorem Stepped.tdi {s t : State} {tdi tdo : Buf} {lo n total i : Nat} (h : Stepped s t (tdo.base + lo) n)
    (ha : Apart tdi tdo total) (hn : lo + n ≤ total) (hi : i < total) :
    t.mem.read (tdi.base + i) = s.mem.read (tdi.base + i) := by
  refine h.outside _ fun hx => ?_
  exact ha i hi (tdi.base + i - tdo.base) (by omega) (by omega)

theorem Stepped.of_enq {bs : List Byte} {s t : State} {a n : Nat} (h : Stepped (enq bs s) t a n) : Stepped s t a n :=
  ⟨h.atRest, h.cfg, h.outside⟩

/-- A step whose bytes are pending, one looped-back frame, completes and writes what it makes of the answer. -/
theorem closeStep_echo {i : Instr} {P : List Byte → Prop} {s : State} {a n : Nat}
    {store : State → List Byte → List Byte} (h : Looping s) (hwf : s.mem.wf) (hp : s.pending = encode s.cfg.ops i)
    (he : Echoes i P) (hi : i.isRequest = false) (hw : i.wellFormed = true) (hn : ∀ bs, P bs → bs.length = n)
    (hstore : ∀ t bs, bs.length = n → (store t bs).length = n) :
    ∃ t v bs, closeStep (some a) n store s = .ok () t ∧ P bs ∧ v.mem = s.mem ∧ Stepped s t a n ∧
      ∀ k < n, t.mem.read (a + k) = (store v bs).getD k 0 := by
  obtain ⟨v, bs, hread, hP, hloop, hpend, hcfg, hmem⟩ := readBack_echo h he hn hi hw hp
  have hlen : (store v bs).length = n := hstore v bs (hn bs hP)
  rw [← hmem] at hwf
  refine ⟨v.setMem (v.mem.writeBytes a (store v bs)), v, bs, ?_, hP, hmem, ⟨?_, hcfg, ?_⟩, ?_⟩
  · simp only [closeStep, hread]
  · exact ⟨setMem_looping hloop, hpend, Memory.wf_writeBytes hwf a _⟩
  · intro x hx
    rw [State.setMem_mem, Memory.read_writeBytes hwf, hlen, if_neg hx, hmem]
  · intro k hk
    rw [State.setMem_mem, Memory.read_writeBytes hwf, hlen, if_pos (by omega), Nat.add_sub_cancel_left]

/-! ### Step 3 -/

/-- A chunk brings its bytes back (43_data_shifter.md R132). -/
theorem dataChunk_echo {tdi tdo : Buf} {cur c : Nat} {s : State} (h : AtRest s) (h1 : 1 ≤ c) (h2 : c ≤ 65536) :
    ∃ t, dataChunk (some tdi) (some tdo) cur c s = .ok () t ∧ Stepped s t (tdo.base + cur) c ∧
      ∀ k < c, t.mem.read (tdo.base + cur + k) = s.mem.read (tdi.base + cur + k) := by
  have hlen : (s.mem.readBytes (tdi.base + cur) c).length = c := Memory.length_readBytes _ _ _
  have hp : s.pending ++ byteHeader s.cfg true true c ++ s.mem.readBytes (tdi.base + cur) c
      = encode s.cfg.ops (.opByteWr s.cfg.rdNeg (s.mem.readBytes (tdi.base + cur) c)) := by
    rw [h.pending, ← byteHeader_append_eq_encode, hlen, List.nil_append]
  obtain ⟨t, v, bs, hclose, rfl, -, hstep, hbytes⟩ :=
    closeStep_echo (a := tdo.base + cur) (store := fun _ bs => bs)
      (enq_looping (enq_looping h.toLooping)) h.wf hp (opByteWr_echoes _ _) rfl
      (decide_eq_true (by rw [hlen]; exact ⟨h1, h2⟩)) (by rintro bs rfl; exact hlen) (fun _ _ hb => hb)
  refine ⟨t, hclose, hstep.of_enq.of_enq, fun k hk => ?_⟩
  rw [hbytes k hk, Memory.readBytes, List.getD_eq_getElem _ _ (by simpa using hk)]
  simp

/-- The chunks bring their bytes back, one after the other (43_data_shifter.md R132, R133). -/
theorem dataChunks_echo {tdi tdo : Buf} {sizes : List Nat} {cur total : Nat} {s : State} (h : AtRest s)
    (hsizes : ∀ c ∈ sizes, 1 ≤ c ∧ c ≤ 65536) (ha : Apart tdi tdo total) (hsum : cur + sizes.sum ≤ total) :
    ∃ t, dataChunks (some tdi) (some tdo) sizes cur s = .ok () t ∧ Stepped s t (tdo.base + cur) sizes.sum ∧
      ∀ k < sizes.sum, t.mem.read (tdo.base + cur + k) = s.mem.read (tdi.base + cur + k) := by
  induction sizes generalizing cur s with
  | nil => exact ⟨s, rfl, stepped_refl h _ _, fun k hk => absurd hk (Nat.not_lt_zero k)⟩
  | cons c sizes ih =>
    rw [List.sum_cons] at hsum ⊢
    obtain ⟨h1, h2⟩ := hsizes c List.mem_cons_self
    obtain ⟨u, hchunk, hu, hubytes⟩ := dataChunk_echo (tdi := tdi) (tdo := tdo) (cur := cur) h h1 h2
    obtain ⟨t, hrest, ht, htbytes⟩ :=
      ih hu.atRest (fun k hk => hsizes k (List.mem_cons_of_mem c hk)) (cur := cur + c) (by omega)
    refine ⟨t, by rw [dataChunks, hchunk, Res.andThen, hrest], ⟨ht.atRest, ht.cfg.trans hu.cfg, fun x hx => ?_⟩,
      fun k hk => ?_⟩
    · rw [ht.outside x (by omega), hu.outside x (by omega)]
    · by_cases hkc : k < c
      · rw [ht.outside _ (by omega), hubytes k hkc]
      · have hb := htbytes (k - c) (by omega)
        have htdi := hu.tdi (i := cur + k) ha (by omega) (by omega)
        rw [show tdo.base + (cur + c) + (k - c) = tdo.base + cur + k by omega,
          show tdi.base + (cur + c) + (k - c) = tdi.base + (cur + k) by omega, htdi] at hb
        rw [hb, Nat.add_assoc]

/-! ### Steps 4 and 5 -/

theorem getD_lowBits (m : Nat) (p : Byte) (j : Nat) : (lowBits m p).getD j false = (decide (j < m) && p.getLsbD j) := by
  by_cases hj : j < m
  · rw [List.getD_eq_getElem _ _ (by simpa [lowBits] using hj), decide_eq_true hj]
    simp [lowBits]
  · rw [List.getD_eq_default _ _ (by simpa [lowBits] using hj), decide_eq_false hj, Bool.false_and]

/-- The residual step stores the bits it sent, and 0 above them; without residual bits there is no such step
(43_data_shifter.md R134). -/
theorem dataResidual_echo {tdi tdo : Buf} {nbByte nbBit : Nat} {s : State} (h : AtRest s) (hb : nbBit < 8) :
    ∃ t, dataResidual (some tdi) (some tdo) nbByte nbBit s = .ok () t ∧ Stepped s t (tdo.base + nbByte) 1 ∧
      ∀ j < 8, (t.mem.read (tdo.base + nbByte)).getLsbD j =
        if nbBit = 0 then (s.mem.read (tdo.base + nbByte)).getLsbD j
        else decide (j < nbBit) && (s.mem.read (tdi.base + nbByte)).getLsbD j := by
  by_cases h0 : nbBit = 0
  · exact ⟨s, if_pos h0, stepped_refl h _ _, fun j _ => (if_pos h0).symm⟩
  · have hp : s.pending ++ bitHeader s.cfg true true nbBit ++ [s.mem.read (tdi.base + nbByte)]
        = encode s.cfg.ops (.opBitWr s.cfg.rdNeg nbBit (s.mem.read (tdi.base + nbByte))) := by
      rw [h.pending, ← bitHeader_append_eq_encode, List.nil_append]
    obtain ⟨t, v, bs, hclose, ⟨fill, rfl⟩, -, hstep, hbytes⟩ :=
      closeStep_echo (a := tdo.base + nbByte) (store := fun _ bs => bs.map (residualByte nbBit))
        (enq_looping (enq_looping h.toLooping)) h.wf hp (opBitWr_echoes _ _ _) rfl
        (decide_eq_true (by omega)) (n := 1) (by rintro bs ⟨fill, rfl⟩; rfl)
        (fun _ _ hb => by rw [List.length_map, hb])
    refine ⟨t, (if_neg h0).trans hclose, hstep.of_enq.of_enq, fun j hj => ?_⟩
    obtain ⟨hland, -⟩ :=
      capturedBitsLandInPlace nbBit (lowBits nbBit (s.mem.read (tdi.base + nbByte))) fill hb (by simp [lowBits])
    rw [if_neg h0, ← getD_lowBits, ← hland j hj]
    exact congrArg (BitVec.getLsbD · j) (hbytes 0 Nat.one_pos)

/-- The exit step OR-s the final bit into the byte that is there; without `last` there is no such step
(43_data_shifter.md R135). -/
theorem dataExit_echo {tdi tdo : Buf} {nbByte nbBit : Nat} (last : Bool) {s : State} (h : AtRest s) (hb : nbBit < 8) :
    ∃ t, dataExit (some tdi) (some tdo) nbByte nbBit last s = .ok () t ∧ Stepped s t (tdo.base + nbByte) 1 ∧
      ∀ j < 8, (t.mem.read (tdo.base + nbByte)).getLsbD j =
        ((s.mem.read (tdo.base + nbByte)).getLsbD j ||
          (last && (decide (j = nbBit) && (s.mem.read (tdi.base + nbByte)).getLsbD nbBit))) := by
  cases last with
  | false => exact ⟨s, rfl, stepped_refl h _ _, fun j _ => by rw [Bool.false_and, Bool.or_false]⟩
  | true =>
    have hp : s.pending ++ exitFrame s.cfg true ((s.mem.read (tdi.base + nbByte)).getLsbD nbBit) = encode s.cfg.ops
        (.opTmsWr s.cfg.rdNeg 1 (0x01 ||| level7 ((s.mem.read (tdi.base + nbByte)).getLsbD nbBit))) := by
      rw [h.pending, exitFrame_eq_encode, List.nil_append]
    obtain ⟨t, v, bs, hclose, ⟨fill, rfl⟩, hv, hstep, hbytes⟩ :=
      closeStep_echo (a := tdo.base + nbByte) (store := mergeExit (some tdo) nbByte nbBit) (enq_looping h.toLooping)
        h.wf hp (exitFrame_echoes _ _) rfl rfl (n := 1) (by rintro bs ⟨fill, rfl⟩; rfl)
        (fun _ _ hb => by rw [mergeExit, List.length_map, hb])
    have hmem : v.mem = s.mem := hv
    refine ⟨t, hclose, hstep.of_enq, fun j hj => ?_⟩
    obtain ⟨-, hland⟩ := capturedBitsLandInPlace nbBit (lowBits nbBit 0) fill hb (by simp [lowBits])
    have hbyte : t.mem.read (tdo.base + nbByte) = v.mem.read (tdo.base + nbByte) |||
        exitBit nbBit (leftPack 1 [(s.mem.read (tdi.base + nbByte)).getLsbD nbBit] fill) := hbytes 0 Nat.one_pos
    rw [hbyte, hmem, BitVec.getLsbD_or, hland _ j hj, Bool.true_and]

/-! ### The whole request -/

theorem bufBit_byte (m : Memory) (b : Buf) (k : Nat) {j : Nat} (hj : j < 8) :
    bufBit m b (8 * k + j) = (m.read (b.base + k)).getLsbD j := by
  rw [bufBit, show (8 * k + j) / 8 = k by omega, show (8 * k + j) % 8 = j by omega]

/-- What a looped-back shift from memory `m` leaves in TDO: in the full bytes the bits of TDI; in the byte after them the
residual bits of TDI or, with none, the caller's bits, with the final bit of TDI OR-ed in. -/
structure Echoed (m m' : Memory) (tdi tdo : Buf) (nbByte nbBit : Nat) (last : Bool) : Prop where
  full : ∀ i < 8 * nbByte, bufBit m' tdo i = bufBit m tdi i
  part : ∀ j < 8, bufBit m' tdo (8 * nbByte + j) =
    ((if nbBit = 0 then bufBit m tdo (8 * nbByte + j)
      else decide (j < nbBit) && bufBit m tdi (8 * nbByte + j)) ||
      (last && (decide (j = nbBit) && bufBit m tdi (8 * nbByte + nbBit))))

section

variable {m m' : Memory} {tdi tdo : Buf} {nbByte nbBit : Nat} {last : Bool}

theorem Echoed.shifted (h : Echoed m m' tdi tdo nbByte nbBit last) (hb : nbBit < 8) {i : Nat}
    (hi : i < 8 * nbByte + nbBit) : bufBit m' tdo i = bufBit m tdi i := by
  by_cases hfull : i < 8 * nbByte
  · exact h.full i hfull
  · obtain ⟨j, rfl⟩ := Nat.exists_eq_add_of_le (Nat.not_lt.mp hfull)
    have hj : j < nbBit := by omega
    rw [h.part j (by omega)]
    simp [hj, hj.ne, Nat.ne_zero_of_lt hj]

theorem Echoed.final (h : Echoed m m' tdi tdo nbByte nbBit true) (hb : nbBit < 8) (h0 : nbBit ≠ 0) :
    bufBit m' tdo (8 * nbByte + nbBit) = bufBit m tdi (8 * nbByte + nbBit) := by
  rw [h.part nbBit hb]
  simp [h0]

theorem Echoed.merged (h : Echoed m m' tdi tdo nbByte nbBit true) (hb : nbBit < 8) (h0 : nbBit = 0) :
    bufBit m' tdo (8 * nbByte + nbBit) =
      (bufBit m tdo (8 * nbByte + nbBit) || bufBit m tdi (8 * nbByte + nbBit)) := by
  rw [h.part nbBit hb]
  simp [h0]

theorem Echoed.cleared (h : Echoed m m' tdi tdo nbByte nbBit last) (h0 : nbBit ≠ 0) {j : Nat} (hj : j < 8)
    (habove : nbBit ≤ j) (hlast : last = true → j ≠ nbBit) : bufBit m' tdo (8 * nbByte + j) = false := by
  have hnot : ¬ j < nbBit := by omega
  rw [h.part j hj]
  simpa [h0, hnot] using fun hl he => absurd he (hlast hl)

end

/-- Steps 3 to 5 complete and echo TDI; `total` bounds the bytes of the buffers that the shift needs. -/
theorem dataSteps_echo {tdi tdo : Buf} {nbByte nbBit total : Nat} {last : Bool} {s : State} (h : AtRest s)
    (hmin : 4 ≤ s.cfg.bufSize) (hmax : s.cfg.bufSize ≤ 65539) (hb : nbBit < 8) (ha : Apart tdi tdo total)
    (hfull : nbByte ≤ total) (hpart : nbBit ≠ 0 ∨ last = true → nbByte < total) :
    ∃ t, dataSteps (some tdi) (some tdo) nbByte nbBit last s = .ok (.value 0) t ∧
      Echoed s.mem t.mem tdi tdo nbByte nbBit last := by
  have hc : 1 ≤ chunkLimit s.cfg ∧ chunkLimit s.cfg ≤ 65536 := by
    unfold chunkLimit
    omega
  have hsum : (chunkSizes nbByte nbByte (chunkLimit s.cfg)).sum = nbByte := chunkSizes_sum hc.1 le_rfl
  have hsizes : ∀ k ∈ chunkSizes nbByte nbByte (chunkLimit s.cfg), 1 ≤ k ∧ k ≤ 65536 := fun k hk =>
    (chunkSizes_bounds hc.1 hk).imp_right fun hle => hle.trans hc.2
  obtain ⟨t₃, e₃, step₃, bytes₃⟩ := dataChunks_echo (cur := 0) h hsizes ha (by omega)
  rw [hsum] at step₃ bytes₃
  obtain ⟨t₄, e₄, step₄, bits₄⟩ := dataResidual_echo (tdi := tdi) (tdo := tdo) (nbByte := nbByte) step₃.atRest hb
  obtain ⟨t₅, e₅, step₅, bits₅⟩ := dataExit_echo (tdi := tdi) (tdo := tdo) (nbByte := nbByte) last step₄.atRest hb
  have htdi₃ : nbBit ≠ 0 ∨ last = true → t₃.mem.read (tdi.base + nbByte) = s.mem.read (tdi.base + nbByte) :=
    fun hp => step₃.tdi ha (by omega) (hpart hp)
  have htdi₄ : last = true → t₄.mem.read (tdi.base + nbByte) = s.mem.read (tdi.base + nbByte) :=
    fun hl => (step₄.tdi ha (hpart (.inr hl)) (hpart (.inr hl))).trans (htdi₃ (.inr hl))
  refine ⟨t₅, by simp only [dataSteps, e₃, Res.andThen, e₄, e₅], fun i hi => ?_, fun j hj => ?_⟩
  · have hbyte := bytes₃ (i / 8) (by omega)
    rw [bufBit, bufBit, step₅.outside _ (by omega), step₄.outside _ (by omega)]
    exact congrArg (BitVec.getLsbD · (i % 8)) hbyte
  · rw [bufBit_byte _ _ _ hj, bufBit_byte _ _ _ hj, bufBit_byte _ _ _ hj, bufBit_byte _ _ _ hb, bits₅ j hj, bits₄ j hj]
    congr 1
    · by_cases h0 : nbBit = 0
      · rw [if_pos h0, if_pos h0, step₃.outside _ (by omega)]
      · rw [if_neg h0, if_neg h0, htdi₃ (.inl h0)]
    · cases hl : last with
      | false => rfl
      | true => rw [htdi₄ hl]

/-- A DATA_SHIFT whose body completes adds its result to the results of before. -/
theorem exec_dataShift_of_ok {tdi tdo : Option Buf} {len : Nat} {last : Bool} {s t : State}
    (ha : dataAdmitted tdi tdo len s) (hb : dataBody tdi tdo len last s = .ok (.value 0) t) :
    exec (.dataShift tdi tdo len last) s = .next (t.addResult (.ok (.value 0))) ∧ t.results = s.results := by
  have hworked := dataBody_worked tdi tdo len last s
  rw [hb] at hworked
  obtain ⟨-, -, -, -, -, -, hresults, -⟩ := hworked
  refine ⟨?_, hresults⟩
  simp only [exec, execDataShift, dataRefusal_of_admitted ha, hb, finish_ok]

theorem realLen_add_exit {len : Nat} (last : Bool) (h : len ≠ 0) :
    realLen len last + (if last then 1 else 0) = len := by
  cases last with
  | false => rfl
  | true => exact Nat.sub_add_cancel (Nat.one_le_iff_ne_zero.mpr h)

/-- Settles O45: each step's transfer is one frame, whose capture under loopback is what it sent, so the steps echo TDI
(`dataSteps_echo`); bit `real_len` is bit `nb_bit` of byte `nb_byte`. -/
theorem loopbackReturnsWhatWasSent : Obligations.LoopbackReturnsWhatWasSent := by
  intro s tdi tdo len last hflush hidle hloop hdist hread hmin hmax hadm hlen hpend hwf
  have hrest : AtRest s := ⟨⟨hflush, hidle, hloop, hdist, hread⟩, hpend, hwf⟩
  have hapart : Apart tdi tdo (ceil8 len) := by
    obtain ⟨-, -, htdi, htdo, hshare⟩ := hadm
    exact apart_of_not_shareByte (htdi tdi rfl) (htdo tdo rfl) (hshare tdi tdo rfl rfl)
  have hreal := realLen_add_exit last hlen
  generalize hN : realLen len last = real at hreal
  have hfull : real / 8 ≤ ceil8 len := by
    unfold ceil8
    omega
  have hpart : real % 8 ≠ 0 ∨ last = true → real / 8 < ceil8 len := by
    unfold ceil8
    rintro (h0 | rfl)
    · omega
    · rw [if_pos rfl] at hreal
      omega
  have hb : real % 8 < 8 := Nat.mod_lt _ (by omega)
  have hsplit : 8 * (real / 8) + real % 8 = real := Nat.div_add_mod real 8
  obtain ⟨t, hsteps, hecho⟩ := dataSteps_echo (last := last) hrest hmin hmax hb hapart hfull hpart
  obtain ⟨hexec, hresults⟩ := exec_dataShift_of_ok hadm ((dataBody_eq _ _ _ _ s).trans
    ((if_neg hlen).trans (by rw [hN, hsteps])))
  have hfinal : last = true → len - 1 = 8 * (real / 8) + real % 8 := by
    rintro rfl
    rw [hsplit, ← hreal]
    rfl
  refine ⟨_, hexec, congrArg (· ++ [RequestResult.ok (.value 0)]) hresults, fun i hi => ?_, fun hl h0 => ?_,
    fun hl h0 => ?_, fun h0 k hk hk' => ?_⟩
  · exact hecho.shifted hb (hsplit.symm ▸ hi)
  · rw [hfinal hl]
    subst hl
    exact hecho.final hb h0
  · rw [hfinal hl]
    subst hl
    exact hecho.merged hb h0
  · obtain ⟨j, rfl⟩ := Nat.exists_eq_add_of_le (show 8 * (real / 8) ≤ k by omega)
    refine hecho.cleared h0 (by omega) (by omega) ?_
    rintro rfl
    rw [if_pos rfl] at hreal
    omega

end Sys2Proof.Machine
end

section
/-! PROOFS. TMS_SHIFT (41_tms_shifter.md): an admitted request runs its body, and of length 0 its body does nothing. -/

namespace Sys2Proof.Machine

/-- 41_tms_shifter.md R106: no refusal in READY for a length below the limit and a buffer that holds the sequence. -/
theorem tmsRefusal_of_admitted {tms : Buf} {len : Nat} {s : State} (hready : s.phase = .ready) (hlen : len < 2 ^ 31)
    (hsize : (len + 7) / 8 ≤ tms.size) : tmsRefusal tms len s = none := by
  have hlim : ¬ lengthLimit ≤ len := Nat.not_le.mpr hlen
  simp [tmsRefusal, hready, hlim, longEnough_iff.mpr hsize]

theorem exec_tmsShift_of_admitted {tms : Buf} {len : Nat} {s : State} (hready : s.phase = .ready)
    (hlen : len < 2 ^ 31) (hsize : (len + 7) / 8 ≤ tms.size) :
    exec (.tmsShift tms len) s = .next (finish (tmsBody (bufBit s.mem tms) len s)) := by
  simp only [exec, execTmsShift, tmsRefusal_of_admitted hready hlen hsize]

theorem tmsBody_zero (bits : Nat → Bool) (s : State) : tmsBody bits 0 s = .ok (.value 0) s := if_pos rfl

/-- Settles O32: length 0 is below the limit and asks for no byte of the buffer, so the request is admitted, and its body
returns 0 before it looks at the quirk flag. -/
theorem tmsShiftOfNothing : Obligations.TmsShiftOfNothing := by
  intro s tms hready
  rw [exec_tmsShift_of_admitted hready (by decide) (Nat.zero_le _), tmsBody_zero, finish_ok]

end Sys2Proof.Machine
end

section
/-! PROOFS. The caller's memory is nothing to the block's shared operations: over another memory each makes the same
calls, ends the same way and leaves that memory as it is. -/

namespace Sys2Proof.Machine

/-! ### The engine's answers -/

/-- What the engine alone has moved from `s`, put onto `s` with another memory. -/
theorem onto_setMem_of_engineOnly {s t : State} (m : Memory) (h : engineOnly s t) :
    onto (s.setMem m) t = t.setMem m := by
  obtain ⟨⟨hcfg, horacle, hrequests, -, hphase, hquirk, hfault, hdiag, hpending, htrace, hresults⟩,
    hconfigure, hidentity, hflush, hread⟩ := h
  simp only [onto, State.setMem, ← hcfg, ← horacle, ← hrequests, ← hphase, ← hquirk, ← hfault, ← hdiag, ← hpending,
    ← htrace, ← hresults, ← hconfigure, ← hidentity, ← hflush, ← hread]

theorem catchUp_setMem (m : Memory) (s : State) : catchUp (s.setMem m) = (catchUp s).setMem m :=
  (catchUp_onto (b := s.setMem m) (s := s) rfl).trans (onto_setMem_of_engineOnly m (catchUp_engineOnly s))

theorem loseEngine_setMem (m : Memory) (s : State) : loseEngine (s.setMem m) = (loseEngine s).setMem m := rfl

theorem flushAnswer_setMem (n : Nat) (m : Memory) (s : State) :
    flushAnswer n (s.setMem m) = ((flushAnswer n s).1, (flushAnswer n s).2.setMem m) := by
  simp only [flushAnswer, State.setMem_inputs, State.setMem_oracle]
  split
  · rfl
  · split <;> rfl

theorem deliver_setMem (bs : List Byte) (r : Int) (m : Memory) (s : State) :
    deliver bs r (s.setMem m) = (deliver bs r s).setMem m := by
  simp only [deliver, State.setMem_oracle, State.setMem_engine, catchUp_setMem, loseEngine_setMem]
  cases s.oracle with
  | arbitrary => rfl
  | reference =>
    by_cases h : r = bs.length ∧ s.engine.sync = true
    · simp only [if_pos h]
      rfl
    · simp only [if_neg h]

theorem callFlush_setMem (m : Memory) (s : State) :
    callFlush (s.setMem m) = ((callFlush s).1, (callFlush s).2.setMem m) := by
  simp only [callFlush, State.setMem_pending, flushAnswer_setMem, deliver_setMem]
  rfl

theorem readyToRead_setMem (m : Memory) (s : State) : readyToRead (s.setMem m) = (readyToRead s).setMem m := by
  simp only [readyToRead, State.setMem_oracle, catchUp_setMem]
  split <;> rfl

theorem settleResponses_setMem (a : ReadAnswer) (m : Memory) (s : State) :
    settleResponses a (s.setMem m) = (settleResponses a s).setMem m := by
  simp only [settleResponses, State.setMem_oracle]
  split <;> rfl

theorem callRead_setMem (n : Nat) (m : Memory) (s : State) :
    callRead n (s.setMem m) = ((callRead n s).1, (callRead n s).2.setMem m) := by
  simp only [callRead, readyToRead_setMem, State.setMem_inputs, State.setMem_oracle]
  split
  · next a coming _ =>
    exact congrArg (Prod.mk _) (settleResponses_setMem _ m ((readyToRead s).setInputs _))
  · have hcan : canAnswer n ((readyToRead s).setMem m) = canAnswer n (readyToRead s) := rfl
    rw [hcan]
    split
    · rfl
    · split <;> rfl

/-! ### The primitives (20_memory.md R57 to R62) -/

/-- An operation's end, with memory `m` in the state it left. -/
def Res.setMem {α : Type} (m : Memory) : Res α → Res α
  | .ok a s => .ok a (s.setMem m)
  | .err e s => .err e (s.setMem m)

/-- The operation neither reads nor writes the caller's memory. -/
def IgnoresMem {α : Type} (f : State → Res α) : Prop := ∀ m s, f (s.setMem m) = (f s).setMem m

theorem IgnoresMem.andThen {α β : Type} {f : State → Res α} {g : α → State → Res β} (hf : IgnoresMem f)
    (hg : ∀ a, IgnoresMem (g a)) : IgnoresMem fun s => (f s).andThen g := by
  intro m s
  simp only [hf m s]
  cases f s with
  | ok a t => exact hg a m t
  | err e t => rfl

theorem ok_ignoresMem {α : Type} (a : α) : IgnoresMem (Res.ok a) := fun _ _ => rfl

theorem flush_ignoresMem : IgnoresMem flush := by
  intro m s
  simp only [flush, State.setMem_pending, callFlush_setMem]
  split
  · rfl
  · split <;> rfl

theorem drainRead_setMem (n : Nat) (m : Memory) (s : State) : drainRead n (s.setMem m) = (drainRead n s).setMem m := by
  simp only [drainRead, callRead_setMem]
  split <;> rfl

theorem drain_ignoresMem (n : Nat) : IgnoresMem (drain n) :=
  flush_ignoresMem.andThen fun _ m s => congrArg (Res.ok ()) (drainRead_setMem n m s)

theorem flushDrain_ignoresMem (n : Nat) : IgnoresMem (flushDrain n) := by
  refine flush_ignoresMem.andThen fun _ m s => ?_
  cases hq : s.quirk with
  | false =>
    simp only [State.setMem_quirk, hq, Bool.false_eq_true, if_false]
    rfl
  | true =>
    simp only [State.setMem_quirk, hq, if_true]
    exact drain_ignoresMem n m s

/-! ### The end of a request (60_exceptions.md R175, R184) -/

theorem loseTrack_setMem (m : Memory) (s : State) : loseTrack (s.setMem m) = (loseTrack s).setMem m := by
  simp only [loseTrack, State.setMem_oracle, State.setMem_engine, catchUp_setMem, loseEngine_setMem]
  split
  · rfl
  · split <;> rfl

theorem engineAfter_setMem (e : BlockError) (m : Memory) (s : State) :
    engineAfter e (s.setMem m) = (engineAfter e s).setMem m := by
  cases e with
  | transportFailure info => exact loseTrack_setMem m s
  | protocolConsistencyFailure info => rfl

theorem finish_setMem (m : Memory) (r : Res OkValue) : finish (r.setMem m) = (finish r).setMem m := by
  cases r with
  | ok v s => rfl
  | err e s =>
    simp only [Res.setMem, finish, raise, engineAfter_setMem]
    rfl

@[simp] theorem finish_mem (r : Res OkValue) : (finish r).mem = r.state.mem := by
  cases r with
  | ok v s => rfl
  | err e s => exact raise_mem e s

/-! ### TMS_SHIFT's body -/

theorem sendTmsFrames_ignoresMem (perFlush n : Nat) (frames : List (List Byte)) (k : Nat) :
    IgnoresMem (sendTmsFrames perFlush n frames k) := by
  induction frames generalizing k with
  | nil => exact ok_ignoresMem ()
  | cons frame frames ih =>
    intro m s
    have henq : enq frame (s.setMem m) = (enq frame s).setMem m := rfl
    simp only [sendTmsFrames, henq]
    split
    · exact (flushDrain_ignoresMem n).andThen (fun _ => ih 0) m (enq frame s)
    · exact ih (k + 1) m (enq frame s)

/-- The body reads no memory but through the bits it is given. -/
theorem tmsBody_ignoresMem (bits : Nat → Bool) (len : Nat) : IgnoresMem (tmsBody bits len) := by
  intro m s
  simp only [tmsBody, State.setMem_cfg]
  split
  · rfl
  · exact ((sendTmsFrames_ignoresMem _ _ _ 0).andThen fun _ => flushDrain_ignoresMem _).andThen
      (fun _ => ok_ignoresMem _) m s

/-- A TMS frame holds bits of its sequence, and none past the last (41_tms_shifter.md R105). -/
theorem tmsFrame_congr {cfg : Config} {bits bits' : Nat → Bool} {len : Nat}
    (h : ∀ k < len, bits k = bits' k) (i : Nat) : tmsFrame cfg bits len i = tmsFrame cfg bits' len i := by
  have hbits : (List.range (tmsBitsIn len i)).map (fun j => bits (tmsChunk * i + j)) =
      (List.range (tmsBitsIn len i)).map fun j => bits' (tmsChunk * i + j) := by
    refine List.map_congr_left fun j hj => h _ ?_
    have hj' : j < min tmsChunk (len - tmsChunk * i) := List.mem_range.mp hj
    omega
  simp only [tmsFrame, tmsData, hbits]

theorem tmsBody_congr {bits bits' : Nat → Bool} {len : Nat} (h : ∀ k < len, bits k = bits' k) (s : State) :
    tmsBody bits len s = tmsBody bits' len s := by
  have hframes : tmsFrames s.cfg bits len = tmsFrames s.cfg bits' len :=
    List.map_congr_left fun i _ => tmsFrame_congr h i
  simp only [tmsBody, hframes]

end Sys2Proof.Machine
end

section
/-! PROOFS. CLOCK_TICK (42_clock_ticker.md): the fallback is TMS_SHIFT's body on a constant sequence, and the fast path
sends its two frames one after the other. -/

namespace Sys2Proof.Machine

/-! ### The fallback (R122) -/

/-- On an engine without the clock-only commands a CLOCK_TICK is refused for the reasons a TMS_SHIFT over a long enough
buffer is (41_tms_shifter.md R106, 42_clock_ticker.md R116). -/
theorem clockRefusal_of_not_capable {tms : Buf} {count : Nat} {s : State} (hcap : s.cfg.clkOnlyCapable = false)
    (hsize : (count + 7) / 8 ≤ tms.size) : clockRefusal count s = tmsRefusal tms count s := by
  simp [clockRefusal, tmsRefusal, hcap, longEnough_iff.mpr hsize]

/-- Settles O38: both are refused for one reason, and else run one body, whose frames hold the bits below `count`. -/
theorem clockFallbackIsTmsShift : Obligations.ClockFallbackIsTmsShift := by
  intro s tmsLevel tdiLevel count m tms hcap hsize hbits
  refine ⟨_, rfl, ?_, ?_⟩
  · rw [clockRefusal_of_not_capable hcap hsize, hcap]
    cases tmsRefusal tms count s with
    | some reason => rfl
    | none => exact (finish_mem _).trans (tmsBody_mem _ count s)
  · have hrefusal : tmsRefusal tms count (s.setMem m) = tmsRefusal tms count s := rfl
    simp only [exec, execTmsShift, hrefusal, clockRefusal_of_not_capable hcap hsize, hcap]
    cases tmsRefusal tms count s with
    | some reason => rfl
    | none =>
      simp only [State.setMem_mem, tmsBody_congr hbits, tmsBody_ignoresMem _ count m s, finish_setMem]
      rfl

/-! ### The fast path (R118) -/

/-- From `s` to `t` the block made the calls `es`, whose flushes succeeded, and nothing is pending after them. -/
structure Sent (s t : State) (es : List Event) : Prop where
  worked : worked s t
  mem : t.mem = s.mem
  diag : t.diag = s.diag
  pending : t.pending = []
  trace : t.trace = s.trace ++ es
  flushes : flushesSucceed t

theorem Sent.trans {s t u : State} {es es' : List Event} (h : Sent s t es) (h' : Sent t u es') :
    Sent s u (es ++ es') where
  worked := worked_trans h.worked h'.worked
  mem := h'.mem.trans h.mem
  diag := h'.diag.trans h.diag
  pending := h'.pending
  trace := by rw [h'.trace, h.trace, List.append_assoc]
  flushes := h'.flushes

theorem flush_enq_sent {s : State} {frame : List Byte} (hs : flushesSucceed s) (hp : s.pending = [])
    (hframe : frame ≠ []) :
    ∃ t, flush (enq frame s) = .ok () t ∧ Sent s t [.enq frame, .flush frame.length frame.length] := by
  have hs' : flushesSucceed (enq frame s) := hs
  have hp' : (enq frame s).pending = frame := congrArg (· ++ frame) hp
  have hanswer := callFlush_reference hs'
  obtain ⟨hworked, hmem, hdiag, hpending, htrace, -⟩ := callFlush_state (enq frame s)
  refine ⟨(callFlush (enq frame s)).2, ?_, worked_trans (enq_worked frame s) hworked, hmem, hdiag, hpending, ?_,
    callFlush_flushesSucceed hs'⟩
  · rw [flush_of_ne (hp'.symm ▸ hframe), if_pos hanswer]
  · rw [htrace, hanswer, hp']
    simp [enq]

/-- One frame of the fast path: nothing for no units, else the frame and its own flush. -/
theorem clockFrame_sent {s : State} {units : Nat} {frame : List Byte} (hs : flushesSucceed s) (hp : s.pending = [])
    (hframe : frame ≠ []) :
    ∃ t, clockFrame units frame s = .ok () t ∧
      Sent s t (if 0 < units then [.enq frame, .flush frame.length frame.length] else []) := by
  by_cases h0 : units = 0
  · refine ⟨s, if_pos h0, worked_refl s, rfl, rfl, hp, ?_, hs⟩
    rw [h0, if_neg (lt_irrefl 0), List.append_nil]
  · rw [clockFrame, if_neg h0, if_pos (Nat.pos_of_ne_zero h0)]
    exact flush_enq_sent hs hp hframe

theorem clockFast_sent {s : State} (count : Nat) (hs : flushesSucceed s) (hp : s.pending = []) :
    ∃ t, clockFast count s = .ok (.value count) t ∧ Sent s t
      ((if 0 < count / 8 then [.enq (encode s.cfg.ops (.opClkBytes (count / 8))), .flush 3 3] else []) ++
       (if 0 < count % 8 then [.enq (encode s.cfg.ops (.opClkBits (count % 8))), .flush 2 2] else [])) := by
  obtain ⟨t, hbytes, ht⟩ := clockFrame_sent (units := count / 8)
    (frame := encode s.cfg.ops (.opClkBytes (count / 8))) hs hp (List.cons_ne_nil _ _)
  obtain ⟨u, hbits, hu⟩ := clockFrame_sent (units := count % 8)
    (frame := encode s.cfg.ops (.opClkBits (count % 8))) ht.flushes ht.pending (List.cons_ne_nil _ _)
  obtain ⟨hcfg, -⟩ := ht.worked
  refine ⟨u, ?_, ht.trans hu⟩
  have hbytes' : clockFrame (count / 8) (clkBytesFrame s.cfg (count / 8)) s = .ok () t := hbytes
  have hbits' : clockFrame (count % 8) (clkBitsFrame t.cfg (count % 8)) t = .ok () u := by
    rw [hcfg]
    exact hbits
  simp only [clockFast, hbytes', hbits', Res.andThen]

/-- R116, R119 and R120: no refusal in READY with quirk 0, for at most 65536 groups of 8 and 7 more. -/
theorem clockRefusal_of_admitted {count : Nat} {s : State} (hready : s.phase = .ready) (hcount : count < 524296)
    (hquirk : s.quirk = false) : clockRefusal count s = none := by
  have hlim : ¬ lengthLimit ≤ count := by
    rw [lengthLimit]
    omega
  have hgroups : ¬ maxClkGroups < count / 8 := by
    rw [maxClkGroups]
    omega
  simp [clockRefusal, hready, hlim, hquirk, hgroups]

/-- Settles O37: the request is admitted, its two frames are sent one after the other, and the pulses are
`8 (count / 8) + count % 8 = count`. -/
theorem clockFastPath : Obligations.ClockFastPath := by
  intro s tmsLevel tdiLevel count hs hready hcount hcap hquirk hp
  obtain ⟨t, hfast, ht⟩ := clockFast_sent count hs hp
  obtain ⟨hcfg, horacle, hrequests, hphase, hquirk', hfault, hresults, -⟩ := ht.worked
  refine ⟨t.addResult (.ok (.value count)), ?_, ht.trace, Nat.div_add_mod count 8, ?_, ht.pending, ht.mem, hphase,
    hquirk', hfault, ht.diag, hcfg, horacle, hrequests⟩
  · simp only [exec, execClockTick, clockRefusal_of_admitted hready hcount hquirk, hcap, if_true, hfast, finish_ok]
  · rw [State.addResult_results, hresults]

end Sys2Proof.Machine
end

section
/-! PROOFS. What a DATA_SHIFT does to the caller's memory, however it ends (20_memory.md R44, R45; 43_data_shifter.md
R138): each step writes its own bytes of TDO only, and what a chunk read answered stays where the chunk step put it. -/

namespace Sys2Proof.Machine

/-! ### The capture reads of an operation -/

theorem fullReads_append (es es' : List Event) : fullReads (es ++ es') = fullReads es ++ fullReads es' := by
  induction es with
  | nil => rfl
  | cons e es ih =>
    cases e with
    | read n a =>
      cases a with
      | none => exact ih
      | some bs =>
        simp only [List.cons_append, fullReads, ih]
        split <;> rfl
    | _ => exact ih

/-- From `s` to `t` the capture reads that answered in full answered `rs`, in this order. -/
def Captured (s t : State) (rs : List (List Byte)) : Prop := ∃ es, t.trace = s.trace ++ es ∧ fullReads es = rs

theorem captured_refl (s : State) : Captured s s [] := ⟨[], (List.append_nil _).symm, rfl⟩

theorem Captured.trans {s t u : State} {rs rs' : List (List Byte)} (h : Captured s t rs) (h' : Captured t u rs') :
    Captured s u (rs ++ rs') := by
  obtain ⟨es, htrace, rfl⟩ := h
  obtain ⟨es', htrace', rfl⟩ := h'
  exact ⟨es ++ es', by rw [htrace', htrace, List.append_assoc], fullReads_append es es'⟩

theorem enq_captured (bs : List Byte) (s : State) : Captured s (enq bs s) [] := ⟨[.enq bs], rfl, rfl⟩

theorem enqTdi_captured (tdi : Option Buf) (cur n : Nat) (s : State) : Captured s (enqTdi tdi cur n s) [] := by
  cases tdi with
  | none => exact captured_refl s
  | some b => exact enq_captured _ s

theorem flush_captured (s : State) : Captured s (flush s).state [] := by
  obtain ⟨-, -, -, -, htrace, -⟩ := callFlush_state s
  have hcall : Captured s (callFlush s).2 [] := ⟨_, htrace, rfl⟩
  rcases flush_cases s with ⟨-, e⟩ | ⟨-, -, e⟩ | ⟨-, -, e⟩ <;> rw [e]
  · exact captured_refl s
  · exact hcall
  · exact hcall

/-- The value an operation ended with; none after a fatal error. -/
def Res.values {α : Type} : Res α → List α
  | .ok a _ => [a]
  | .err _ _ => []

/-- ReadBack's capture read answered in full exactly when ReadBack succeeded (20_memory.md R60). -/
theorem readBack_captured (n : Nat) (s : State) : Captured s (readBack n s).state (readBack n s).values := by
  have hflush := flush_captured s
  cases hf : flush s with
  | err e u =>
    rw [hf] at hflush
    rw [readBack_of_flush_err hf]
    exact hflush
  | ok _ u =>
    rw [hf] at hflush
    obtain ⟨a, t, htrace, -, -, -, -, -, -, hread⟩ := captureRead_state n u
    have hcaptured : Captured s t (fullReads [.read n a]) := hflush.trans ⟨[.read n a], htrace, rfl⟩
    rw [readBack_of_flush_ok hf, hread]
    cases a with
    | none => exact hcaptured
    | some bs =>
      by_cases hlen : bs.length = n
      · simp only [fullReads, if_pos hlen] at hcaptured ⊢
        exact hcaptured
      · simp only [fullReads, if_neg hlen] at hcaptured ⊢
        exact hcaptured

/-! ### Operations in sequence -/

theorem Res.andThen_assoc {α β γ : Type} (r : Res α) (f : α → State → Res β) (g : β → State → Res γ) :
    (r.andThen f).andThen g = r.andThen fun a s => (f a s).andThen g := by
  cases r <;> rfl

theorem Res.state_andThen_ok {α β : Type} (r : Res α) (b : β) : (r.andThen fun _ s => .ok b s).state = r.state := by
  cases r <;> rfl

/-- Steps 4 and 5 (43_data_shifter.md R134, R135). -/
def dataTail (tdi tdo : Option Buf) (nbByte nbBit : Nat) (last : Bool) (s : State) : Res Unit :=
  (dataResidual tdi tdo nbByte nbBit s).andThen fun _ s => dataExit tdi tdo nbByte nbBit last s

/-- The state that steps 3 to 5 leave is the one that steps 4 and 5 leave after the chunks. -/
theorem dataSteps_state (tdi tdo : Option Buf) (nbByte nbBit : Nat) (last : Bool) (s : State) :
    (dataSteps tdi tdo nbByte nbBit last s).state =
      ((dataChunks tdi tdo (chunkSizes nbByte nbByte (chunkLimit s.cfg)) 0 s).andThen
        fun _ s => dataTail tdi tdo nbByte nbBit last s).state := by
  rw [dataSteps, Res.state_andThen_ok, Res.andThen_assoc]
  rfl

theorem dataTail_worked (tdi tdo : Option Buf) (nbByte nbBit : Nat) (last : Bool) (s : State) :
    worked s (dataTail tdi tdo nbByte nbBit last s).state :=
  andThen_worked (dataResidual_worked tdi tdo nbByte nbBit s) fun _ t _ => dataExit_worked tdi tdo nbByte nbBit last t

/-- What an operation recorded, as the events that its trace ends with. -/
theorem trace_of_worked {s t : State} (h : worked s t) : ∃ es, t.trace = s.trace ++ es := by
  obtain ⟨-, -, -, -, -, -, -, -, ⟨es, hes⟩, -⟩ := h
  exact ⟨es, hes.symm⟩

/-! ### The bytes of TDO that a step may write -/

/-- From `s` to `t` no byte of memory has changed but, of TDO, those from `lo` on and below `hi`. -/
structure Confined (tdo : Option Buf) (lo hi : Nat) (s t : State) : Prop where
  wf : t.mem.wf
  outside : ∀ a, (∀ b, tdo = some b → ¬ (b.base + lo ≤ a ∧ a < b.base + hi)) → t.mem.read a = s.mem.read a

theorem confined_of_mem_eq {s t : State} (hwf : s.mem.wf) (h : t.mem = s.mem) (tdo : Option Buf) (lo hi : Nat) :
    Confined tdo lo hi s t := ⟨h ▸ hwf, fun a _ => by rw [h]⟩

theorem Confined.mono {tdo : Option Buf} {lo hi lo' hi' : Nat} {s t : State} (h : Confined tdo lo hi s t)
    (hlo : lo' ≤ lo) (hhi : hi ≤ hi') : Confined tdo lo' hi' s t where
  wf := h.wf
  outside a ha := h.outside a fun b hb hin => ha b hb (by omega)

theorem Confined.trans {tdo : Option Buf} {lo hi : Nat} {s t u : State} (h : Confined tdo lo hi s t)
    (h' : Confined tdo lo hi t u) : Confined tdo lo hi s u where
  wf := h'.wf
  outside a ha := (h'.outside a ha).trans (h.outside a ha)

/-- Byte `i` of TDO, outside the bytes written. -/
theorem Confined.read_tdo {b : Buf} {lo hi i : Nat} {s t : State} (h : Confined (some b) lo hi s t)
    (hout : ¬ (lo ≤ i ∧ i < hi)) : t.mem.read (b.base + i) = s.mem.read (b.base + i) := by
  refine h.outside _ fun b' hb' hin => ?_
  cases hb'
  omega

theorem andThen_confined {α β : Type} {tdo : Option Buf} {lo hi : Nat} {s : State} {r : Res α}
    {f : α → State → Res β} (h : Confined tdo lo hi s r.state)
    (hf : ∀ a t, t.mem.wf → Confined tdo lo hi t (f a t).state) : Confined tdo lo hi s (r.andThen f).state := by
  cases r with
  | ok a t => exact h.trans (hf a t h.wf)
  | err e t => exact h

/-- A run of bytes written into TDO. -/
theorem confined_of_writeBytes {b : Buf} {lo n : Nat} {bs : List Byte} {s t : State} (hwf : s.mem.wf)
    (h : t.mem = s.mem.writeBytes (b.base + lo) bs) (hlen : bs.length = n) : Confined (some b) lo (lo + n) s t where
  wf := h ▸ Memory.wf_writeBytes hwf _ _
  outside a ha := by
    rw [h, Memory.read_writeBytes hwf, if_neg fun hin => ha b rfl (by omega)]

/-- A step of `n` bytes at byte `i` of TDO writes these bytes only, also where it fails. -/
theorem closeStep_confined {tdo : Option Buf} {i n : Nat} {store : State → List Byte → List Byte} {s : State}
    (hwf : s.mem.wf) (hstore : ∀ b, tdo = some b → ∀ t bs, (store t bs).length = bs.length) :
    Confined tdo i (i + n) s (closeStep (tdoAt tdo i) n store s).state := by
  cases tdo with
  | none => exact confined_of_mem_eq hwf (writeDone_mem n s) _ _ _
  | some b =>
    rcases closeStep_mem (tdoAt (some b) i) n store s with ⟨hnone, -⟩ | ⟨a, t, bs, ha, hread, hclose⟩ |
      ⟨a, t, e, bs, ha, -, hlen, hclose⟩
    · cases hnone
    · cases ha
      rw [hclose]
      exact confined_of_writeBytes hwf rfl ((hstore b rfl t bs).trans (readBack_length hread))
    · cases ha
      rw [hclose]
      exact confined_of_writeBytes hwf rfl hlen

theorem dataChunk_confined (tdi tdo : Option Buf) (cur c : Nat) {s : State} (hwf : s.mem.wf) :
    Confined tdo cur (cur + c) s (dataChunk tdi tdo cur c s).state := by
  have hmem := enqTdi_mem tdi cur c (enq (byteHeader s.cfg tdi.isSome tdo.isSome c) s)
  have henq := confined_of_mem_eq hwf hmem tdo cur (cur + c)
  exact henq.trans (closeStep_confined henq.wf fun _ _ _ _ => rfl)

theorem dataChunks_confined (tdi tdo : Option Buf) (sizes : List Nat) (cur : Nat) {s : State} (hwf : s.mem.wf) :
    Confined tdo cur (cur + sizes.sum) s (dataChunks tdi tdo sizes cur s).state := by
  induction sizes generalizing cur s with
  | nil => exact confined_of_mem_eq hwf rfl _ _ _
  | cons c sizes ih =>
    rw [List.sum_cons, dataChunks]
    refine andThen_confined ((dataChunk_confined tdi tdo cur c hwf).mono le_rfl (by omega)) fun _ t ht => ?_
    exact (ih (cur + c) ht).mono (by omega) (by omega)

theorem dataResidual_confined (tdi tdo : Option Buf) {nbByte nbBit hi : Nat} {s : State} (hwf : s.mem.wf)
    (hhi : nbBit ≠ 0 → nbByte < hi) : Confined tdo nbByte hi s (dataResidual tdi tdo nbByte nbBit s).state := by
  unfold dataResidual
  split
  · exact confined_of_mem_eq hwf rfl _ _ _
  · next h0 =>
    have hmem := enqTdi_mem tdi nbByte 1 (enq (bitHeader s.cfg tdi.isSome tdo.isSome nbBit) s)
    have henq := confined_of_mem_eq hwf hmem tdo nbByte (nbByte + 1)
    have hclose := henq.trans (closeStep_confined (store := fun _ bs => bs.map (residualByte nbBit)) henq.wf
      fun _ _ _ bs => List.length_map _)
    exact hclose.mono le_rfl (hhi h0)

theorem dataExit_confined (tdi tdo : Option Buf) {nbByte nbBit hi : Nat} {last : Bool} {s : State} (hwf : s.mem.wf)
    (hhi : last = true → nbByte < hi) : Confined tdo nbByte hi s (dataExit tdi tdo nbByte nbBit last s).state := by
  unfold dataExit
  split
  · next hl =>
    have hstore : ∀ b, tdo = some b → ∀ t bs, (mergeExit tdo nbByte nbBit t bs).length = bs.length := by
      rintro b rfl t bs
      exact List.length_map _
    have henq := confined_of_mem_eq (t := enq (exitFrame s.cfg tdo.isSome (finalBit s.mem tdi nbByte nbBit)) s)
      hwf rfl tdo nbByte (nbByte + 1)
    exact (henq.trans (closeStep_confined henq.wf hstore)).mono le_rfl (hhi hl)
  · exact confined_of_mem_eq hwf rfl _ _ _

/-- Steps 4 and 5 write `TDO[nb_byte]` at most, and that only where there is a residual or an exit bit. -/
theorem dataTail_confined (tdi tdo : Option Buf) {nbByte nbBit hi : Nat} {last : Bool} {s : State} (hwf : s.mem.wf)
    (hhi : nbBit ≠ 0 ∨ last = true → nbByte < hi) :
    Confined tdo nbByte hi s (dataTail tdi tdo nbByte nbBit last s).state :=
  andThen_confined (dataResidual_confined tdi tdo hwf fun h0 => hhi (.inl h0)) fun _ _ ht =>
    dataExit_confined tdi tdo ht fun hl => hhi (.inr hl)

/-- The chunks hold no more than the full bytes, whatever the chunk size. -/
theorem chunkSizes_sum_le (fuel rem c : Nat) : (chunkSizes fuel rem c).sum ≤ rem := by
  induction fuel generalizing rem with
  | zero => exact Nat.zero_le rem
  | succ fuel ih =>
    rw [chunkSizes]
    split
    · exact Nat.zero_le rem
    · have hrest := ih (rem - min rem c)
      rw [List.sum_cons]
      omega

theorem dataSteps_confined (tdi tdo : Option Buf) {nbByte nbBit hi : Nat} {last : Bool} {s : State} (hwf : s.mem.wf)
    (hfull : nbByte ≤ hi) (hpart : nbBit ≠ 0 ∨ last = true → nbByte < hi) :
    Confined tdo 0 hi s (dataSteps tdi tdo nbByte nbBit last s).state := by
  have hsum := chunkSizes_sum_le nbByte nbByte (chunkLimit s.cfg)
  rw [dataSteps_state]
  refine andThen_confined ((dataChunks_confined tdi tdo _ 0 hwf).mono le_rfl (by omega)) fun _ t ht => ?_
  exact (dataTail_confined tdi tdo ht hpart).mono (Nat.zero_le _) le_rfl

/-! ### What the chunk reads answered is in TDO -/

/-- From `s` to `t` the capture reads that answered in full answered `rs`, and TDO holds their bytes from byte `lo` on. -/
structure Stored (b : Buf) (lo : Nat) (s t : State) (rs : List (List Byte)) : Prop where
  captured : Captured s t rs
  bytes : ∀ i < rs.flatten.length, t.mem.read (b.base + (lo + i)) = rs.flatten.getD i 0

theorem stored_nil {b : Buf} {lo : Nat} {s t : State} (h : Captured s t []) : Stored b lo s t [] :=
  ⟨h, fun i hi => absurd hi (Nat.not_lt_zero i)⟩

/-- A first read's bytes, and behind them those of steps that leave them alone. -/
theorem Stored.cons {b : Buf} {lo hi : Nat} {s t u : State} {bs : List Byte} {rs : List (List Byte)}
    (h : Stored b lo s t [bs]) (h' : Stored b (lo + bs.length) t u rs)
    (hc : Confined (some b) (lo + bs.length) hi t u) : Stored b lo s u (bs :: rs) where
  captured := h.captured.trans h'.captured
  bytes i hlt := by
    rw [List.flatten_cons, List.length_append] at hlt
    rw [List.flatten_cons]
    by_cases hfirst : i < bs.length
    · have hbyte := h.bytes i (by simpa using hfirst)
      rw [hc.read_tdo (by omega), hbyte, List.getD_append _ _ _ _ hfirst, List.flatten_singleton]
    · have hbyte := h'.bytes (i - bs.length) (by omega)
      rw [show lo + bs.length + (i - bs.length) = lo + i by omega] at hbyte
      rw [hbyte, List.getD_append_right _ _ _ _ (by omega)]

/-- A chunk step stores what its read answered in full; where it fails no read answered in full. -/
theorem dataChunk_stored (tdi : Option Buf) (b : Buf) (cur c : Nat) {s : State} (hwf : s.mem.wf) :
    (∀ t, dataChunk tdi (some b) cur c s = .ok () t → ∃ bs, bs.length = c ∧ Stored b cur s t [bs]) ∧
    ∀ e t, dataChunk tdi (some b) cur c s = .err e t → Captured s t [] := by
  unfold dataChunk
  generalize hq : enqTdi tdi cur c (enq (byteHeader s.cfg tdi.isSome (some b).isSome c) s) = q
  have henq : Captured s q [] := hq ▸ (enq_captured _ s).trans (enqTdi_captured tdi cur c _)
  have hqwf : q.mem.wf := by
    rw [← hq, enqTdi_mem]
    exact hwf
  have hread := readBack_captured c q
  rcases closeStep_mem (tdoAt (some b) cur) c (fun _ bs => bs) q with ⟨hnone, -⟩ | ⟨a, v, bs, ha, hok, hclose⟩ |
    ⟨a, v, e, bs, ha, herr, -, hclose⟩
  · cases hnone
  · obtain rfl : b.base + cur = a := Option.some.inj ha
    rw [hok] at hread
    rw [hclose]
    refine ⟨fun t ht => ?_, fun _ _ ht => nomatch ht⟩
    cases ht
    refine ⟨bs, readBack_length hok, henq.trans hread, fun i hi => ?_⟩
    rw [List.flatten_singleton] at hi ⊢
    rw [State.setMem_mem, Memory.read_writeBytes hqwf, if_pos (by omega),
      show b.base + (cur + i) - (b.base + cur) = i by omega]
  · rw [herr] at hread
    rw [hclose]
    refine ⟨fun _ ht => (nomatch ht), fun e' t ht => ?_⟩
    cases ht
    exact henq.trans hread

/-- The chunk steps store what their reads answered in full, also where one fails: no more reads than chunks, and one a
chunk where all complete. -/
theorem dataChunks_stored (tdi : Option Buf) (b : Buf) (sizes : List Nat) (cur : Nat) {s : State} (hwf : s.mem.wf) :
    ∃ rs, Stored b cur s (dataChunks tdi (some b) sizes cur s).state rs ∧ rs.length ≤ sizes.length ∧
      rs.flatten.length ≤ sizes.sum ∧
      ∀ t, dataChunks tdi (some b) sizes cur s = .ok () t → rs.length = sizes.length := by
  induction sizes generalizing cur s with
  | nil => exact ⟨[], stored_nil (captured_refl s), le_rfl, le_rfl, fun _ _ => rfl⟩
  | cons c sizes ih =>
    obtain ⟨hok, herr⟩ := dataChunk_stored tdi b cur c hwf
    have hconf := dataChunk_confined tdi (some b) cur c hwf
    rw [dataChunks]
    cases hchunk : dataChunk tdi (some b) cur c s with
    | err e t => exact ⟨[], stored_nil (herr e t hchunk), Nat.zero_le _, Nat.zero_le _, fun _ ht => nomatch ht⟩
    | ok _ u =>
      rw [hchunk] at hconf
      obtain ⟨bs, rfl, hfirst⟩ := hok u hchunk
      obtain ⟨rs, hrest, hcount, hsum, hall⟩ := ih (cur + bs.length) hconf.wf
      refine ⟨bs :: rs, hfirst.cons hrest (dataChunks_confined tdi (some b) sizes _ hconf.wf), ?_, ?_, fun t ht => ?_⟩
      · exact Nat.succ_le_succ hcount
      · rw [List.flatten_cons, List.length_append, List.sum_cons]
        omega
      · exact congrArg Nat.succ (hall t ht)

/-- After steps 3 to 5, however they end, TDO holds the bytes of the chunk reads that answered in full: they are the
first of all that did, and steps 4 and 5 write behind them (43_data_shifter.md R138). -/
theorem dataSteps_stored (tdi : Option Buf) (b : Buf) (nbByte nbBit : Nat) (last : Bool) {s : State}
    (hwf : s.mem.wf) :
    ∃ es, (dataSteps tdi (some b) nbByte nbBit last s).state.trace = s.trace ++ es ∧
      let stored := ((fullReads es).take (chunkSizes nbByte nbByte (chunkLimit s.cfg)).length).flatten
      ∀ i < stored.length,
        (dataSteps tdi (some b) nbByte nbBit last s).state.mem.read (b.base + i) = stored.getD i 0 := by
  have hsizes := chunkSizes_sum_le nbByte nbByte (chunkLimit s.cfg)
  rw [dataSteps_state]
  generalize chunkSizes nbByte nbByte (chunkLimit s.cfg) = sizes at hsizes ⊢
  obtain ⟨rs, ⟨⟨es, htrace, rfl⟩, hbytes⟩, hcount, hsum, hall⟩ := dataChunks_stored tdi b sizes 0 hwf
  have hconf := dataChunks_confined tdi (some b) sizes 0 hwf
  simp only [Nat.zero_add] at hbytes
  cases hchunks : dataChunks tdi (some b) sizes 0 s with
  | err e t =>
    rw [hchunks] at htrace hbytes
    refine ⟨es, htrace, ?_⟩
    rw [List.take_of_length_le hcount]
    exact hbytes
  | ok _ t =>
    rw [hchunks] at htrace hbytes hconf
    obtain ⟨es', htail⟩ := trace_of_worked (dataTail_worked tdi (some b) nbByte nbBit last t)
    have hpart := dataTail_confined tdi (some b) (hi := nbByte + 1) (nbBit := nbBit) (last := last) hconf.wf
      fun _ => Nat.lt_succ_self nbByte
    refine ⟨es ++ es', ?_, ?_⟩
    · rw [← List.append_assoc, ← htrace]
      exact htail
    · rw [fullReads_append, List.take_left' (hall t hchunks)]
      exact fun i hi => (hpart.read_tdo (by omega)).trans (hbytes i hi)

/-! ### The whole request -/

@[simp] theorem finish_trace (r : Res OkValue) : (finish r).trace = r.state.trace := by
  cases r with
  | ok v s => rfl
  | err e s => exact raise_trace e s

/-- The ways a DATA_SHIFT ends for memory and the trace: neither changes, or they are those that the steps leave. -/
theorem exec_dataShift_steps {tdi tdo : Option Buf} {len : Nat} {last : Bool} {s t : State}
    (h : exec (.dataShift tdi tdo len last) s = .next t) :
    (t.mem = s.mem ∧ t.trace = s.trace) ∨
      let u := (dataSteps tdi tdo (realLen len last / 8) (realLen len last % 8) last s).state
      t.mem = u.mem ∧ t.trace = u.trace := by
  simp only [exec, execDataShift] at h
  cases h
  cases dataRefusal tdi tdo len s with
  | some reason => exact .inl ⟨rfl, rfl⟩
  | none =>
    simp only [finish_mem, finish_trace, dataBody_eq]
    split
    · exact .inl ⟨rfl, rfl⟩
    · exact .inr ⟨rfl, rfl⟩

/-- Settles O42: the steps write TDO within `tdoWritten` (`dataSteps_confined`), and what the chunk reads answered stays
(`dataSteps_stored`). -/
theorem dataShiftMemoryFrame : Obligations.DataShiftMemoryFrame := by
  intro s t tdi tdo len last hwf h
  rcases exec_dataShift_steps h with ⟨hmem, htrace⟩ | ⟨hmem, htrace⟩
  · refine ⟨fun a _ => by rw [hmem], [], by rw [htrace, List.append_nil], fun b _ i hi => ?_⟩
    simp [fullReads] at hi
  · rw [hmem, htrace]
    have hconf := dataSteps_confined tdi tdo (nbByte := realLen len last / 8) (nbBit := realLen len last % 8)
      (hi := tdoWritten len last) (last := last) hwf (Nat.le_add_right _ _)
      fun hpart => by rw [tdoWritten, if_pos hpart]; exact Nat.lt_succ_self _
    refine ⟨hconf.outside, ?_⟩
    cases tdo with
    | none =>
      obtain ⟨es, hes⟩ := trace_of_worked (dataSteps_worked tdi none _ (realLen len last % 8) last s)
      exact ⟨es, hes, nofun⟩
    | some b =>
      obtain ⟨es, hes, hbytes⟩ :=
        dataSteps_stored tdi b (realLen len last / 8) (realLen len last % 8) last hwf
      refine ⟨es, hes, fun b' hb' => ?_⟩
      cases hb'
      exact hbytes

end Sys2Proof.Machine
end

section
/-! PROOFS. What the data and clock frames do on the reference engine (45_engine_frames.md R155 to R163): the levels
they drive, what they capture, and what they leave. -/

namespace Sys2Proof.Machine

/-! ### The levels of a frame -/

@[simp] theorem dataLevels_tms (s : State) (bits : List Bool) :
    (dataLevels s bits).map Prod.fst = List.replicate bits.length s.engine.tmsPin := by
  rw [dataLevels, List.map_map]
  exact List.map_const'

@[simp] theorem heldLevels_tms (s : State) (n : Nat) :
    (heldLevels s n).map Prod.fst = List.replicate n s.engine.tmsPin := List.map_replicate

@[simp] theorem heldLevels_tdi (s : State) (n : Nat) :
    (heldLevels s n).map Prod.snd = List.replicate n s.engine.tdiPin := List.map_replicate

@[simp] theorem length_allBits (bs : List Byte) : (allBits bs).length = 8 * bs.length := by simp [allBits]

@[simp] theorem length_lowBits (m : Nat) (p : Byte) : (lowBits m p).length = m := by simp [lowBits]

/-- The bits of a payload byte that are not clocked make no difference (45_engine_frames.md R151). -/
theorem lowBits_congr {m : Nat} {p q : Byte} (h : ∀ j < m, q.getLsbD j = p.getLsbD j) : lowBits m q = lowBits m p :=
  List.map_congr_left fun j hj => h j (List.mem_range.mp hj)

/-! ### What pulses and captures do, in the terms of the claims -/

theorem newTdo_of_wave {s t : State} {ps : List Pulse} (h : t.engine.wave = s.engine.wave ++ ps) :
    newTdo s t = ps.map Pulse.tdo := by
  rw [newTdo, h, List.drop_left]

/-- Pulses alone drive their levels, add no response and leave the rest. -/
theorem clock_drives (levels : List (Bool × Bool)) (s : State) :
    drives s (clock levels s).2 (levels.map Prod.fst) (levels.map Prod.snd) ∧
    (clock levels s).2.engine.resp = s.engine.resp ∧ leavesBlock s (clock levels s).2 ∧
    leavesEngineRegisters s (clock levels s).2 := by
  obtain ⟨ps, he, htms, htdi, -⟩ := clock_engine levels s
  exact ⟨⟨ps, by rw [he], htms, htdi⟩, by rw [he], (clock_engineOnly levels s).1,
    by simp [leavesEngineRegisters, he]⟩

/-- A capture of bits drives its levels, adds one response byte and leaves the rest. -/
theorem clockCaptureBits_captures {m : Nat} (hm : m ≤ 8) (levels : List (Bool × Bool)) (s : State) :
    drives s (clockCaptureBits m levels s) (levels.map Prod.fst) (levels.map Prod.snd) ∧
    capturesByte m s (clockCaptureBits m levels s) ∧ leavesBlock s (clockCaptureBits m levels s) ∧
    leavesEngineRegisters s (clockCaptureBits m levels s) := by
  obtain ⟨ps, fill, k, he, htms, htdi, -, hfill⟩ := clockCaptureBits_engine m levels s
  have hwave : (clockCaptureBits m levels s).engine.wave = s.engine.wave ++ ps := by rw [he]
  have hcaptures : capturesByte m s (clockCaptureBits m levels s) := by
    refine ⟨leftPack m (ps.map Pulse.tdo) fill, fill, by rw [he], fun j hj => ?_, fun j hj => ?_, hfill⟩
    · rw [newTdo_of_wave hwave, getLsbD_leftPack hm hj]
    · exact getLsbD_leftPack_fill hj
  exact ⟨⟨ps, hwave, htms, htdi⟩, hcaptures, (clockCaptureBits_engineOnly m levels s).1,
    by simp [leavesEngineRegisters, he]⟩

/-- A capture of bytes drives its levels, adds `c` response bytes and leaves the rest. -/
theorem clockCaptureBytes_captures (c : Nat) (levels : List (Bool × Bool)) (s : State) :
    drives s (clockCaptureBytes c levels s) (levels.map Prod.fst) (levels.map Prod.snd) ∧
    capturesBytes c s (clockCaptureBytes c levels s) ∧ leavesBlock s (clockCaptureBytes c levels s) ∧
    leavesEngineRegisters s (clockCaptureBytes c levels s) := by
  obtain ⟨ps, he, htms, htdi, -⟩ := clockCaptureBytes_engine c levels s
  have hwave : (clockCaptureBytes c levels s).engine.wave = s.engine.wave ++ ps := by rw [he]
  have hcaptures : capturesBytes c s (clockCaptureBytes c levels s) := by
    refine ⟨packBytes c (ps.map Pulse.tdo), length_packBytes _ _, by rw [he], fun k hk => ?_⟩
    rw [newTdo_of_wave hwave, bitAt_packBytes hk]
  exact ⟨⟨ps, hwave, htms, htdi⟩, hcaptures, (clockCaptureBytes_engineOnly c levels s).1,
    by simp [leavesEngineRegisters, he]⟩

/-- Pulses with TMS and TDI held leave both pins where they were. -/
theorem clock_held_pins (n : Nat) (s : State) :
    (clock (heldLevels s n) s).2.engine.tmsPin = s.engine.tmsPin ∧
    (clock (heldLevels s n) s).2.engine.tdiPin = s.engine.tdiPin := by
  obtain ⟨ps, he, -⟩ := clock_engine (heldLevels s n) s
  rw [he, heldLevels, List.getLast?_replicate]
  cases n <;> exact ⟨rfl, rfl⟩

/-- Pulses with TMS and TDI held: what a clock-only frame does. -/
theorem clock_held (n : Nat) (s : State) :
    drives s (clock (heldLevels s n) s).2 (List.replicate n s.engine.tmsPin) (List.replicate n s.engine.tdiPin) ∧
    (clock (heldLevels s n) s).2.engine.tmsPin = s.engine.tmsPin ∧
    (clock (heldLevels s n) s).2.engine.tdiPin = s.engine.tdiPin ∧
    (clock (heldLevels s n) s).2.engine.resp = s.engine.resp ∧ leavesBlock s (clock (heldLevels s n) s).2 ∧
    leavesEngineRegisters s (clock (heldLevels s n) s).2 := by
  obtain ⟨hdrives, hrest⟩ := clock_drives (heldLevels s n) s
  obtain ⟨htms, htdi⟩ := clock_held_pins n s
  rw [heldLevels_tms, heldLevels_tdi] at hdrives
  exact ⟨hdrives, htms, htdi, hrest⟩

/-! ### The frames -/

/-- Settles O50: both frames are a capture of bytes, of the held levels or of the payload's bits; the probe's header is
the one of `OP_DB_WR`. -/
theorem byteReadsCapture : Obligations.ByteReadsCapture := by
  refine ⟨fun neg c s => ⟨_, rfl, ?_⟩, fun neg payload s => ⟨_, rfl, ?_⟩, fun cfg => ?_⟩
  · have h := clockCaptureBytes_captures c (heldLevels s (8 * c)) s
    rwa [heldLevels_tms, heldLevels_tdi] at h
  · have h := clockCaptureBytes_captures payload.length (dataLevels s (allBits payload)) s
    rwa [dataLevels_tms, dataLevels_tdi, length_allBits] at h
  · exact congrArg some (byteHeader_append_eq_encode cfg cfg.probe)

/-- Settles O51: pulses or a capture of `m` bits, of the held levels or of the payload's low bits, which are all that
the frame sees of the payload. -/
theorem bitFrames : Obligations.BitFrames := by
  refine fun m p neg s _ hm => ⟨⟨_, rfl, ?_⟩, ⟨_, rfl, ?_⟩, ⟨_, rfl, ?_⟩, fun q hq => ?_⟩
  · have h := clock_drives (dataLevels s (lowBits m p)) s
    rwa [dataLevels_tms, dataLevels_tdi, length_lowBits] at h
  · have h := clockCaptureBits_captures hm (heldLevels s m) s
    rwa [heldLevels_tms, heldLevels_tdi] at h
  · have h := clockCaptureBits_captures hm (dataLevels s (lowBits m p)) s
    rwa [dataLevels_tms, dataLevels_tdi, length_lowBits] at h
  · simp only [exec, execOpBitW, execOpBitWr, lowBits_congr hq, and_self]

/-- Settles O52: both frames are pulses with the pins held. -/
theorem clockFramesHoldThePins : Obligations.ClockFramesHoldThePins :=
  ⟨fun g s => ⟨_, rfl, clock_held (8 * g) s⟩, fun r s => ⟨_, rfl, clock_held r s⟩⟩

end Sys2Proof.Machine
end

section
/-! PROOFS. The end of a transfer and the quirked chip's own responses (45_engine_frames.md R169), and how a read takes
responses (R149). -/

namespace Sys2Proof.Machine

/-! ### Which frames mark their transfer as one that captured -/

theorem clock_captured (levels : List (Bool × Bool)) (s : State) :
    (clock levels s).2.engine.captured = s.engine.captured := by
  obtain ⟨ps, he, -⟩ := clock_engine levels s
  rw [he]

theorem clockCaptureBits_captured (m : Nat) (levels : List (Bool × Bool)) (s : State) :
    (clockCaptureBits m levels s).engine.captured = true := rfl

theorem clockCaptureBytes_captured (c : Nat) (levels : List (Bool × Bool)) (s : State) :
    (clockCaptureBytes c levels s).engine.captured = true := rfl

/-- A frame marks its transfer exactly when it captures TDO. -/
theorem exec_captured {i : Instr} {s t : State} (hi : i.isRequest = false) (h : exec i s = .next t) :
    t.engine.captured = (s.engine.captured || capturesTdo i) := by
  cases i with
  | init | tmsShift | clockTick | dataShift | teardown => cases hi
  | opByteN | opBitN => cases h
  | opTmsW | opByteW | opBitW | opClkBytes | opClkBits =>
    cases h
    exact (clock_captured _ s).trans (Bool.or_false _).symm
  | opTmsWr | opBitR | opBitWr =>
    cases h
    exact (clockCaptureBits_captured _ _ s).trans (Bool.or_true _).symm
  | opByteR | opByteWr =>
    cases h
    exact (clockCaptureBytes_captured _ _ s).trans (Bool.or_true _).symm
  | opSetLow | opSetHigh | opLoopbackOn =>
    cases h
    exact (Bool.or_false _).symm

/-! ### The end of a transfer -/

section
variable {s : State} {transfers : List (List Byte)} (hi : s.engine.inbox = [] :: transfers)
include hi

theorem finishTransfer_captured : (finishTransfer s).engine.captured = false := by
  simp only [finishTransfer, hi, State.setEngine_engine]

/-- Nothing is added after a transfer that captured, or on a chip that is not quirked. -/
theorem finishTransfer_adds_nothing (hq : s.cfg.quirkedChip = false ∨ s.engine.captured = true) :
    finishTransfer s = s.setEngine { s.engine with inbox := transfers, captured := false } := by
  rcases hq with hq | hq
  · simp [finishTransfer, hi, hq]
  · exact finishTransfer_of_captured hi hq

/-- The scripted bytes are added after a transfer that captured nothing on a quirked chip. -/
theorem finishTransfer_adds_scripted {bs : List Byte} {coming : List (List Byte)} (hq : s.cfg.quirkedChip = true)
    (hc : s.engine.captured = false) (hs : s.inputs.chipResponses = bs :: coming) :
    (finishTransfer s).engine.resp = s.engine.resp ++ bs ∧ (finishTransfer s).inputs.chipResponses = coming := by
  simp [finishTransfer, drawChipResponses, hi, hq, hc, hs]

end

theorem finishTransfer_pinsFollow (s : State) : pinsFollow s (finishTransfer s) := by
  obtain ⟨bs, k, inbox, captured, he⟩ := finishTransfer_engine s
  simp [pinsFollow, he]

theorem finishTransfer_resp_prefix (s : State) : s.engine.resp <+: (finishTransfer s).engine.resp := by
  obtain ⟨bs, k, inbox, captured, he⟩ := finishTransfer_engine s
  rw [he]
  exact List.prefix_append _ _

/-! ### A read of an engine with nothing to execute -/

/-- The engine gives the first of its responses. -/
theorem callRead_of_idle {n : Nat} {s : State} (ho : s.oracle = .reference) (hr : s.inputs.read = [])
    (hbox : s.engine.inbox = []) (hsync : s.engine.sync = true) (hn : n ≤ s.engine.resp.length) :
    callRead n s = (some (s.engine.resp.take n), consumeResponses n s) := by
  have hidle : catchUp s = s := catchUp_nil hbox
  have hcan : canAnswer n s = true := by simp [canAnswer, ho, hbox, hsync, hn]
  have h := callRead_of_canAnswer (n := n) ho hr (by rwa [hidle])
  rwa [hidle] at h

/-- Settles O57: the mark by the kinds of frame, the end of a transfer by its cases, the read by the engine's own
answer. -/
theorem quirkedChipAddsResponses : Obligations.QuirkedChipAddsResponses := by
  refine ⟨fun i s t => exec_captured, fun s transfers hi => ?_, fun s b bytes transfers => finishTransfer_of_cons,
    fun s n => callRead_of_idle⟩
  refine ⟨finishTransfer_inbox hi, finishTransfer_captured hi, (finishTransfer_engineOnly s).1, finishTransfer_wave s,
    finishTransfer_pinsFollow s, finishTransfer_resp_prefix s,
    fun hq hc bs coming => finishTransfer_adds_scripted hi hq hc, fun hq => ?_⟩
  rw [finishTransfer_adds_nothing hi hq]
  exact ⟨rfl, rfl⟩

end Sys2Proof.Machine
end

section
/-! PROOFS. INIT with a `configure` that succeeds (40_initializer.md R99 to R103). -/

namespace Sys2Proof.Machine

/-! ### The answers of the two calls -/

/-- `configure` answers ok: it is scripted so, or the reference engine answers it itself. -/
def ConfigureSucceeds (s : State) : Prop :=
  (∃ oks, s.inputs.configure = true :: oks) ∨ (s.inputs.configure = [] ∧ s.oracle = .reference)

/-- `device_identity` answers `name`: it is scripted so, or it is the reference engine's product name. -/
def IdentityAnswers (name : Option String) (s : State) : Prop :=
  (∃ names, s.inputs.identity = name :: names) ∨
    (s.inputs.identity = [] ∧ s.oracle = .reference ∧ name = s.cfg.productName)

theorem configureAnswer_of_succeeds {pinCfg clockHz : Nat} {s : State} (h : ConfigureSucceeds s) :
    (configureAnswer pinCfg clockHz s).1 = true := by
  rcases h with ⟨oks, hscript⟩ | ⟨hnone, ho⟩
  · simp only [configureAnswer, hscript]
  · simp only [configureAnswer, hnone, ho]

theorem callIdentity_of_answers {name : Option String} {s : State} (h : IdentityAnswers name s) :
    (callIdentity s).1 = name := by
  rcases h with ⟨names, hscript⟩ | ⟨hnone, ho, rfl⟩
  · simp only [callIdentity, hscript]
  · simp only [callIdentity, hnone, ho]

/-- A `configure` that succeeds clears the reference engine's loopback bit (45_engine_frames.md R170). -/
theorem callConfigure_loop {pinCfg clockHz : Nat} {s : State} (h : ConfigureSucceeds s) (ho : s.oracle = .reference) :
    (callConfigure pinCfg clockHz s).2.engine.loop = false := by
  obtain ⟨oks, hs⟩ := configureAnswer_state pinCfg clockHz s
  simp only [callConfigure, configureAnswer_of_succeeds h, hs, settlePins, State.setInputs_oracle, ho, if_true,
    State.setEngine_engine]

/-! ### INIT -/

theorem configureCalled_of_succeeds {pinCfg clockHz : Nat} {s : State} (h : ConfigureSucceeds s) :
    configureCalled pinCfg clockHz s =
      (true, (callConfigure pinCfg clockHz s).2.record (.configure s.cfg.engineMode pinCfg clockHz true)) := by
  have hok : (callConfigure pinCfg clockHz s).1 = true := configureAnswer_of_succeeds h
  simp only [configureCalled, hok]

theorem identityCalled_of_answers {name : Option String} {s : State} (h : IdentityAnswers name s) :
    identityCalled s = (name, (callIdentity s).2.record (.identity name)) := by
  simp only [identityCalled, callIdentity_of_answers h]

/-- `configure` leaves the identity's answer as it was. -/
theorem identityAnswers_of_configured {pinCfg clockHz : Nat} {name : Option String} {s : State} (e : Event)
    (h : IdentityAnswers name s) : IdentityAnswers name ((callConfigure pinCfg clockHz s).2.record e) := by
  obtain ⟨⟨hcfg, horacle, -⟩, -, hidentity⟩ := callConfigure_state pinCfg clockHz s
  rwa [IdentityAnswers, State.record_inputs, State.record_oracle, State.record_cfg, hidentity, horacle, hcfg]

theorem execInit_of_admitted {pinCfg clockHz : Nat} {s : State} (hphase : s.phase = .uninit)
    (hsize : bufSizeOk s.cfg = true) : exec (.init pinCfg clockHz) s = .next (finish (initBody pinCfg clockHz s)) := by
  simp only [exec, execInit, initRefusal, hphase, hsize, ne_eq, not_true_eq_false, if_false, if_true]

/-- INIT's body after a `configure` that succeeds: what `initBody_state` leaves open. -/
theorem initBody_of_succeeds {pinCfg clockHz : Nat} {name : Option String} {s : State} (hc : ConfigureSucceeds s)
    (hn : IdentityAnswers name s) :
    ∃ t, initBody pinCfg clockHz s = .ok .unit t ∧ t.quirk = quirkOf s.cfg name ∧
      t.trace = s.trace ++ [.configure s.cfg.engineMode pinCfg clockHz true, .identity name] ∧
      (s.oracle = .reference → t.engine.loop = false) := by
  obtain ⟨⟨-, -, -, -, -, -, -, -, -, htrace, -⟩, -, -⟩ := callConfigure_state pinCfg clockHz s
  obtain ⟨⟨-, -, -, -, -, -, -, -, -, hidTrace, -⟩, hidEngine⟩ := callIdentity_leavesBlock
    ((callConfigure pinCfg clockHz s).2.record (.configure s.cfg.engineMode pinCfg clockHz true))
  simp only [initBody, configureCalled_of_succeeds hc, identityCalled_of_answers (identityAnswers_of_configured _ hn),
    if_true]
  refine ⟨_, rfl, rfl, ?_, fun ho => ?_⟩
  · simp [hidTrace, htrace]
  · simp [hidEngine, callConfigure_loop hc ho]

/-- Settles O28: the admitted INIT finishes with its body's success; the quirk flag is `quirkOf` of the name. -/
theorem initConfiguresThenReadsIdentity : Obligations.InitConfiguresThenReadsIdentity := by
  intro s pinCfg clockHz name hphase hlow hhigh hc hn
  obtain ⟨t, hbody, hquirk, htrace, hloop⟩ := initBody_of_succeeds (pinCfg := pinCfg) (clockHz := clockHz) hc hn
  obtain ⟨hcfg, horacle, hrequests, hmem, hfault, hdiag, hpending, hresults, -, hwave, hok, -⟩ :=
    initBody_state pinCfg clockHz s
  obtain ⟨-, hready⟩ := hok _ _ hbody
  rw [hbody] at hcfg horacle hrequests hmem hfault hdiag hpending hresults hwave
  have hexec := execInit_of_admitted (pinCfg := pinCfg) (clockHz := clockHz) hphase (decide_eq_true ⟨hlow, hhigh⟩)
  rw [hbody, finish_ok] at hexec
  have hresult := congrArg (· ++ [RequestResult.ok .unit]) hresults
  refine ⟨_, hexec, hready, hquirk.trans ?_, htrace, hresult, hmem, hfault, hdiag, hpending,
    ⟨hcfg, horacle, hrequests⟩, fun ho => ⟨hloop ho, hwave⟩⟩
  cases name <;> rfl

end Sys2Proof.Machine
end

section
/-! PROOFS. A fatal error ends its request at the failing call (60_exceptions.md R177, R178, R184; 70_reset_and_hazards.md
R215). -/

namespace Sys2Proof.Machine

/-! ### The failing call is the last event -/

/-- The event of the call whose answer inside a shift raises the error (20_memory.md R58, R60). -/
inductive FailedCall : BlockError → Event → Prop
  | flush (n : Nat) (r : Int) : FailedCall (.transportFailure (.flush n r)) (.flush n r)
  | read (n : Nat) (a : ReadAnswer) : FailedCall (.transportFailure (.read n a)) (.read n a)

/-- From `s` on the operation only adds to the trace, and the last event before a fatal error is the call that failed. -/
def StopsAtCall {α : Type} (s : State) : Res α → Prop
  | .ok _ t => s.trace <+: t.trace
  | .err e u => ∃ es call, FailedCall e call ∧ u.trace = s.trace ++ (es ++ [call])

theorem endsAtFailingCall_of_failedCall {e : BlockError} {call : Event} (h : FailedCall e call) (es : List Event) :
    endsAtFailingCall e (es ++ [call]) := by
  cases h <;> exact List.getLast?_concat

theorem StopsAtCall.of_prefix {α : Type} {s t : State} {r : Res α} (h : StopsAtCall t r) (hst : s.trace <+: t.trace) :
    StopsAtCall s r := by
  cases r with
  | ok a v => exact hst.trans h
  | err e u =>
    obtain ⟨es', hes'⟩ := hst
    obtain ⟨es, call, hcall, htrace⟩ := h
    exact ⟨es' ++ es, call, hcall, by rw [htrace, ← hes', List.append_assoc, List.append_assoc]⟩

theorem StopsAtCall.andThen {α β : Type} {s : State} {r : Res α} {f : α → State → Res β} (h : StopsAtCall s r)
    (hf : ∀ a t, StopsAtCall t (f a t)) : StopsAtCall s (r.andThen f) := by
  cases r with
  | ok a t => exact (hf a t).of_prefix h
  | err e u => exact h

theorem ok_stopsAtCall {α : Type} (a : α) (s : State) : StopsAtCall s (.ok a s) := List.prefix_refl _

theorem StopsAtCall.of_enq {α : Type} {bs : List Byte} {s : State} {r : Res α} (h : StopsAtCall (enq bs s) r) :
    StopsAtCall s r := h.of_prefix (List.prefix_append _ _)

theorem StopsAtCall.of_enqTdi {α : Type} {tdi : Option Buf} {cur n : Nat} {s : State} {r : Res α}
    (h : StopsAtCall (enqTdi tdi cur n s) r) : StopsAtCall s r := by
  cases tdi with
  | none => exact h
  | some b => exact h.of_enq

/-! ### The primitives (20_memory.md R57 to R62) -/

theorem flush_stopsAtCall (s : State) : StopsAtCall s (flush s) := by
  obtain ⟨-, -, -, -, htrace, -⟩ := callFlush_state s
  rcases flush_cases s with ⟨-, e⟩ | ⟨-, -, e⟩ | ⟨-, -, e⟩ <;> rw [e]
  · exact ok_stopsAtCall () s
  · exact ⟨_, htrace.symm⟩
  · exact ⟨[], _, .flush _ _, htrace⟩

theorem captureRead_stopsAtCall (n : Nat) (s : State) : StopsAtCall s (captureRead n s) := by
  obtain ⟨a, t, htrace, -, -, -, -, -, -, hread⟩ := captureRead_state n s
  have hfail : StopsAtCall s (.err (.transportFailure (.read n a)) t : Res (List Byte)) := ⟨[], _, .read n a, htrace⟩
  rw [hread]
  split
  · split
    · exact ⟨_, htrace.symm⟩
    · exact hfail
  · exact hfail

theorem readBack_stopsAtCall (n : Nat) (s : State) : StopsAtCall s (readBack n s) :=
  (flush_stopsAtCall s).andThen fun _ t => captureRead_stopsAtCall n t

theorem drain_stopsAtCall (n : Nat) (s : State) : StopsAtCall s (drain n s) :=
  (flush_stopsAtCall s).andThen fun _ t => by
    obtain ⟨a, htrace, -⟩ := drainRead_state n t
    exact ⟨_, htrace.symm⟩

theorem writeDone_stopsAtCall (n : Nat) (s : State) : StopsAtCall s (writeDone n s) := by
  unfold writeDone
  split
  · exact drain_stopsAtCall n s
  · exact flush_stopsAtCall s

/-! ### TMS_SHIFT and CLOCK_TICK -/

theorem flushDrain_stopsAtCall (n : Nat) (s : State) : StopsAtCall s (flushDrain n s) :=
  (flush_stopsAtCall s).andThen fun _ t => by
    split
    · exact drain_stopsAtCall n t
    · exact ok_stopsAtCall () t

theorem sendTmsFrames_stopsAtCall (perFlush n : Nat) (frames : List (List Byte)) (k : Nat) (s : State) :
    StopsAtCall s (sendTmsFrames perFlush n frames k s) := by
  induction frames generalizing k s with
  | nil => exact ok_stopsAtCall () s
  | cons frame frames ih =>
    rw [sendTmsFrames]
    split
    · exact ((flushDrain_stopsAtCall n (enq frame s)).andThen fun _ t => ih 0 t).of_enq
    · exact (ih (k + 1) (enq frame s)).of_enq

theorem tmsBody_stopsAtCall (bits : Nat → Bool) (len : Nat) (s : State) : StopsAtCall s (tmsBody bits len s) := by
  unfold tmsBody
  split
  · exact ok_stopsAtCall _ s
  · exact ((sendTmsFrames_stopsAtCall _ _ _ _ s).andThen fun _ t => flushDrain_stopsAtCall _ t).andThen
      fun _ t => ok_stopsAtCall _ t

theorem clockFrame_stopsAtCall (units : Nat) (frame : List Byte) (s : State) :
    StopsAtCall s (clockFrame units frame s) := by
  unfold clockFrame
  split
  · exact ok_stopsAtCall () s
  · exact (flush_stopsAtCall (enq frame s)).of_enq

theorem clockFast_stopsAtCall (count : Nat) (s : State) : StopsAtCall s (clockFast count s) :=
  ((clockFrame_stopsAtCall _ _ s).andThen fun _ t => clockFrame_stopsAtCall _ _ t).andThen
    fun _ t => ok_stopsAtCall _ t

/-! ### DATA_SHIFT -/

/-- Storing what was captured, or scrambling what was not, records nothing after the close's own calls. -/
theorem closeStep_stopsAtCall (tdo : Option Nat) (n : Nat) (store : State → List Byte → List Byte) (s : State) :
    StopsAtCall s (closeStep tdo n store s) := by
  cases tdo with
  | none => exact writeDone_stopsAtCall n s
  | some a =>
    have h := readBack_stopsAtCall n s
    unfold closeStep
    cases hread : readBack n s with
    | ok bs t =>
      rw [hread] at h
      exact h
    | err e u =>
      rw [hread] at h
      exact h

theorem dataChunk_stopsAtCall (tdi tdo : Option Buf) (cur c : Nat) (s : State) :
    StopsAtCall s (dataChunk tdi tdo cur c s) := (closeStep_stopsAtCall _ _ _ _).of_enqTdi.of_enq

theorem dataChunks_stopsAtCall (tdi tdo : Option Buf) (sizes : List Nat) (cur : Nat) (s : State) :
    StopsAtCall s (dataChunks tdi tdo sizes cur s) := by
  induction sizes generalizing cur s with
  | nil => exact ok_stopsAtCall () s
  | cons c sizes ih => exact (dataChunk_stopsAtCall tdi tdo cur c s).andThen fun _ t => ih _ t

theorem dataResidual_stopsAtCall (tdi tdo : Option Buf) (nbByte nbBit : Nat) (s : State) :
    StopsAtCall s (dataResidual tdi tdo nbByte nbBit s) := by
  unfold dataResidual
  split
  · exact ok_stopsAtCall () s
  · exact (closeStep_stopsAtCall _ _ _ _).of_enqTdi.of_enq

theorem dataExit_stopsAtCall (tdi tdo : Option Buf) (nbByte nbBit : Nat) (last : Bool) (s : State) :
    StopsAtCall s (dataExit tdi tdo nbByte nbBit last s) := by
  unfold dataExit
  split
  · exact (closeStep_stopsAtCall _ _ _ _).of_enq
  · exact ok_stopsAtCall () s

theorem dataSteps_stopsAtCall (tdi tdo : Option Buf) (nbByte nbBit : Nat) (last : Bool) (s : State) :
    StopsAtCall s (dataSteps tdi tdo nbByte nbBit last s) :=
  (((dataChunks_stopsAtCall tdi tdo _ _ s).andThen fun _ t => dataResidual_stopsAtCall tdi tdo nbByte nbBit t).andThen
    fun _ t => dataExit_stopsAtCall tdi tdo nbByte nbBit last t).andThen fun _ t => ok_stopsAtCall _ t

/-! ### What a body leaves where it stops -/

/-- In state `u` a request that began in `s` stops at the fatal error `e`, which is then raised there. -/
structure StoppedAt (s : State) (e : BlockError) (u : State) : Prop where
  oracle : u.oracle = s.oracle
  fault : u.fault = s.fault
  quirk : u.quirk = s.quirk
  pending : u.pending = []
  trace : ∃ es, u.trace = s.trace ++ es ∧ endsAtFailingCall e es

theorem stoppedAt_of_stopsAtCall {r : Res OkValue} {s u : State} {e : BlockError} (hw : worked s r.state)
    (hp : r.state.pending = []) (hs : StopsAtCall s r) (h : r = .err e u) : StoppedAt s e u := by
  subst h
  obtain ⟨-, horacle, -, -, hquirk, hfault, -⟩ := hw
  obtain ⟨es, call, hcall, htrace⟩ := hs
  exact ⟨horacle, hfault, hquirk, hp, es ++ [call], htrace, endsAtFailingCall_of_failedCall hcall es⟩

section
variable {s u : State} {e : BlockError} (hp : s.pending = [])
include hp

theorem initBody_stoppedAt {pinCfg clockHz : Nat} (h : initBody pinCfg clockHz s = .err e u) : StoppedAt s e u := by
  obtain ⟨-, horacle, -, -, hfault, -, hpending, -, -, -, -, herr⟩ := initBody_state pinCfg clockHz s
  obtain ⟨rfl, hquirk, htrace⟩ := herr e u h
  rw [h] at horacle hfault hpending
  exact ⟨horacle, hfault, hquirk, hpending.trans hp, _, htrace, _, _, _, rfl⟩

theorem tmsBody_stoppedAt {bits : Nat → Bool} {len : Nat} (h : tmsBody bits len s = .err e u) : StoppedAt s e u :=
  stoppedAt_of_stopsAtCall (tmsBody_worked bits len s) (tmsBody_pending hp) (tmsBody_stopsAtCall bits len s) h

theorem clockFast_stoppedAt {count : Nat} (h : clockFast count s = .err e u) : StoppedAt s e u := by
  obtain ⟨hw, -, -, hpending, -⟩ := clockFast_state count s
  exact stoppedAt_of_stopsAtCall hw (hpending hp) (clockFast_stopsAtCall count s) h

/-- The length check stops DATA_SHIFT before its first call (43_data_shifter.md R129), its steps stop at a call. -/
theorem dataBody_stoppedAt {tdi tdo : Option Buf} {len : Nat} {last : Bool}
    (h : dataBody tdi tdo len last s = .err e u) : StoppedAt s e u := by
  rw [dataBody_eq] at h
  split at h
  · cases h
    exact ⟨rfl, rfl, rfl, hp, [], (List.append_nil _).symm, rfl⟩
  · exact stoppedAt_of_stopsAtCall (dataSteps_worked _ _ _ _ _ s) (dataSteps_pending hp)
      (dataSteps_stopsAtCall _ _ _ _ _ s) h

end

/-! ### The whole request -/

theorem refuse_results_ne_err (reason : RefusedReason) (e : BlockError) (s : State) :
    (refuse reason s).results ≠ s.results ++ [.err e] := by simp [refuse]

/-- A request whose new result is an error is one whose body stopped at that error. -/
theorem finish_eq_raise {r : Res OkValue} {s : State} {e : BlockError} (hr : r.state.results = s.results)
    (h : (finish r).results = s.results ++ [.err e]) : ∃ u, r = .err e u ∧ finish r = raise e u := by
  cases r with
  | ok v t =>
    have ht : t.results = s.results := hr
    simp [finish_ok, ht] at h
  | err e' u =>
    have hu : u.results = s.results := hr
    simp only [finish_err, raise_results, hu, List.append_cancel_left_eq, List.cons.injEq, RequestResult.err.injEq,
      and_true] at h
    subst h
    exact ⟨u, rfl, rfl⟩

theorem finish_raises {r : Res OkValue} {s : State} {e : BlockError} (hr : r.state.results = s.results)
    (hstop : ∀ u, r = .err e u → StoppedAt s e u) (h : (finish r).results = s.results ++ [.err e]) :
    ∃ u, finish r = raise e u ∧ StoppedAt s e u := by
  obtain ⟨u, hu, hfinish⟩ := finish_eq_raise hr h
  exact ⟨u, hfinish, hstop u hu⟩

theorem results_of_worked {s t : State} (h : worked s t) : t.results = s.results := by
  obtain ⟨-, -, -, -, -, -, hresults, -⟩ := h
  exact hresults

/-- TEARDOWN raises no error: it is refused or ends with `ok` (44_teardown.md R145). -/
theorem execTeardown_results_ne_err {s t : State} (h : execTeardown s = .next t) (e : BlockError) :
    t.results ≠ s.results ++ [.err e] := by
  cases execTeardown_ending h with
  | frame hi _ => cases hi
  | refused _ reason => exact refuse_results_ne_err reason e s
  | initialized _ _ hi _ => cases hi
  | shifted _ _ hn _ _ => exact absurd rfl hn
  | nothingToClose => simp
  | closed => simp [results_of_worked (selfTest_state s).1]

/-- All that a request that ends in a fatal error can be: its body stopped at the error, and the error was raised. -/
theorem exec_raises {i : Instr} {s t : State} {e : BlockError} (hi : i.isRequest = true) (hp : s.pending = [])
    (h : exec i s = .next t) (he : t.results = s.results ++ [.err e]) : ∃ u, t = raise e u ∧ StoppedAt s e u := by
  cases i with
  | init pinCfg clockHz =>
    simp only [exec, execInit] at h
    cases h
    split at he
    · exact absurd he (refuse_results_ne_err _ e s)
    · obtain ⟨-, -, -, -, -, -, -, hresults, -⟩ := initBody_state pinCfg clockHz s
      exact finish_raises hresults (fun u => initBody_stoppedAt hp) he
  | tmsShift tms len =>
    simp only [exec, execTmsShift] at h
    cases h
    split at he
    · exact absurd he (refuse_results_ne_err _ e s)
    · exact finish_raises (results_of_worked (tmsBody_worked _ len s)) (fun u => tmsBody_stoppedAt hp) he
  | clockTick tmsLevel tdiLevel count =>
    simp only [exec, execClockTick] at h
    cases h
    split at he
    · exact absurd he (refuse_results_ne_err _ e s)
    · by_cases hcap : s.cfg.clkOnlyCapable = true
      · rw [if_pos hcap] at he ⊢
        exact finish_raises (results_of_worked (clockFast_state count s).1) (fun u => clockFast_stoppedAt hp) he
      · rw [if_neg hcap] at he ⊢
        exact finish_raises (results_of_worked (tmsBody_worked _ count s)) (fun u => tmsBody_stoppedAt hp) he
  | dataShift tdi tdo len last =>
    simp only [exec, execDataShift] at h
    cases h
    split at he
    · exact absurd he (refuse_results_ne_err _ e s)
    · exact finish_raises (results_of_worked (dataBody_worked tdi tdo len last s)) (fun u => dataBody_stoppedAt hp) he
  | teardown => exact absurd he (execTeardown_results_ne_err h e)
  | _ => cases hi

/-- Settles O20: the request's body stopped at the failing call (`exec_raises`), and raising the error there adds no
event. -/
theorem fatalErrorEndsAtTheFailingCall : Obligations.FatalErrorEndsAtTheFailingCall := by
  intro i s t e hi hp h he
  obtain ⟨u, rfl, hu⟩ := exec_raises hi hp h he
  refine ⟨raise_phase e u, ?_, (raise_quirk e u).trans hu.quirk, (raise_pending e u).trans hu.pending, ?_, ?_⟩
  · rw [raise_fault, hu.fault]
  · rw [raise_trace]
    exact hu.trace
  · rintro ⟨info, rfl⟩ ho
    exact engineAfter_sync (hu.oracle.trans ho)

end Sys2Proof.Machine
end

section
/-! PROOFS. The decoder and the encoder agree (30_encoding.md): an encoding decodes to what it encodes, and what decodes is
an encoding. -/

namespace Sys2Proof

/-! ### An encoding decodes to what it encodes -/

/-- A natural that fits its field is read back from the record. -/
theorem takeNat_of_fitsField {n : Nat} (rest : List Byte) (h : fitsField n = true) :
    takeNat 8 (leBytes 8 n ++ rest) = some (n, rest) :=
  takeNat_leBytes 8 n rest (of_decide_eq_true h)

theorem fitsField_of_takeNat {n : Nat} {bs rest : List Byte} (h : takeNat 8 bs = some (n, rest)) :
    fitsField n = true ∧ leBytes 8 n ++ rest = bs :=
  ⟨decide_eq_true (takeNat_some h).1, (takeNat_some h).2⟩

/-- What follows the tag of a well-formed request decodes to the request and leaves the bytes behind it. -/
theorem decodeFields_encode_request {o : OpCodes} {i : Instr} {op : Byte} {bs : List Byte} (rest : List Byte)
    (hi : i.isRequest = true) (hw : i.wellFormed = true) (he : encode o i = op :: bs) :
    decodeFields (readNegOf i) (bs ++ rest) (rowKind i) = some (i, rest) := by
  cases i with
  | init | tmsShift | clockTick | dataShift | teardown =>
    cases he
    simp only [Instr.wellFormed, Bool.and_eq_true] at hw
    simp [decodeFields, rowKind, hw, takeNat_of_fitsField, takeBuf_bufBytes, takeOptBuf_optBufBytes, takeBit_bitByte]
  | _ => cases hi

/-- An instruction whose row is found by its first byte is decoded from its encoding if its fields are. -/
theorem decodeBy_encode {rows : List OpRow} {o : OpCodes} {i : Instr} {op : Byte} {bs rest : List Byte}
    (he : encode o i = op :: bs) (hfind : rowOf rows op = some ⟨rowKind i, op, readNegOf i⟩)
    (hfields : decodeFields (readNegOf i) (bs ++ rest) (rowKind i) = some (i, rest)) :
    decodeBy rows (encode o i ++ rest) = .ok (i, rest) := by
  simp only [he, List.cons_append, decodeBy, hfind, hfields]

/-- A request's row is found among the tags. -/
theorem rowOf_tagRows {o : OpCodes} {i : Instr} (hi : i.isRequest = true) :
    ∃ op bs, encode o i = op :: bs ∧ rowOf tagRows op = some ⟨rowKind i, op, readNegOf i⟩ := by
  obtain ⟨op, bs, he, hrow⟩ := encode_first i o
  rw [if_pos hi] at hrow
  exact ⟨op, bs, he, rowOf_of_mem (by decide) hrow⟩

theorem rowOf_append_left {rows rows' : List OpRow} {b : Byte} {row : OpRow} (h : rowOf rows b = some row) :
    rowOf (rows ++ rows') b = some row := by
  rw [rowOf] at h ⊢
  rw [List.find?_append, h, Option.some_or]

/-- Settles O1: the tags are distinct and come before the opcodes, so a request's row is found whatever the opcodes are,
and each field is read back. -/
theorem decodeEncodeRequests : Obligations.DecodeEncodeRequests := by
  intro o i rest hi hw
  obtain ⟨op, bs, he, hfind⟩ := rowOf_tagRows (o := o) hi
  refine ⟨decodeBy_encode he (rowOf_append_left hfind) (decodeFields_encode_request rest hi hw he), ?_⟩
  have hrecord := decodeBy_encode he hfind (decodeFields_encode_request [] hi hw he)
  rw [List.append_nil] at hrecord
  simp only [decodeRequest, hrecord]

/-- Settles O2: distinct first bytes single out the frame's row, and each field is read back. -/
theorem decodeEncodeFrames : Obligations.DecodeEncodeFrames := by
  refine fun o i rest hi hw => ⟨fun ho => decodeFrame_encode rest ho hi hw, fun hd => ?_⟩
  obtain ⟨op, bs, he, hrow⟩ := encode_first i o
  rw [hi, if_neg Bool.false_ne_true] at hrow
  exact decodeBy_encode he (rowOf_of_mem hd (List.mem_append_right _ hrow)) (decodeFields_encode rest hi hw he)

/-! ### What decodes is an encoding -/

/-- Whether the kind's opcodes have a READ_NEG bit (30_encoding.md R80). -/
def OpKind.reads : OpKind → Bool
  | .tmsWr | .byteR | .byteWr | .bitR | .bitWr => true
  | _ => false

/-- Fields that decode are those of a well-formed instruction, whose READ_NEG bit is the row's where its kind has one. -/
theorem decodeFields_some {neg : Bool} {bs rest : List Byte} {kind : OpKind} {i : Instr}
    (h : decodeFields neg bs kind = some (i, rest)) :
    i.wellFormed = true ∧ readNegOf i = (neg && kind.reads) ∧ ∀ o, (encode o i).tail ++ rest = bs := by
  cases kind <;>
    simp only [decodeFields, Option.bind_eq_bind, Option.bind_eq_some_iff, Option.some.injEq, Prod.mk.injEq,
      Prod.exists] at h
  case init =>
    obtain ⟨pinCfg, r, e1, clockHz, r', e2, rfl, rfl⟩ := h
    obtain ⟨h1, rfl⟩ := fitsField_of_takeNat e1
    obtain ⟨h2, rfl⟩ := fitsField_of_takeNat e2
    simp [Instr.wellFormed, readNegOf, OpKind.reads, encode, h1, h2]
  case tmsShift =>
    obtain ⟨tms, r, e1, len, r', e2, rfl, rfl⟩ := h
    obtain ⟨h1, rfl⟩ := takeBuf_some e1
    obtain ⟨h2, rfl⟩ := fitsField_of_takeNat e2
    simp [Instr.wellFormed, readNegOf, OpKind.reads, encode, h1, h2]
  case clockTick =>
    obtain ⟨tmsLevel, r, e1, tdiLevel, r', e2, count, r'', e3, rfl, rfl⟩ := h
    obtain rfl := takeBit_some e1
    obtain rfl := takeBit_some e2
    obtain ⟨h3, rfl⟩ := fitsField_of_takeNat e3
    simp [Instr.wellFormed, readNegOf, OpKind.reads, encode, h3]
  case dataShift =>
    obtain ⟨tdi, r, e1, tdo, r', e2, len, r2, e3, last, r3, e4, rfl, rfl⟩ := h
    obtain ⟨h1, rfl⟩ := takeOptBuf_some e1
    obtain ⟨h2, rfl⟩ := takeOptBuf_some e2
    obtain ⟨h3, rfl⟩ := fitsField_of_takeNat e3
    obtain rfl := takeBit_some e4
    simp [Instr.wellFormed, readNegOf, OpKind.reads, encode, h1, h2, h3]
  case teardown | loopbackOn =>
    obtain ⟨rfl, rfl⟩ := h
    simp [Instr.wellFormed, readNegOf, OpKind.reads, encode]
  case tmsW | tmsWr | bitW | bitWr =>
    obtain ⟨n, r, e1, d, r', e2, rfl, rfl⟩ := h
    obtain ⟨h1, h2, rfl⟩ := takeBitCount_some e1
    obtain rfl := takeByte_some e2
    simp [Instr.wellFormed, tmsCount, bitCount, readNegOf, OpKind.reads, encode, h1, h2]
  case byteW | byteWr =>
    obtain ⟨c, r, e1, payload, r', e2, rfl, rfl⟩ := h
    obtain ⟨h1, h2, rfl⟩ := takeByteCount_some e1
    obtain ⟨rfl, rfl⟩ := takeBytes_some e2
    simp [Instr.wellFormed, byteCount, readNegOf, OpKind.reads, encode, h1, h2]
  case byteN | byteR | clkBytes =>
    obtain ⟨c, r, e1, rfl, rfl⟩ := h
    obtain ⟨h1, h2, rfl⟩ := takeByteCount_some e1
    simp [Instr.wellFormed, byteCount, readNegOf, OpKind.reads, encode, h1, h2]
  case bitN | bitR | clkBits =>
    obtain ⟨m, r, e1, rfl, rfl⟩ := h
    obtain ⟨h1, h2, rfl⟩ := takeBitCount_some e1
    simp [Instr.wellFormed, bitCount, readNegOf, OpKind.reads, encode, h1, h2]
  case setLow | setHigh =>
    obtain ⟨value, r, e1, direction, r', e2, rfl, rfl⟩ := h
    obtain rfl := takeByte_some e1
    obtain rfl := takeByte_some e2
    simp [Instr.wellFormed, readNegOf, OpKind.reads, encode]

/-- A row's kind and READ_NEG bit, without its value. -/
def OpRow.form (row : OpRow) : OpKind × Bool := (row.kind, row.neg)

/-- The forms of the rows do not depend on the opcode parameters. -/
theorem rows_form (o : OpCodes) :
    (tagRows ++ opRows o).map OpRow.form = (tagRows ++ opRows OpCodes.defaults).map OpRow.form := rfl

/-- Only a kind that reads has a row with READ_NEG set. -/
theorem reads_of_row {o : OpCodes} {row : OpRow} (h : row ∈ tagRows ++ opRows o) :
    (row.neg && row.kind.reads) = row.neg := by
  have hall : ∀ f ∈ (tagRows ++ opRows OpCodes.defaults).map OpRow.form, (f.2 && f.1.reads) = f.2 := by decide
  rw [← rows_form o] at hall
  exact hall row.form (List.mem_map_of_mem h)

/-- No two rows have one form. -/
theorem row_eq_of_form {o : OpCodes} {row row' : OpRow} (h : row ∈ tagRows ++ opRows o)
    (h' : row' ∈ tagRows ++ opRows o) (he : row.form = row'.form) : row = row' := by
  have hd : ((tagRows ++ opRows o).map OpRow.form).Nodup := by
    rw [rows_form]
    decide
  exact List.inj_on_of_nodup_map hd h h' he

/-- Bytes that decode by rows of the table begin with the encoding of a well-formed instruction. -/
theorem encode_of_decodeBy {rows : List OpRow} {o : OpCodes} {bytes rest : List Byte} {i : Instr}
    (hrows : rows ⊆ tagRows ++ opRows o) (h : decodeBy rows bytes = .ok (i, rest)) :
    i.wellFormed = true ∧ encode o i ++ rest = bytes := by
  obtain ⟨op, bs, row, rfl, hfind, hfields⟩ := decodeBy_ok h
  obtain ⟨hmem, rfl⟩ := mem_of_rowOf hfind
  obtain ⟨hw, hneg, htail⟩ := decodeFields_some hfields
  obtain ⟨op, bs', he, hrow⟩ := encode_first i o
  have hmem' : (⟨rowKind i, op, readNegOf i⟩ : OpRow) ∈ tagRows ++ opRows o := by
    split at hrow
    · exact List.mem_append_left _ hrow
    · exact List.mem_append_right _ hrow
  have hsame := row_eq_of_form (hrows hmem) hmem'
    (Prod.ext (decodeFields_kind hfields).symm ((hneg.trans (reads_of_row (hrows hmem))).symm))
  refine ⟨hw, ?_⟩
  rw [← htail o, he, hsame]
  rfl

theorem decodeRequest_some {record : List Byte} {i : Instr} (h : decodeRequest record = some i) :
    decodeBy tagRows record = .ok (i, []) := by
  unfold decodeRequest at h
  split at h
  · next hok =>
    cases h
    exact hok
  · cases h
  · cases h

/-- What decodes as a record is a request. -/
theorem isRequest_of_decodeRequest {record : List Byte} {i : Instr} (h : decodeRequest record = some i) :
    i.isRequest = true := by
  obtain ⟨op, bs, row, -, hfind, hfields⟩ := decodeBy_ok (decodeRequest_some h)
  rw [isRequest_iff_kind, decodeFields_kind hfields]
  exact List.mem_map_of_mem (mem_of_rowOf hfind).1

/-- Settles O3: all three decoders decode by rows of the one table. -/
theorem decodedBytesAreTheEncoding : Obligations.DecodedBytesAreTheEncoding := by
  refine fun o bytes rest i => ⟨encode_of_decodeBy fun _ => id, fun h => ?_, fun h => ?_⟩
  · obtain ⟨hw, he⟩ := encode_of_decodeBy (o := o) (List.subset_append_left _ _) (decodeRequest_some h)
    exact ⟨isRequest_of_decodeRequest h, hw, (List.append_nil _).symm.trans he⟩
  · exact ⟨isRequest_of_decodeFrame h, encode_of_decodeBy (List.subset_append_right _ _) (decodeFrame_some h)⟩

/-- Settles O4: each word is decoded by evaluation. -/
theorem writtenOutWordsDecode : Obligations.WrittenOutWordsDecode := by
  unfold Obligations.WrittenOutWordsDecode
  decide

end Sys2Proof
end

section
/-! PROOFS. A step of the machine: what it runs, and bytes that are no instruction (30_encoding.md R77, 45_engine_frames.md
R168); and the state after reset. -/

namespace Sys2Proof.Machine

open Host (Outcome)

/-! ### What a step runs -/

theorem frameStep_nil (run : Instr → State → Outcome State Fault Refusal) (transfers : List (List Byte)) (s : State) :
    frameStep run [] transfers s = .next (finishTransfer s) := rfl

/-- A transfer that decodes runs its first frame. -/
theorem frameStep_of_decodeFrame (run : Instr → State → Outcome State Fault Refusal) {transfer rest : List Byte}
    {i : Instr} (transfers : List (List Byte)) {s : State} (h : decodeFrame s.cfg.ops transfer = some (i, rest)) :
    frameStep run transfer transfers s = afterFrame (run i (setInbox (rest :: transfers) s)) := by
  cases transfer with
  | nil => cases h
  | cons b bs => simp only [frameStep, h]

/-- A transfer that does not decode stops the engine, which names it. -/
theorem frameStep_of_decodeFrame_none (run : Instr → State → Outcome State Fault Refusal) {transfer : List Byte}
    (transfers : List (List Byte)) {s : State} (hne : transfer ≠ []) (h : decodeFrame s.cfg.ops transfer = none) :
    frameStep run transfer transfers s = .fault (.engineUnmodelled transfer) := by
  cases transfer with
  | nil => exact absurd rfl hne
  | cons b bs => simp only [frameStep, h]

theorem step_of_inbox {s : State} {transfer : List Byte} {transfers : List (List Byte)}
    (hi : s.engine.inbox = transfer :: transfers) : step s = frameStep exec transfer transfers s := by
  simp only [step, hi]

section
variable {s : State} {record : List Byte} {records : List (List Byte)} (hi : s.engine.inbox = [])
  (hr : s.requests = record :: records)
include hi hr

theorem step_of_decodeRequest {i : Instr} (h : decodeRequest record = some i) :
    step s = exec i (s.setRequests records) := by
  simp only [step, hi, hr, h]

theorem step_of_decodeRequest_none (h : decodeRequest record = none) :
    step s = .next (refuse .malformedRequest (s.setRequests records)) := by
  simp only [step, hi, hr, h]

end

/-- Settles O8: the first match of `step` is on the engine's inbox, the second on the caller's records. -/
theorem stepRunsDecodedInstruction : Obligations.StepRunsDecodedInstruction := by
  refine ⟨fun s i record records hi hr => step_of_decodeRequest hi hr, fun s i bytes rest transfers hi hd => ?_,
    fun s transfers hi => ?_⟩
  · rw [step_of_inbox hi, frameStep_of_decodeFrame exec transfers hd]
  · rw [step_of_inbox hi, frameStep_nil]

/-! ### Bytes that are no instruction -/

/-- A record that is the encoding of no well-formed request does not decode. -/
theorem decodeRequest_eq_none {o : OpCodes} {record : List Byte}
    (h : ∀ i : Instr, i.isRequest = true → i.wellFormed = true → record ≠ encode o i) :
    decodeRequest record = none := by
  refine Option.eq_none_iff_forall_ne_some.mpr fun i hi => ?_
  obtain ⟨-, hrecord, -⟩ := decodedBytesAreTheEncoding o record [] i
  obtain ⟨hreq, hw, he⟩ := hrecord hi
  exact h i hreq hw he.symm

/-- Bytes that begin with the encoding of no well-formed frame do not decode as a frame. -/
theorem decodeFrame_eq_none {o : OpCodes} {transfer : List Byte}
    (h : ∀ (i : Instr) (rest : List Byte), i.isRequest = false → i.wellFormed = true →
      transfer ≠ encode o i ++ rest) : decodeFrame o transfer = none := by
  refine Option.eq_none_iff_forall_ne_some.mpr fun ⟨i, rest⟩ hi => ?_
  obtain ⟨-, -, hframe⟩ := decodedBytesAreTheEncoding o transfer rest i
  obtain ⟨hreq, hw, he⟩ := hframe hi
  exact h i rest hreq hw he.symm

/-- Settles O9: what decodes is an encoding (O3), so these bytes do not decode. -/
theorem bytesThatAreNoInstruction : Obligations.BytesThatAreNoInstruction := by
  refine ⟨fun s record records hi hr hnone => ?_, fun s transfer transfers hne hi hnone => ?_⟩
  · exact step_of_decodeRequest_none hi hr (decodeRequest_eq_none hnone)
  · rw [step_of_inbox hi, frameStep_of_decodeFrame_none exec transfers hne (decodeFrame_eq_none hnone)]

/-! ### Reset -/

/-- Settles O10: each register is read off `State.resetWith`. -/
theorem resetRegisters : Obligations.ResetRegisters := fun _ => ⟨rfl, rfl, rfl, rfl, rfl, rfl, rfl, rfl⟩

/-- Settles O11: memory, `pending` and the trace are empty, and the phase is UNINIT with quirk 0 and no fault. -/
theorem resetMeetsInvariant : Obligations.ResetMeetsInvariant := fun _ =>
  ⟨⟨List.Pairwise.nil, nofun⟩, rfl, ⟨rfl, rfl⟩, rfl⟩

end Sys2Proof.Machine
end

section
/-! PROOFS. What a request can do, request by request: it is refused, or its body runs and finishes, or TEARDOWN has nothing
to close or closes; and from it the rules of the whole machine (10_state.md section 4, 60_exceptions.md sections 1 to 3). -/

namespace Sys2Proof.Machine

open Host (Outcome)

/-! ### The end of a request -/

@[simp] theorem finish_cfg (r : Res OkValue) : (finish r).cfg = r.state.cfg := by
  cases r with
  | ok v s => rfl
  | err e s => exact raise_cfg e s

@[simp] theorem finish_oracle (r : Res OkValue) : (finish r).oracle = r.state.oracle := by
  cases r with
  | ok v s => rfl
  | err e s => exact raise_oracle e s

@[simp] theorem finish_requests (r : Res OkValue) : (finish r).requests = r.state.requests := by
  cases r with
  | ok v s => rfl
  | err e s => exact raise_requests e s

@[simp] theorem finish_diag (r : Res OkValue) : (finish r).diag = r.state.diag := by
  cases r with
  | ok v s => rfl
  | err e s => exact raise_diag e s

@[simp] theorem finish_pending (r : Res OkValue) : (finish r).pending = r.state.pending := by
  cases r with
  | ok v s => rfl
  | err e s => exact raise_pending e s

/-- The outcome that the end of a request records (60_exceptions.md R175). -/
def Res.outcome : Res OkValue → RequestResult
  | .ok v _ => .ok v
  | .err e _ => .err e

@[simp] theorem finish_results (r : Res OkValue) : (finish r).results = r.state.results ++ [r.outcome] := by
  cases r with
  | ok v s => rfl
  | err e s => exact raise_results e s

theorem finish_wave_prefix (r : Res OkValue) : r.state.engine.wave <+: (finish r).engine.wave := by
  cases r with
  | ok v s => exact List.prefix_refl _
  | err e s => exact engineAfter_wave_prefix e s

/-- The fault record and the phase are written for a fatal error only. -/
theorem finish_cases (r : Res OkValue) :
    (finish r).fault = r.state.fault ∧ (finish r).phase = r.state.phase ∨
    ∃ e, r.outcome = .err e ∧ (finish r).fault = some (r.state.fault.getD e) ∧ (finish r).phase = .failed := by
  cases r with
  | ok v s => exact .inl ⟨rfl, rfl⟩
  | err e s => exact .inr ⟨e, rfl, raise_fault e s, rfl⟩

/-! ### What a request can do -/

/-- The body of an admitted INIT, TMS_SHIFT, CLOCK_TICK or DATA_SHIFT. -/
inductive Body : Instr → State → Res OkValue → Prop
  | init {pinCfg clockHz : Nat} {s : State} (h : initRefusal s = none) :
      Body (.init pinCfg clockHz) s (initBody pinCfg clockHz s)
  | tmsShift {tms : Buf} {len : Nat} {s : State} (h : tmsRefusal tms len s = none) :
      Body (.tmsShift tms len) s (tmsBody (bufBit s.mem tms) len s)
  | clockFast {tmsLevel tdiLevel : Bool} {count : Nat} {s : State} (h : clockRefusal count s = none)
      (hcap : s.cfg.clkOnlyCapable = true) : Body (.clockTick tmsLevel tdiLevel count) s (clockFast count s)
  | clockFallback {tmsLevel tdiLevel : Bool} {count : Nat} {s : State} (h : clockRefusal count s = none)
      (hcap : s.cfg.clkOnlyCapable = false) :
      Body (.clockTick tmsLevel tdiLevel count) s (tmsBody (fun _ => tmsLevel) count s)
  | dataShift {tdi tdo : Option Buf} {len : Nat} {last : Bool} {s : State} (h : dataRefusal tdi tdo len s = none) :
      Body (.dataShift tdi tdo len last) s (dataBody tdi tdo len last s)

/-- The state a request leaves. -/
inductive Served : Instr → State → State → Prop
  | refused {i : Instr} {s : State} (reason : RefusedReason) : Served i s (refuse reason s)
  | finished {i : Instr} {s : State} {r : Res OkValue} (h : Body i s r) : Served i s (finish r)
  | nothingToClose {s : State} (hs : s.phase = .uninit ∨ s.phase = .closed) :
      Served .teardown s (s.addResult (.ok .unit))
  | closed {s : State} (hs : s.phase = .ready ∨ s.phase = .failed) (hp : probeOk s.cfg = true) :
      Served .teardown s (((selfTest s).setPhase .closed).addResult (.ok .unit))

theorem execTeardown_served (s : State) : ∃ t, execTeardown s = .next t ∧ Served .teardown s t := by
  refine ⟨_, rfl, ?_⟩
  split
  · next hs => exact .nothingToClose (.inl hs)
  · next hs => exact .nothingToClose (.inr hs)
  · next hs =>
    split
    · next hp => exact .closed (.inl hs) hp
    · exact .refused .config
  · next hs =>
    split
    · next hp => exact .closed (.inr hs) hp
    · exact .refused .config

/-- Every request is served. -/
theorem exec_served {i : Instr} (hi : i.isRequest = true) (s : State) : ∃ t, exec i s = .next t ∧ Served i s t := by
  cases i with
  | init pinCfg clockHz =>
    refine ⟨_, rfl, ?_⟩
    split
    · next reason _ => exact .refused reason
    · next h => exact .finished (.init h)
  | tmsShift tms len =>
    refine ⟨_, rfl, ?_⟩
    split
    · next reason _ => exact .refused reason
    · next h => exact .finished (.tmsShift h)
  | clockTick tmsLevel tdiLevel count =>
    refine ⟨_, rfl, ?_⟩
    split
    · next reason _ => exact .refused reason
    · next h =>
      split
      · next hcap => exact .finished (.clockFast h hcap)
      · next hcap => exact .finished (.clockFallback h (Bool.eq_false_iff.mpr hcap))
  | dataShift tdi tdo len last =>
    refine ⟨_, rfl, ?_⟩
    split
    · next reason _ => exact .refused reason
    · next h => exact .finished (.dataShift h)
  | teardown => exact execTeardown_served s
  | _ => cases hi

theorem served_of_exec {i : Instr} {s t : State} (hi : i.isRequest = true) (h : exec i s = .next t) :
    Served i s t := by
  obtain ⟨t', h', hs⟩ := exec_served hi s
  rw [h, Outcome.next.injEq] at h'
  exact h' ▸ hs

/-- A frame that completes touches the engine only. -/
theorem exec_engineOnly {i : Instr} {s t : State} (hi : i.isRequest = false) (h : exec i s = .next t) :
    engineOnly s t := execFrame_engineOnly (exec_eq_execFrame hi s ▸ h)

/-! ### What a body leaves -/

/-- The body of a shift does its work within `worked`. -/
theorem Body.worked {i : Instr} {s : State} {r : Res OkValue} (h : Body i s r) (hn : ∀ p c, i ≠ .init p c) :
    worked s r.state := by
  cases h with
  | init => exact absurd rfl (hn _ _)
  | tmsShift => exact tmsBody_worked _ _ s
  | clockFast => exact (clockFast_state _ s).1
  | clockFallback => exact tmsBody_worked _ _ s
  | dataShift => exact dataBody_worked _ _ _ _ s

/-- A shift is admitted in READY only. -/
theorem Body.phase {i : Instr} {s : State} {r : Res OkValue} (h : Body i s r) (hn : ∀ p c, i ≠ .init p c) :
    s.phase = .ready := by
  cases h with
  | init => exact absurd rfl (hn _ _)
  | tmsShift h => exact phase_of_tmsRefusal_none h
  | clockFast h => exact phase_of_clockRefusal_none h
  | clockFallback h => exact phase_of_clockRefusal_none h
  | dataShift h => exact phase_of_dataRefusal_none h

/-- What no body writes: the configuration, who answers, the requests to come, the fault record and the results; and the
logs only grow. -/
structure BodyLeaves (s t : State) : Prop where
  requestSide : leavesRequestSide s t
  fault : t.fault = s.fault
  results : t.results = s.results
  diag : s.diag <+: t.diag
  trace : s.trace <+: t.trace
  wave : s.engine.wave <+: t.engine.wave

theorem bodyLeaves_of_worked {s t : State} (h : worked s t) : BodyLeaves s t := by
  obtain ⟨hcfg, horacle, hrequests, -, -, hfault, hresults, hdiag, htrace, hwave⟩ := h
  exact ⟨⟨hcfg, horacle, hrequests⟩, hfault, hresults, hdiag, htrace, hwave⟩

theorem initBody_leaves (pinCfg clockHz : Nat) (s : State) : BodyLeaves s (initBody pinCfg clockHz s).state := by
  obtain ⟨hcfg, horacle, hrequests, -, hfault, hdiag, -, hresults, htrace, hwave, -⟩ := initBody_state pinCfg clockHz s
  exact ⟨⟨hcfg, horacle, hrequests⟩, hfault, hresults, hdiag ▸ List.prefix_refl _, htrace, hwave ▸ List.prefix_refl _⟩

theorem Body.leaves {i : Instr} {s : State} {r : Res OkValue} (h : Body i s r) : BodyLeaves s r.state := by
  by_cases hn : ∀ p c, i ≠ .init p c
  · exact bodyLeaves_of_worked (h.worked hn)
  · cases h with
    | init => exact initBody_leaves _ _ s
    | _ => exact absurd nofun hn

/-- A body that succeeds ends in READY: a shift began there, and INIT enters it. -/
theorem Body.ready_of_ok {i : Instr} {s u : State} {v : OkValue} (h : Body i s (.ok v u)) : u.phase = .ready := by
  by_cases hn : ∀ p c, i ≠ .init p c
  · obtain ⟨-, -, -, hphase, -⟩ := h.worked hn
    exact hphase.trans (h.phase hn)
  · generalize hr : Res.ok v u = r at h
    cases h with
    | init =>
      obtain ⟨-, -, -, -, -, -, -, -, -, -, hok, -⟩ := initBody_state _ _ s
      exact (hok v u hr.symm).2
    | _ => exact absurd nofun hn

theorem Body.finish_phase {i : Instr} {s : State} {r : Res OkValue} (h : Body i s r) :
    (finish r).phase = .ready ∨ (finish r).phase = .failed := by
  cases r with
  | ok v u => exact .inl h.ready_of_ok
  | err e u => exact .inr rfl

theorem Body.uninit_of_init {pinCfg clockHz : Nat} {s : State} {r : Res OkValue} (h : Body (.init pinCfg clockHz) s r) :
    s.phase = .uninit := by
  cases h with
  | init h => exact phase_of_initRefusal_none h

/-- A body runs in READY or, INIT's, in UNINIT. -/
theorem Body.phase_cases {i : Instr} {s : State} {r : Res OkValue} (h : Body i s r) :
    s.phase = .ready ∨ s.phase = .uninit := by
  by_cases hn : ∀ p c, i ≠ .init p c
  · exact .inl (h.phase hn)
  · push Not at hn
    obtain ⟨p, c, rfl⟩ := hn
    exact .inr h.uninit_of_init

/-! ### The rules of the whole machine -/

/-- Settles O13: no ending of an instruction writes the configuration. -/
theorem configurationIsNeverWritten : Obligations.ConfigurationIsNeverWritten := by
  intro i s t h
  cases hi : i.isRequest with
  | false => exact (exec_engineOnly hi h).1.1
  | true =>
    cases served_of_exec hi h with
    | refused => rfl
    | finished hb => exact (finish_cfg _).trans hb.leaves.requestSide.1
    | nothingToClose => rfl
    | closed => exact (selfTest_state s).1.1

/-- Settles O15: a body that finishes leaves the phase or, on a fatal error, enters FAILED; INIT's enters READY too; and
only TEARDOWN's self-test enters CLOSED. -/
theorem phaseMovesAsDrawn : Obligations.PhaseMovesAsDrawn := by
  intro i s t h
  cases hi : i.isRequest with
  | false =>
    obtain ⟨⟨-, -, -, -, hphase, -⟩, -⟩ := exec_engineOnly hi h
    exact .inl hphase
  | true =>
    cases served_of_exec hi h with
    | refused => exact .inl rfl
    | nothingToClose => exact .inl rfl
    | closed hs => exact .inr (.inr (.inr ⟨rfl, hs, rfl⟩))
    | finished hb =>
      by_cases hn : ∀ p c, i ≠ .init p c
      · obtain ⟨-, -, -, hphase, -⟩ := hb.worked hn
        rcases finish_cases _ with ⟨-, hp⟩ | ⟨e, -, -, hp⟩
        · exact .inl (hp.trans hphase)
        · refine .inr (.inr (.inl ⟨rfl, ?_, hb.phase hn, hp⟩))
          rintro rfl
          cases hb
      · push Not at hn
        obtain ⟨p, c, rfl⟩ := hn
        exact .inr (.inl ⟨⟨p, c, rfl⟩, hb.uninit_of_init, hb.finish_phase⟩)

/-- Settles O16: only the fatal error of a body writes the fault record, if it is empty, and enters FAILED with it; a body
runs in UNINIT or READY. -/
theorem faultIsSticky : Obligations.FaultIsSticky := by
  intro i s t h
  have hkeeps : ∀ {u : State}, u.fault = s.fault → (∀ e, s.fault = some e → u.fault = some e) ∧
      (u.fault ≠ s.fault → u.phase = .failed ∧ s.phase ≠ .failed) :=
    fun hu => ⟨fun e he => hu.trans he, fun hne => absurd hu hne⟩
  cases hi : i.isRequest with
  | false =>
    obtain ⟨⟨-, -, -, -, -, -, hfault, -⟩, -⟩ := exec_engineOnly hi h
    exact hkeeps hfault
  | true =>
    cases served_of_exec hi h with
    | refused => exact hkeeps rfl
    | nothingToClose => exact hkeeps rfl
    | closed =>
      obtain ⟨-, -, -, -, -, hfault, -⟩ := (selfTest_state s).1
      exact hkeeps hfault
    | finished hb =>
      rcases finish_cases _ with ⟨hf, -⟩ | ⟨e, -, hf, hp⟩
      · exact hkeeps (hf.trans hb.leaves.fault)
      · rw [hb.leaves.fault] at hf
        refine ⟨fun e' he' => by rw [hf, he', Option.getD_some], fun _ => ⟨hp, ?_⟩⟩
        rcases hb.phase_cases with hs | hs <;> rw [hs] <;> decide

/-- The four logs of the claim. -/
theorem logs_of_bodyLeaves {s t : State} (h : BodyLeaves s t) :
    s.diag <+: t.diag ∧ s.trace <+: t.trace ∧ s.results <+: t.results ∧ s.engine.wave <+: t.engine.wave :=
  ⟨h.diag, h.trace, h.results ▸ List.prefix_refl _, h.wave⟩

/-- Settles O17: frames, bodies and the self-test only add to the logs, and the end of a request adds its outcome. -/
theorem logsAreAppendOnly : Obligations.LogsAreAppendOnly := by
  intro i s t h
  cases hi : i.isRequest with
  | false =>
    have hwave := execFrame_wave_prefix (exec_eq_execFrame hi s ▸ h)
    exact logs_of_bodyLeaves (bodyLeaves_of_worked (worked_of_engineOnly (exec_engineOnly hi h) hwave))
  | true =>
    cases served_of_exec hi h with
    | refused | nothingToClose =>
      exact ⟨List.prefix_refl _, List.prefix_refl _, List.prefix_append _ _, List.prefix_refl _⟩
    | closed =>
      obtain ⟨hdiag, htrace, hresults, hwave⟩ := logs_of_bodyLeaves (bodyLeaves_of_worked (selfTest_state s).1)
      exact ⟨hdiag, htrace, hresults.trans (List.prefix_append _ _), hwave⟩
    | finished hb =>
      obtain ⟨hdiag, htrace, hresults, hwave⟩ := logs_of_bodyLeaves hb.leaves
      rw [finish_diag, finish_trace, finish_results]
      exact ⟨hdiag, htrace, hresults.trans (List.prefix_append _ _), hwave.trans (finish_wave_prefix _)⟩

/-! ### Outcomes -/

/-- A body that succeeds answers the value of its request (60_exceptions.md R175). -/
theorem Body.value {i : Instr} {s t : State} {v : OkValue} (h : Body i s (.ok v t)) : v = okValueOf i := by
  generalize hr : Res.ok v t = r at h
  cases h with
  | init =>
    obtain ⟨-, -, -, -, -, -, -, -, -, -, hok, -⟩ := initBody_state _ _ s
    exact (hok v t hr.symm).1
  | tmsShift => exact tmsBody_value hr.symm
  | clockFast =>
    obtain ⟨-, -, -, -, hvalue⟩ := clockFast_state _ s
    exact hvalue v t hr.symm
  | clockFallback => exact tmsBody_value hr.symm
  | dataShift => exact dataBody_value hr.symm

/-- Settles O18: every ending of a request adds one outcome, and a success is that of its body. -/
theorem everyRequestHasOneOutcome : Obligations.EveryRequestHasOneOutcome := by
  intro i s hi
  obtain ⟨t, h, hserved⟩ := exec_served hi s
  cases hserved with
  | refused reason => exact ⟨_, _, h, rfl, nofun⟩
  | nothingToClose => exact ⟨_, _, h, rfl, fun v hv => by cases hv; rfl⟩
  | closed =>
    exact ⟨_, .ok .unit, h, by simp [results_of_worked (selfTest_state s).1], fun v hv => by cases hv; rfl⟩
  | @finished _ _ r hb =>
    refine ⟨_, r.outcome, h, by rw [finish_results, hb.leaves.results], fun v hv => ?_⟩
    cases r with
    | ok v' u =>
      cases hv
      exact hb.value
    | err e u => cases hv

theorem outcome_ne_refused (r : Res OkValue) (reason : RefusedReason) : r.outcome ≠ .refused reason := by
  cases r <;> exact nofun

/-- Settles O19: of the endings of a request only a refusal records one, and it writes nothing else. -/
theorem refusalWritesNothing : Obligations.RefusalWritesNothing := by
  intro i s t reason hi h hres
  cases served_of_exec hi h with
  | refused reason' =>
    have hsame : reason' = reason := by simpa [refuse] using hres
    rw [hsame]
    rfl
  | nothingToClose => simp at hres
  | closed => simp [results_of_worked (selfTest_state s).1] at hres
  | @finished _ _ r hb =>
    rw [finish_results, hb.leaves.results, List.append_cancel_left_eq, List.singleton_inj] at hres
    exact absurd hres (outcome_ne_refused r reason)

/-- An operation that stops at a call stops with a transport failure. -/
theorem transportFailure_of_stopsAtCall {α : Type} {s u : State} {e : BlockError} {r : Res α} (h : StopsAtCall s r)
    (hr : r = .err e u) : ∃ info, e = .transportFailure info := by
  subst hr
  obtain ⟨es, call, hcall, -⟩ := h
  cases hcall <;> exact ⟨_, rfl⟩

/-- A body stops with a transport failure, or it is DATA_SHIFT's and stops at its length check. -/
theorem Body.error {i : Instr} {s u : State} {e : BlockError} (h : Body i s (.err e u)) :
    (∃ info, e = .transportFailure info) ∨
    ∃ tdi tdo last, i = .dataShift tdi tdo 0 last ∧ e = .protocolConsistencyFailure (.lenZero 0 last) ∧ u = s := by
  generalize hr : Res.err e u = r at h
  cases h with
  | init =>
    obtain ⟨-, -, -, -, -, -, -, -, -, -, -, herr⟩ := initBody_state _ _ s
    exact .inl ⟨_, (herr e u hr.symm).1⟩
  | tmsShift => exact .inl (transportFailure_of_stopsAtCall (tmsBody_stopsAtCall _ _ s) hr.symm)
  | clockFast => exact .inl (transportFailure_of_stopsAtCall (clockFast_stopsAtCall _ s) hr.symm)
  | clockFallback => exact .inl (transportFailure_of_stopsAtCall (tmsBody_stopsAtCall _ _ s) hr.symm)
  | dataShift =>
    rw [dataBody_eq] at hr
    split at hr
    · next h0 =>
      cases hr
      exact .inr ⟨_, _, _, by rw [h0], by rw [h0], rfl⟩
    · exact .inl (transportFailure_of_stopsAtCall (dataSteps_stopsAtCall _ _ _ _ _ s) hr.symm)

/-- A request that records an error is one whose body stopped at it. -/
theorem exec_error {i : Instr} {s t : State} {e : BlockError} (hi : i.isRequest = true) (h : exec i s = .next t)
    (he : t.results = s.results ++ [.err e]) : ∃ u, Body i s (.err e u) ∧ t = raise e u := by
  cases served_of_exec hi h with
  | refused reason => exact absurd he (refuse_results_ne_err reason e s)
  | nothingToClose => simp at he
  | closed => simp [results_of_worked (selfTest_state s).1] at he
  | finished hb =>
    obtain ⟨u, rfl, hraise⟩ := finish_eq_raise hb.leaves.results he
    exact ⟨u, hb, hraise⟩

/-- Settles O21: a body stops with a consistency failure only at DATA_SHIFT's length check, in the state in which the
request began. -/
theorem consistencyFailureComesFirst : Obligations.ConsistencyFailureComesFirst := by
  refine ⟨fun i s t info hi h he => ?_, fun tdi tdo last s ha => ?_⟩
  · obtain ⟨u, hb, rfl⟩ := exec_error hi h he
    rcases hb.error with ⟨_, hinfo⟩ | ⟨tdi, tdo, last, rfl, hinfo, rfl⟩
    · cases hinfo
    · cases hinfo
      exact ⟨raise_trace _ _, rfl, tdi, tdo, last, rfl, rfl⟩
  · simp only [exec, execDataShift, dataRefusal_of_admitted ha, dataBody_eq, if_true, finish_err]

end Sys2Proof.Machine
end

section
/-! PROOFS. Which requests are refused, and in which order (60_exceptions.md R182, R183). -/

namespace Sys2Proof.Machine

/-! ### A request with a reason to refuse it -/

section
variable {s : State} {reason : RefusedReason}

theorem exec_init_refused {pinCfg clockHz : Nat} (h : initRefusal s = some reason) :
    exec (.init pinCfg clockHz) s = .next (s.addResult (.refused reason)) := by
  simp only [exec, execInit, h, refuse]

theorem exec_tmsShift_refused {tms : Buf} {len : Nat} (h : tmsRefusal tms len s = some reason) :
    exec (.tmsShift tms len) s = .next (s.addResult (.refused reason)) := by
  simp only [exec, execTmsShift, h, refuse]

theorem exec_clockTick_refused {tmsLevel tdiLevel : Bool} {count : Nat} (h : clockRefusal count s = some reason) :
    exec (.clockTick tmsLevel tdiLevel count) s = .next (s.addResult (.refused reason)) := by
  simp only [exec, execClockTick, h, refuse]

theorem exec_dataShift_refused {tdi tdo : Option Buf} {len : Nat} {last : Bool}
    (h : dataRefusal tdi tdo len s = some reason) :
    exec (.dataShift tdi tdo len last) s = .next (s.addResult (.refused reason)) := by
  simp only [exec, execDataShift, h, refuse]

end

/-! ### The phase -/

/-- Settles O22: the phase is the first reason of each of the four requests. -/
theorem noWorkOutsideReady : Obligations.NoWorkOutsideReady := by
  refine fun s => ⟨fun hp => ⟨fun tms len => ?_, fun a b n => ?_, fun tdi tdo len last => ?_⟩, fun hp p h => ?_⟩
  · exact exec_tmsShift_refused (if_pos hp)
  · exact exec_clockTick_refused (if_pos hp)
  · exact exec_dataShift_refused (if_pos hp)
  · exact exec_init_refused (if_pos hp)

/-! ### INIT and TEARDOWN -/

theorem exec_teardown_of_nothing {s : State} (hs : s.phase = .uninit ∨ s.phase = .closed) :
    exec .teardown s = .next (s.addResult (.ok .unit)) := by
  rcases hs with hs | hs <;> simp only [exec, execTeardown, hs]

/-- TEARDOWN in READY or FAILED (44_teardown.md R141, R142). -/
theorem exec_teardown_of_open {s : State} (hs : s.phase = .ready ∨ s.phase = .failed) :
    exec .teardown s = .next
      (if probeOk s.cfg then ((selfTest s).setPhase .closed).addResult (.ok .unit) else refuse .config s) := by
  rcases hs with hs | hs <;> simp only [exec, execTeardown, hs]

/-- Settles O30: the bounds are those of `bufSizeOk` and `probeOk`. -/
theorem initAndTeardownAdmission : Obligations.InitAndTeardownAdmission := by
  refine ⟨fun s p h hs hsize => exec_init_refused ?_, fun s => exec_teardown_of_nothing, fun s hs hprobe => ?_⟩
  · have hbad : bufSizeOk s.cfg = false := decide_eq_false hsize
    simp [initRefusal, hs, hbad]
  · have hbad : probeOk s.cfg = false := decide_eq_false hprobe
    rw [exec_teardown_of_open hs, hbad]
    rfl

/-! ### The shifts -/

theorem longEnough_eq_false {len : Nat} {b : Buf} (h : b.size < (len + 7) / 8) : longEnough len b = false :=
  decide_eq_false (Nat.not_le.mpr h)

/-- Settles O31: the reasons of `tmsRefusal` in its order. -/
theorem tmsShiftRefusals : Obligations.TmsShiftRefusals := by
  refine fun s tms len => ⟨fun hp => exec_tmsShift_refused (if_pos hp), fun hp hlen => exec_tmsShift_refused ?_,
    fun hp hlen hsize => exec_tmsShift_refused ?_⟩
  · simp [tmsRefusal, hp, show lengthLimit ≤ len from hlen]
  · simp [tmsRefusal, hp, show ¬ lengthLimit ≤ len from Nat.not_le.mpr hlen, longEnough_eq_false hsize]

/-- Settles O36: the reasons of `clockRefusal` in its order. -/
theorem clockTickRefusals : Obligations.ClockTickRefusals := by
  refine fun s tmsLevel tdiLevel count => ⟨fun hp => exec_clockTick_refused (if_pos hp),
    fun hp hlen => exec_clockTick_refused ?_, fun hp hlen hcap hq => exec_clockTick_refused ?_,
    fun hp hlen hcap hq hlong => exec_clockTick_refused ?_⟩
  · simp [clockRefusal, hp, show lengthLimit ≤ count from hlen]
  · simp [clockRefusal, hp, show ¬ lengthLimit ≤ count from Nat.not_le.mpr hlen, hcap, hq]
  · simp [clockRefusal, hp, show ¬ lengthLimit ≤ count from Nat.not_le.mpr hlen, hcap, hq,
      show maxClkGroups < count / 8 from hlong]

/-- One of the buffers present is too short. -/
theorem optLongEnough_eq_false {len : Nat} {tdi tdo : Option Buf} {b : Buf} (hb : tdi = some b ∨ tdo = some b)
    (h : b.size < (len + 7) / 8) : (optLongEnough len tdi && optLongEnough len tdo) = false := by
  rcases hb with rfl | rfl
  · exact Bool.and_eq_false_imp.mpr fun ht => absurd ((longEnough_eq_false h).symm.trans ht) Bool.false_ne_true
  · exact Bool.and_eq_false_imp.mpr fun _ => longEnough_eq_false h

/-- Settles O39: the reasons of `dataRefusal` in its order. -/
theorem dataShiftRefusals : Obligations.DataShiftRefusals := by
  refine fun s tdi tdo len last => ⟨fun hp => exec_dataShift_refused (if_pos hp),
    fun hp hlen => exec_dataShift_refused ?_, fun hp hlen ⟨b, hb, hshort⟩ => exec_dataShift_refused ?_,
    fun hp hlen hsize ⟨a, b, ha, hb, hshare⟩ => exec_dataShift_refused ?_⟩
  · simp [dataRefusal, hp, show lengthLimit ≤ len from hlen]
  · simp only [dataRefusal, optLongEnough_eq_false hb hshort]
    simp [hp, show ¬ lengthLimit ≤ len from Nat.not_le.mpr hlen]
  · have hlong : ∀ o b, o = some b → (tdi = some b ∨ tdo = some b) → optLongEnough len o = true :=
      fun o b ho hin => ho ▸ longEnough_iff.mpr (hsize b hin)
    have halias : aliased tdi tdo = true := by
      subst ha hb
      exact overlap_iff.mpr hshare
    simp [dataRefusal, hp, show ¬ lengthLimit ≤ len from Nat.not_le.mpr hlen, hlong tdi a ha (.inl ha),
      hlong tdo b hb (.inr hb), halias]

end Sys2Proof.Machine
end

section
/-! PROOFS. What a request leaves unchanged (10_state.md section 4), and what Flush and an INIT whose `configure` fails do
(20_memory.md R58, 40_initializer.md R102). -/

namespace Sys2Proof.Machine

/-! ### The diagnostics: only a drain and the self-test add to them -/

/-- From `s` to `t` no diagnostic was added, and the quirk flag is as it was. -/
def Quiet (s t : State) : Prop := t.quirk = s.quirk ∧ t.diag = s.diag

theorem quiet_refl (s : State) : Quiet s s := ⟨rfl, rfl⟩

theorem Quiet.trans {s t u : State} (h : Quiet s t) (h' : Quiet t u) : Quiet s u :=
  ⟨h'.1.trans h.1, h'.2.trans h.2⟩

theorem quiet_of_worked {s t : State} (h : worked s t) (hd : t.diag = s.diag) : Quiet s t := by
  obtain ⟨-, -, -, -, hquirk, -⟩ := h
  exact ⟨hquirk, hd⟩

theorem andThen_quiet {α β : Type} {r : Res α} {f : α → State → Res β} {s : State} (h : Quiet s r.state)
    (hf : ∀ a t, Quiet s t → Quiet t (f a t).state) : Quiet s (r.andThen f).state := by
  cases r with
  | ok a t => exact h.trans (hf a t h)
  | err e t => exact h

theorem flush_quiet (s : State) : Quiet s (flush s).state := by
  obtain ⟨hworked, -, hdiag, -⟩ := flush_state s
  exact quiet_of_worked hworked hdiag

theorem readBack_quiet (n : Nat) (s : State) : Quiet s (readBack n s).state := by
  refine andThen_quiet (flush_quiet s) fun _ t _ => ?_
  obtain ⟨a, u, -, hworked, -, hdiag, -, -, -, hread⟩ := captureRead_state n t
  have hu := quiet_of_worked hworked hdiag
  rw [hread]
  split
  · split <;> exact hu
  · exact hu

section
variable {s : State} (hq : s.quirk = false)
include hq

theorem writeDone_quiet (n : Nat) : Quiet s (writeDone n s).state := by
  rw [writeDone_of_not_quirk hq]
  exact flush_quiet s

theorem flushDrain_quiet (n : Nat) : Quiet s (flushDrain n s).state := by
  refine andThen_quiet (flush_quiet s) fun _ t ht => ?_
  rw [ht.1, hq]
  exact quiet_refl t

theorem sendTmsFrames_quiet (perFlush n : Nat) (frames : List (List Byte)) (k : Nat) :
    Quiet s (sendTmsFrames perFlush n frames k s).state := by
  induction frames generalizing k s with
  | nil => exact quiet_refl s
  | cons frame frames ih =>
    have henq : Quiet s (enq frame s) := quiet_refl s
    refine henq.trans ?_
    rw [sendTmsFrames]
    split
    · exact andThen_quiet (flushDrain_quiet (s := enq frame s) hq n) fun _ t ht => ih (ht.1.trans hq) 0
    · exact ih (s := enq frame s) hq (k + 1)

theorem tmsBody_quiet (bits : Nat → Bool) (len : Nat) : Quiet s (tmsBody bits len s).state := by
  unfold tmsBody
  split
  · exact quiet_refl s
  · exact andThen_quiet (andThen_quiet (sendTmsFrames_quiet hq _ _ _ 0) fun _ t ht =>
      flushDrain_quiet (ht.1.trans hq) _) fun _ t _ => quiet_refl t

end

theorem clockFast_quiet (count : Nat) (s : State) : Quiet s (clockFast count s).state := by
  obtain ⟨hworked, -, hdiag, -⟩ := clockFast_state count s
  exact quiet_of_worked hworked hdiag

theorem enqTdi_quiet (tdi : Option Buf) (cur n : Nat) (s : State) : Quiet s (enqTdi tdi cur n s) := by
  cases tdi <;> exact quiet_refl s

/-- A step drains only where it has no TDO and the quirk flag is set (43_data_shifter.md R139). -/
theorem closeStep_quiet {tdo : Option Nat} {s : State} (h : s.quirk = false ∨ tdo ≠ none) (n : Nat)
    (store : State → List Byte → List Byte) : Quiet s (closeStep tdo n store s).state := by
  cases tdo with
  | none => exact writeDone_quiet (h.resolve_right (absurd rfl)) n
  | some a =>
    have hread := readBack_quiet n s
    unfold closeStep
    cases hr : readBack n s with
    | ok bs t =>
      rw [hr] at hread
      exact hread
    | err e t =>
      rw [hr] at hread
      exact hread

section
variable {tdo : Option Buf} {s : State} (h : s.quirk = false ∨ tdo ≠ none)
include h

theorem closeStep_tdoAt_quiet {t : State} (ht : t.quirk = s.quirk) (i n : Nat)
    (store : State → List Byte → List Byte) : Quiet t (closeStep (tdoAt tdo i) n store t).state :=
  closeStep_quiet (h.imp ht.trans fun hne hnone => hne (Option.map_eq_none_iff.mp hnone)) n store

theorem dataChunk_quiet (tdi : Option Buf) (cur c : Nat) : Quiet s (dataChunk tdi tdo cur c s).state := by
  have henq : Quiet s (enqTdi tdi cur c (enq (byteHeader s.cfg tdi.isSome tdo.isSome c) s)) :=
    enqTdi_quiet tdi cur c _
  exact henq.trans (closeStep_tdoAt_quiet h henq.1 _ _ _)

theorem dataChunks_quiet (tdi : Option Buf) (sizes : List Nat) (cur : Nat) :
    Quiet s (dataChunks tdi tdo sizes cur s).state := by
  induction sizes generalizing cur s with
  | nil => exact quiet_refl s
  | cons c sizes ih =>
    exact andThen_quiet (dataChunk_quiet h tdi cur c) fun _ t ht => ih (h.imp_left ht.1.trans) _

theorem dataResidual_quiet (tdi : Option Buf) (nbByte nbBit : Nat) :
    Quiet s (dataResidual tdi tdo nbByte nbBit s).state := by
  unfold dataResidual
  split
  · exact quiet_refl s
  · have henq : Quiet s (enqTdi tdi nbByte 1 (enq (bitHeader s.cfg tdi.isSome tdo.isSome nbBit) s)) :=
      enqTdi_quiet tdi nbByte 1 _
    exact henq.trans (closeStep_tdoAt_quiet h henq.1 _ _ _)

theorem dataExit_quiet (tdi : Option Buf) (nbByte nbBit : Nat) (last : Bool) :
    Quiet s (dataExit tdi tdo nbByte nbBit last s).state := by
  unfold dataExit
  split
  · exact closeStep_tdoAt_quiet (t := enq _ s) h rfl _ _ _
  · exact quiet_refl s

theorem dataBody_quiet (tdi : Option Buf) (len : Nat) (last : Bool) : Quiet s (dataBody tdi tdo len last s).state := by
  rw [dataBody_eq]
  split
  · exact quiet_refl s
  · exact andThen_quiet
      (andThen_quiet
        (andThen_quiet (dataChunks_quiet h tdi _ 0) fun _ t ht => dataResidual_quiet (h.imp_left ht.1.trans) tdi _ _)
        fun _ t ht => dataExit_quiet (h.imp_left ht.1.trans) tdi _ _ last)
      fun _ t _ => quiet_refl t

end

/-! ### What a body leaves, besides `Body.leaves` -/

theorem Body.mem {i : Instr} {s : State} {r : Res OkValue} (h : Body i s r)
    (hn : ∀ tdi tdo len last, i ≠ .dataShift tdi tdo len last) : r.state.mem = s.mem := by
  cases h with
  | init =>
    obtain ⟨-, -, -, hmem, -⟩ := initBody_state _ _ s
    exact hmem
  | tmsShift => exact tmsBody_mem _ _ s
  | clockFast => exact (clockFast_state _ s).2.1
  | clockFallback => exact tmsBody_mem _ _ s
  | dataShift => exact absurd rfl (hn _ _ _ _)

theorem Body.diag {i : Instr} {s : State} {r : Res OkValue} (h : Body i s r)
    (hq : (∀ p c, i ≠ .init p c) → s.quirk = false) : r.state.diag = s.diag := by
  cases h with
  | init =>
    obtain ⟨-, -, -, -, -, hdiag, -⟩ := initBody_state _ _ s
    exact hdiag
  | tmsShift => exact (tmsBody_quiet (hq nofun) _ _).2
  | clockFast => exact (clockFast_quiet _ s).2
  | clockFallback => exact (tmsBody_quiet (hq nofun) _ _).2
  | dataShift => exact (dataBody_quiet (.inl (hq nofun)) _ _ _).2

theorem Body.pending {i : Instr} {s : State} {r : Res OkValue} (h : Body i s r) (hp : s.pending = []) :
    r.state.pending = [] := by
  cases h with
  | init =>
    obtain ⟨-, -, -, -, -, -, hpending, -⟩ := initBody_state _ _ s
    exact hpending.trans hp
  | tmsShift => exact tmsBody_pending hp
  | clockFast => exact (clockFast_state _ s).2.2.2.1 hp
  | clockFallback => exact tmsBody_pending hp
  | dataShift => exact dataBody_pending hp

theorem Body.init_pending {pinCfg clockHz : Nat} {s : State} {r : Res OkValue} (h : Body (.init pinCfg clockHz) s r) :
    r.state.pending = s.pending := by
  cases h with
  | init =>
    obtain ⟨-, -, -, -, -, -, hpending, -⟩ := initBody_state pinCfg clockHz s
    exact hpending

/-- The clauses of `RequestFrames`, for one request and the state it leaves. -/
structure Framed (i : Instr) (s t : State) : Prop where
  requestSide : leavesRequestSide s t
  mem : (∀ tdi tdo len last, i ≠ .dataShift tdi tdo len last) → t.mem = s.mem
  quirk : (∀ p h, i ≠ .init p h) → t.quirk = s.quirk
  noError : (∀ e, t.results ≠ s.results ++ [.err e]) →
    t.fault = s.fault ∧ ((∀ p h, i ≠ .init p h) → i ≠ .teardown → t.phase = s.phase)
  diag : i ≠ .teardown → (∀ p h, i ≠ .init p h) → s.quirk = false → t.diag = s.diag
  init : (∃ p h, i = .init p h) → t.diag = s.diag ∧ t.pending = s.pending
  pending : s.pending = [] → t.pending = []

/-- Nothing is written but the outcome. -/
theorem addResult_framed (i : Instr) (r : RequestResult) (s : State) : Framed i s (s.addResult r) :=
  ⟨⟨rfl, rfl, rfl⟩, fun _ => rfl, fun _ => rfl, fun _ => ⟨rfl, fun _ _ => rfl⟩, fun _ _ _ => rfl,
    fun _ => ⟨rfl, rfl⟩, id⟩

theorem closed_framed (s : State) :
    Framed .teardown s (((selfTest s).setPhase .closed).addResult (.ok .unit)) := by
  obtain ⟨⟨hcfg, horacle, hrequests, -, hquirk, hfault, -⟩, hmem, hpending⟩ := selfTest_state s
  exact {
    requestSide := ⟨hcfg, horacle, hrequests⟩
    mem := fun _ => hmem
    quirk := fun _ => hquirk
    noError := fun _ => ⟨hfault, fun _ hn => absurd rfl hn⟩
    diag := fun hn => absurd rfl hn
    init := nofun
    pending := fun _ => hpending }

theorem Body.framed {i : Instr} {s : State} {r : Res OkValue} (h : Body i s r) : Framed i s (finish r) := by
  obtain ⟨⟨hcfg, horacle, hrequests⟩, hfault, hresults, -⟩ := h.leaves
  refine ⟨⟨(finish_cfg r).trans hcfg, (finish_oracle r).trans horacle, (finish_requests r).trans hrequests⟩,
    fun hn => (finish_mem r).trans (h.mem hn), fun hn => ?_, fun hne => ?_, fun _ hn hq => ?_, ?_, fun hp => ?_⟩
  · obtain ⟨-, -, -, -, hquirk, -⟩ := h.worked hn
    exact (finish_quirk r).trans hquirk
  · rcases finish_cases r with ⟨hf, hp⟩ | ⟨e, ho, -⟩
    · refine ⟨hf.trans hfault, fun hn _ => ?_⟩
      obtain ⟨-, -, -, hphase, -⟩ := h.worked hn
      exact hp.trans hphase
    · exact absurd (by rw [finish_results, hresults, ho]) (hne e)
  · exact (finish_diag r).trans (h.diag fun _ => hq)
  · rintro ⟨p, c, rfl⟩
    exact ⟨(finish_diag r).trans (h.diag fun hn => absurd rfl (hn p c)), (finish_pending r).trans h.init_pending⟩
  · exact (finish_pending r).trans (h.pending hp)

/-- Settles O23: the clauses hold of every ending of a request. -/
theorem requestFrames : Obligations.RequestFrames := by
  intro i s t hi h
  have hframed : Framed i s t := by
    cases served_of_exec hi h with
    | refused reason => exact addResult_framed i _ s
    | nothingToClose => exact addResult_framed _ _ s
    | closed => exact closed_framed s
    | finished hb => exact hb.framed
  exact ⟨hframed.requestSide, hframed.mem, hframed.quirk, hframed.noError, hframed.diag, hframed.init, hframed.pending⟩

/-! ### Flush -/

/-- Settles O25: with bytes pending Flush is one call of the engine's `flush()`, and its answer decides. -/
theorem flushSendsWhatIsPending : Obligations.FlushSendsWhatIsPending := by
  refine fun s => ⟨flush_nil, fun hne => ?_⟩
  obtain ⟨-, -, -, hpending, htrace, -⟩ := callFlush_state s
  exact ⟨(callFlush s).1, (callFlush s).2, htrace, hpending, flush_of_ne hne⟩

/-! ### INIT with a `configure` that fails -/

theorem initBody_of_fails {pinCfg clockHz : Nat} {oks : List Bool} {s : State}
    (h : s.inputs.configure = false :: oks) :
    ∃ u, initBody pinCfg clockHz s = .err (.transportFailure .configure) u := by
  have hanswer : (configureCalled pinCfg clockHz s).1 = false := by
    simp only [configureCalled, callConfigure, configureAnswer, h]
  exact ⟨(configureCalled pinCfg clockHz s).2, by simp only [initBody, hanswer, Bool.false_eq_true, if_false]⟩

/-- Settles O29: the admitted INIT raises its body's error. -/
theorem initFailsWithConfigure : Obligations.InitFailsWithConfigure := by
  intro s pinCfg clockHz oks hphase hlow hhigh hconfigure
  obtain ⟨u, hbody⟩ := initBody_of_fails (pinCfg := pinCfg) (clockHz := clockHz) hconfigure
  obtain ⟨-, -, -, hmem, hfault, hdiag, -, hresults, -, -, -, herr⟩ := initBody_state pinCfg clockHz s
  obtain ⟨-, hquirk, htrace⟩ := herr _ u hbody
  rw [hbody] at hmem hfault hdiag hresults
  have hexec := execInit_of_admitted (pinCfg := pinCfg) (clockHz := clockHz) hphase (decide_eq_true ⟨hlow, hhigh⟩)
  rw [hbody, finish_err] at hexec
  have hfault' : u.fault = s.fault := hfault
  have hresults' : u.results = s.results := hresults
  refine ⟨_, hexec, rfl, (raise_quirk _ u).trans hquirk, ?_, (raise_trace _ u).trans htrace, ?_,
    (raise_mem _ u).trans hmem, (raise_diag _ u).trans hdiag⟩
  · rw [raise_fault, hfault']
  · rw [raise_results, hresults']

/-! ### TMS_SHIFT over another memory -/

/-- Settles O35: whether the request is refused does not depend on memory, and its body reads memory through the bits
below `len` only. -/
theorem tmsShiftReadsOnlyItsBits : Obligations.TmsShiftReadsOnlyItsBits := by
  intro s m tms len hbits
  refine ⟨_, rfl, ?_⟩
  have hrefusal : tmsRefusal tms len (s.setMem m) = tmsRefusal tms len s := rfl
  simp only [exec, execTmsShift, hrefusal]
  cases tmsRefusal tms len s with
  | some reason => rfl
  | none => simp only [State.setMem_mem, tmsBody_congr hbits, tmsBody_ignoresMem _ len m s, finish_setMem]

end Sys2Proof.Machine
end

section
/-! PROOFS. Every step keeps the invariant: each operation keeps the trace in order (20_memory.md R58, R64, R68), and each
ending of an instruction keeps memory, `pending` and the registers as `Inv` asks. -/

namespace Sys2Proof.Machine

open Host (Outcome)

/-! ### A trace in order -/

theorem traceHeld_append (bufSize held : Nat) (es es' : List Event) :
    traceHeld bufSize held (es ++ es') = (traceHeld bufSize held es).bind fun held' => traceHeld bufSize held' es' := by
  induction es generalizing held with
  | nil => rfl
  | cons e es ih =>
    simp only [List.cons_append, traceHeld]
    cases traceStep bufSize held e with
    | none => rfl
    | some held' => exact ih held'

/-- From `s` to `t` the events recorded keep the order of 20_memory.md, from the bytes pending in `s` to those in `t`. -/
structure Ordered (s t : State) : Prop where
  cfg : t.cfg = s.cfg
  trace : ∃ es, t.trace = s.trace ++ es ∧ traceHeld s.cfg.bufSize s.pending.length es = some t.pending.length

theorem ordered_refl (s : State) : Ordered s s := ⟨rfl, [], (List.append_nil _).symm, rfl⟩

theorem Ordered.trans {s t u : State} (h : Ordered s t) (h' : Ordered t u) : Ordered s u := by
  obtain ⟨es, htrace, hheld⟩ := h.trace
  obtain ⟨es', htrace', hheld'⟩ := h'.trace
  rw [h.cfg] at hheld'
  refine ⟨h'.cfg.trans h.cfg, es ++ es', by rw [htrace', htrace, List.append_assoc], ?_⟩
  rw [traceHeld_append, hheld]
  exact hheld'

/-- One event, by its rule. -/
theorem ordered_of_event {s t : State} {e : Event} (hcfg : t.cfg = s.cfg) (htrace : t.trace = s.trace ++ [e])
    (hstep : traceStep s.cfg.bufSize s.pending.length e = some t.pending.length) : Ordered s t :=
  ⟨hcfg, [e], htrace, by simp only [traceHeld, hstep]⟩

theorem andThen_ordered {α β : Type} {r : Res α} {f : α → State → Res β} {s : State} (h : Ordered s r.state)
    (hf : ∀ a t, r = .ok a t → Ordered s t → Ordered t (f a t).state) : Ordered s (r.andThen f).state := by
  cases r with
  | ok a t => exact h.trans (hf a t rfl h)
  | err e t => exact h

/-- The same for an operation that asks for nothing pending. -/
theorem andThen_ordered_atRest {α β : Type} {r : Res α} {f : α → State → Res β} {s : State} (h : Ordered s r.state)
    (hp : r.state.pending = []) (hf : ∀ a t, t.pending = [] → t.cfg = s.cfg → Ordered t (f a t).state) :
    Ordered s (r.andThen f).state := by
  cases r with
  | ok a t => exact h.trans (hf a t hp h.cfg)
  | err e t => exact h

/-! ### The primitives -/

theorem enq_ordered {bs : List Byte} {s : State} (h : s.pending.length + bs.length ≤ s.cfg.bufSize) :
    Ordered s (enq bs s) := by
  refine ordered_of_event (e := .enq bs) rfl rfl ?_
  simp [traceStep, enq, h]

theorem callFlush_ordered {s : State} (h : s.pending ≠ []) : Ordered s (callFlush s).2 := by
  obtain ⟨⟨hcfg, -⟩, -, -, hpending, htrace, -⟩ := callFlush_state s
  refine ordered_of_event hcfg htrace ?_
  simp [traceStep, hpending, List.length_pos_iff.mpr h]

theorem flush_ordered (s : State) : Ordered s (flush s).state := by
  rcases flush_cases s with ⟨-, e⟩ | ⟨hne, -, e⟩ | ⟨hne, -, e⟩ <;> rw [e]
  · exact ordered_refl s
  · exact callFlush_ordered hne
  · exact callFlush_ordered hne

theorem flush_pending (s : State) : (flush s).state.pending = [] := by
  obtain ⟨-, -, -, hpending, -⟩ := flush_state s
  exact hpending

theorem drainRead_ordered {s : State} (n : Nat) (h : s.pending = []) : Ordered s (drainRead n s) := by
  obtain ⟨a, htrace, -, ⟨hcfg, -⟩, -, hpending, -⟩ := drainRead_state n s
  refine ordered_of_event hcfg htrace ?_
  simp [traceStep, hpending, h]

theorem drain_ordered (n : Nat) (s : State) : Ordered s (drain n s).state :=
  andThen_ordered_atRest (flush_ordered s) (flush_pending s) fun _ _ hp _ => drainRead_ordered n hp

theorem readBack_ordered (n : Nat) (s : State) : Ordered s (readBack n s).state := by
  refine andThen_ordered_atRest (flush_ordered s) (flush_pending s) fun _ t hp _ => ?_
  obtain ⟨a, u, htrace, ⟨hcfg, -⟩, -, -, hpending, -, -, hread⟩ := captureRead_state n t
  have hu : Ordered t u := ordered_of_event hcfg htrace (by simp [traceStep, hpending, hp])
  rw [hread]
  split
  · split <;> exact hu
  · exact hu

theorem writeDone_ordered (n : Nat) (s : State) : Ordered s (writeDone n s).state := by
  unfold writeDone
  split
  · exact drain_ordered n s
  · exact flush_ordered s

/-! ### TMS_SHIFT and CLOCK_TICK -/

theorem flushDrain_ordered (n : Nat) (s : State) : Ordered s (flushDrain n s).state :=
  andThen_ordered (flush_ordered s) fun _ t _ _ => by
    split
    · exact drain_ordered n t
    · exact ordered_refl t

theorem length_of_mem_tmsFrames {cfg : Config} {bits : Nat → Bool} {len : Nat} {frame : List Byte}
    (h : frame ∈ tmsFrames cfg bits len) : frame.length = 3 := by
  obtain ⟨i, -, rfl⟩ := List.mem_map.mp h
  rfl

/-- Frames of 3 bytes with a flush after every `perFlush`: at most `3 perFlush` bytes are ever pending (41_tms_shifter.md
R110). -/
theorem sendTmsFrames_ordered {perFlush k : Nat} (n : Nat) {frames : List (List Byte)} {s : State}
    (hframes : ∀ frame ∈ frames, frame.length = 3) (hk : k < perFlush) (hp : s.pending.length = 3 * k)
    (hsize : 3 * perFlush ≤ s.cfg.bufSize) : Ordered s (sendTmsFrames perFlush n frames k s).state := by
  induction frames generalizing k s with
  | nil => exact ordered_refl s
  | cons frame frames ih =>
    have hlen : frame.length = 3 := hframes frame List.mem_cons_self
    have henq : Ordered s (enq frame s) := enq_ordered (by omega)
    have hlen' : (enq frame s).pending.length = 3 * (k + 1) := by
      simp only [enq, State.record_pending, State.setPending_pending, List.length_append]
      omega
    refine henq.trans ?_
    rw [sendTmsFrames]
    split
    · refine andThen_ordered_atRest (flushDrain_ordered n _) (flushDrain_pending n _) fun _ t hpt hcfg => ?_
      exact ih (fun f hf => hframes f (List.mem_cons_of_mem _ hf)) (by omega) (congrArg List.length hpt)
        (hcfg ▸ hsize)
    · exact ih (fun f hf => hframes f (List.mem_cons_of_mem _ hf)) (by omega) hlen' hsize

section
variable {s : State} (hp : s.pending = []) (hsize : 4 ≤ s.cfg.bufSize)
include hp hsize

theorem tmsBody_ordered (bits : Nat → Bool) (len : Nat) : Ordered s (tmsBody bits len s).state := by
  have hper : 0 < framesPerFlush s.cfg ∧ 3 * framesPerFlush s.cfg ≤ s.cfg.bufSize := by
    unfold framesPerFlush
    omega
  unfold tmsBody
  split
  · exact ordered_refl s
  · exact andThen_ordered
      (andThen_ordered
        (sendTmsFrames_ordered _ (fun _ => length_of_mem_tmsFrames) hper.1 (congrArg List.length hp) hper.2)
        fun _ t _ _ => flushDrain_ordered _ t)
      fun _ t _ _ => ordered_refl t

theorem clockFrame_ordered (units : Nat) {frame : List Byte} (hframe : frame.length ≤ 3) :
    Ordered s (clockFrame units frame s).state := by
  unfold clockFrame
  split
  · exact ordered_refl s
  · refine (enq_ordered ?_).trans (flush_ordered _)
    rw [hp, List.length_nil]
    omega

theorem clockFast_ordered (count : Nat) : Ordered s (clockFast count s).state := by
  obtain ⟨-, -, -, hpending⟩ := clockFrame_state (count / 8) (clkBytesFrame s.cfg (count / 8)) s
  refine andThen_ordered
    (andThen_ordered_atRest (clockFrame_ordered hp hsize _ le_rfl) (hpending hp) fun _ t hpt hcfg => ?_)
    fun _ t _ _ => ordered_refl t
  exact clockFrame_ordered hpt (hcfg ▸ hsize) _ (Nat.le_succ 2)

end

/-! ### DATA_SHIFT -/

theorem closeStep_ordered (tdo : Option Nat) (n : Nat) (store : State → List Byte → List Byte) (s : State) :
    Ordered s (closeStep tdo n store s).state := by
  cases tdo with
  | none => exact writeDone_ordered n s
  | some a =>
    have hread := readBack_ordered n s
    unfold closeStep
    cases hr : readBack n s with
    | ok bs t =>
      rw [hr] at hread
      exact ⟨hread.cfg, hread.trace⟩
    | err e t =>
      rw [hr] at hread
      exact ⟨hread.cfg, hread.trace⟩

/-- The header and the TDI bytes of a step fit the engine's buffer. -/
theorem enqStep_ordered {s : State} (tdi : Option Buf) (cur n : Nat) {header : List Byte} (hp : s.pending = [])
    (h : header.length + n ≤ s.cfg.bufSize) : Ordered s (enqTdi tdi cur n (enq header s)) := by
  have henq : Ordered s (enq header s) := enq_ordered (by rw [hp, List.length_nil]; omega)
  cases tdi with
  | none => exact henq
  | some b =>
    refine henq.trans (enq_ordered ?_)
    rw [Memory.length_readBytes]
    simpa [enq, hp] using h

section
variable {s : State} (tdi tdo : Option Buf) (hp : s.pending = []) (hsize : 4 ≤ s.cfg.bufSize)
include hp hsize

theorem dataChunk_ordered (cur : Nat) {c : Nat} (hc : c ≤ chunkLimit s.cfg) :
    Ordered s (dataChunk tdi tdo cur c s).state := by
  refine (enqStep_ordered tdi cur c hp ?_).trans (closeStep_ordered _ _ _ _)
  rw [byteHeader, List.length_cons, length_byteCountBytes]
  unfold chunkLimit at hc
  omega

theorem dataChunks_ordered {sizes : List Nat} (hsizes : ∀ c ∈ sizes, c ≤ chunkLimit s.cfg) (cur : Nat) :
    Ordered s (dataChunks tdi tdo sizes cur s).state := by
  induction sizes generalizing cur s with
  | nil => exact ordered_refl s
  | cons c sizes ih =>
    refine andThen_ordered_atRest (dataChunk_ordered tdi tdo hp hsize cur (hsizes c List.mem_cons_self))
      (closeStep_pending _ _ _ _) fun _ t hpt hcfg => ?_
    exact ih hpt (hcfg ▸ hsize) (fun k hk => hcfg ▸ hsizes k (List.mem_cons_of_mem _ hk)) _

theorem dataResidual_ordered (nbByte nbBit : Nat) : Ordered s (dataResidual tdi tdo nbByte nbBit s).state := by
  unfold dataResidual
  split
  · exact ordered_refl s
  · refine (enqStep_ordered tdi nbByte 1 hp ?_).trans (closeStep_ordered _ _ _ _)
    rw [bitHeader, List.length_cons, List.length_singleton]
    omega

theorem dataExit_ordered (nbByte nbBit : Nat) (last : Bool) :
    Ordered s (dataExit tdi tdo nbByte nbBit last s).state := by
  unfold dataExit
  split
  · refine (enq_ordered ?_).trans (closeStep_ordered _ _ _ _)
    simp only [hp, exitFrame, List.length_nil, List.length_cons]
    omega
  · exact ordered_refl s

theorem dataTail_ordered (nbByte nbBit : Nat) (last : Bool) :
    Ordered s (dataTail tdi tdo nbByte nbBit last s).state :=
  andThen_ordered_atRest (dataResidual_ordered tdi tdo hp hsize nbByte nbBit) (dataResidual_pending hp)
    fun _ _ hpt hcfg => dataExit_ordered tdi tdo hpt (hcfg ▸ hsize) nbByte nbBit last

theorem dataBody_ordered (len : Nat) (last : Bool) : Ordered s (dataBody tdi tdo len last s).state := by
  have hsizes : ∀ c ∈ chunkSizes (realLen len last / 8) (realLen len last / 8) (chunkLimit s.cfg),
      c ≤ chunkLimit s.cfg := fun c hc => (chunkSizes_bounds (by unfold chunkLimit; omega) hc).2
  rw [dataBody_eq]
  split
  · exact ordered_refl s
  · rw [dataSteps_state]
    exact andThen_ordered_atRest (dataChunks_ordered tdi tdo hp hsize hsizes 0) (dataChunks_pending hp)
      fun _ _ hpt hcfg => dataTail_ordered tdi tdo hpt (hcfg ▸ hsize) _ _ last

end

/-! ### INIT and TEARDOWN -/

theorem configureCalled_ordered (pinCfg clockHz : Nat) (s : State) :
    Ordered s (configureCalled pinCfg clockHz s).2 := by
  obtain ⟨⟨hcfg, -, -, -, -, -, -, -, hpending, htrace, -⟩, -⟩ := callConfigure_state pinCfg clockHz s
  refine ordered_of_event hcfg (congrArg (· ++ [_]) htrace) ?_
  simp only [traceStep, configureCalled, State.record_pending, hpending]

theorem identityCalled_ordered (s : State) : Ordered s (identityCalled s).2 := by
  obtain ⟨⟨hcfg, -, -, -, -, -, -, -, hpending, htrace, -⟩, -⟩ := callIdentity_leavesBlock s
  refine ordered_of_event hcfg (congrArg (· ++ [_]) htrace) ?_
  simp only [traceStep, identityCalled, State.record_pending, hpending]

theorem initBody_ordered (pinCfg clockHz : Nat) (s : State) : Ordered s (initBody pinCfg clockHz s).state := by
  have hconfigure := configureCalled_ordered pinCfg clockHz s
  unfold initBody
  dsimp only
  split
  · have hboth := hconfigure.trans (identityCalled_ordered (configureCalled pinCfg clockHz s).2)
    exact ⟨hboth.cfg, hboth.trace⟩
  · exact hconfigure

theorem enqAll_ordered {frames : List (List Byte)} {s : State}
    (h : s.pending.length + frames.flatten.length ≤ s.cfg.bufSize) : Ordered s (enqAll frames s) := by
  induction frames generalizing s with
  | nil => exact ordered_refl s
  | cons frame frames ih =>
    rw [List.flatten_cons, List.length_append] at h
    refine (enq_ordered (by omega)).trans (ih ?_)
    simp only [enq, State.record_pending, State.setPending_pending, List.length_append, State.record_cfg,
      State.setPending_cfg]
    omega

/-- The self-test's transfer has `10 + P` bytes (44_teardown.md R143). -/
theorem length_teardownFrames (cfg : Config) : (teardownFrames cfg).flatten.length = 10 + cfg.probe.length := by
  simp [teardownFrames, byteHeader, length_byteCountBytes]
  omega

theorem selfTest_ordered {s : State} (hp : s.pending = []) (hprobe : probeOk s.cfg = true) :
    Ordered s (selfTest s) := by
  obtain ⟨-, -, hfits⟩ := of_decide_eq_true hprobe
  have hlen := length_teardownFrames s.cfg
  obtain ⟨-, -, -, hpending, -⟩ := enqAll_state (teardownFrames s.cfg) s
  rw [hp, List.nil_append] at hpending
  have henq : Ordered s (enqAll (teardownFrames s.cfg) s) := by
    refine enqAll_ordered ?_
    rw [hp, hlen, List.length_nil]
    omega
  have hne : (enqAll (teardownFrames s.cfg) s).pending ≠ [] := by
    rw [hpending]
    exact List.ne_nil_of_length_pos (by omega)
  have hflush := henq.trans (callFlush_ordered hne)
  obtain ⟨-, -, -, hflushed, -⟩ := callFlush_state (enqAll (teardownFrames s.cfg) s)
  unfold selfTest
  dsimp only
  split
  · obtain ⟨⟨hcfg, -⟩, -, hread, a, htrace, -⟩ := teardownRead_state (callFlush (enqAll (teardownFrames s.cfg) s)).2
    refine hflush.trans (ordered_of_event hcfg htrace ?_)
    simp [traceStep, hread, hflushed]
  · exact ⟨hflush.cfg, hflush.trace⟩

/-! ### The invariant -/

/-- What an operation that keeps the trace in order leaves of it, with nothing pending before and after. -/
theorem traceOrdered_of_ordered {s t : State} (h : Ordered s t) (hs : Inv s) (hp : t.pending = []) :
    traceOrdered t.cfg.bufSize t.trace := by
  obtain ⟨es, htrace, hheld⟩ := h.trace
  rw [hs.pending, hp] at hheld
  have hbefore : traceHeld s.cfg.bufSize 0 s.trace = some 0 := hs.trace
  rw [h.cfg, htrace, traceOrdered, traceHeld_append, hbefore]
  exact hheld

theorem Inv.of_leavesBlock {s t : State} (hs : Inv s) (h : leavesBlock s t) : Inv t := by
  obtain ⟨hcfg, -, -, hmem, hphase, hquirk, hfault, -, hpending, htrace, -⟩ := h
  refine ⟨hmem ▸ hs.mem, hpending ▸ hs.pending, ?_, hcfg ▸ htrace ▸ hs.trace⟩
  unfold phaseConsistent
  rw [hphase, hcfg, hquirk, hfault]
  exact hs.phase

theorem Inv.setRequests {s : State} (h : Inv s) (rs : List (List Byte)) : Inv (s.setRequests rs) :=
  ⟨h.mem, h.pending, h.phase, h.trace⟩

theorem Inv.addResult {s : State} (h : Inv s) (r : RequestResult) : Inv (s.addResult r) :=
  ⟨h.mem, h.pending, h.phase, h.trace⟩

/-- In READY and FAILED the buffer size is admitted (40_initializer.md R100). -/
theorem Inv.bufSizeOk {s : State} (h : Inv s) (hs : s.phase = .ready ∨ s.phase = .failed) :
    bufSizeOk s.cfg = true := by
  have hphase := h.phase
  unfold phaseConsistent at hphase
  rcases hs with hs | hs <;> rw [hs] at hphase <;> exact hphase.1

theorem Inv.fault_eq_none {s : State} (h : Inv s) (hs : s.phase = .ready ∨ s.phase = .uninit) : s.fault = none := by
  have hphase := h.phase
  unfold phaseConsistent at hphase
  rcases hs with hs | hs <;> rw [hs] at hphase <;> exact hphase.2

theorem Body.wf {i : Instr} {s : State} {r : Res OkValue} (h : Body i s r) (hs : s.mem.wf) : r.state.mem.wf := by
  by_cases hn : ∀ tdi tdo len last, i ≠ .dataShift tdi tdo len last
  · rw [h.mem hn]
    exact hs
  · cases h with
    | dataShift =>
      rw [dataBody_eq]
      split
      · exact hs
      · exact (dataSteps_confined _ _ hs (Nat.le_succ _) fun _ => Nat.lt_succ_self _).wf
    | _ => exact absurd nofun hn

/-- A body runs with an admitted buffer size: INIT checks it, and in READY it is. -/
theorem Body.bufSizeOk {i : Instr} {s : State} {r : Res OkValue} (h : Body i s r) (hs : Inv s) :
    bufSizeOk s.cfg = true := by
  by_cases hn : ∀ p c, i ≠ .init p c
  · exact hs.bufSizeOk (.inl (h.phase hn))
  · cases h with
    | init h =>
      by_contra hbad
      simp [initRefusal, phase_of_initRefusal_none h, hbad] at h
    | _ => exact absurd nofun hn

theorem Body.ordered {i : Instr} {s : State} {r : Res OkValue} (h : Body i s r) (hs : Inv s) : Ordered s r.state := by
  have hsize : 4 ≤ s.cfg.bufSize := (of_decide_eq_true (h.bufSizeOk hs)).1
  cases h with
  | init => exact initBody_ordered _ _ s
  | tmsShift => exact tmsBody_ordered hs.pending hsize _ _
  | clockFast => exact clockFast_ordered hs.pending hsize _
  | clockFallback => exact tmsBody_ordered hs.pending hsize _ _
  | dataShift => exact dataBody_ordered _ _ hs.pending hsize _ _

theorem Body.phaseConsistent {i : Instr} {s : State} {r : Res OkValue} (h : Body i s r) (hs : Inv s) :
    phaseConsistent (finish r) := by
  have hsize : Machine.bufSizeOk (finish r).cfg = true := by
    rw [finish_cfg, h.leaves.requestSide.1]
    exact h.bufSizeOk hs
  have hfault : r.state.fault = none := h.leaves.fault.trans (hs.fault_eq_none h.phase_cases)
  cases r with
  | ok v u =>
    have hready : (finish (.ok v u)).phase = .ready := h.ready_of_ok
    simp only [Machine.phaseConsistent, hready]
    exact ⟨hsize, hfault⟩
  | err e u =>
    simp only [Machine.phaseConsistent, finish_err, raise_phase, raise_fault]
    exact ⟨hsize, Option.some_ne_none _⟩

theorem Body.inv {i : Instr} {s : State} {r : Res OkValue} (h : Body i s r) (hs : Inv s) : Inv (finish r) := by
  have hp : (finish r).pending = [] := (finish_pending r).trans (h.pending hs.pending)
  have hord : Ordered s (finish r) := by
    refine ⟨(finish_cfg r).trans (h.ordered hs).cfg, ?_⟩
    rw [finish_trace, finish_pending]
    exact (h.ordered hs).trace
  refine ⟨?_, hp, h.phaseConsistent hs, traceOrdered_of_ordered hord hs hp⟩
  rw [finish_mem]
  exact h.wf hs.mem

/-- TEARDOWN's self-test and CLOSED. -/
theorem closed_inv {s : State} (hs : Inv s) (hphase : s.phase = .ready ∨ s.phase = .failed)
    (hprobe : probeOk s.cfg = true) : Inv (((selfTest s).setPhase .closed).addResult (.ok .unit)) := by
  obtain ⟨-, hmem, hpending⟩ := selfTest_state s
  have hord := selfTest_ordered hs.pending hprobe
  refine ⟨?_, hpending, ?_, traceOrdered_of_ordered (t := selfTest s) hord hs hpending⟩
  · show (selfTest s).mem.wf
    rw [hmem]
    exact hs.mem
  · show bufSizeOk (selfTest s).cfg = true
    rw [hord.cfg]
    exact hs.bufSizeOk hphase

theorem exec_inv {i : Instr} {s t : State} (hs : Inv s) (h : exec i s = .next t) : Inv t := by
  cases hi : i.isRequest with
  | false => exact hs.of_leavesBlock (exec_engineOnly hi h).1
  | true =>
    cases served_of_exec hi h with
    | refused => exact hs.addResult _
    | nothingToClose => exact hs.addResult _
    | closed hphase hprobe => exact closed_inv hs hphase hprobe
    | finished hb => exact hb.inv hs

/-- Settles O12: the engine's moves leave the block, and every ending of a request keeps the invariant. -/
theorem stepKeepsInvariant : Obligations.StepKeepsInvariant := by
  intro s t hs h
  unfold step at h
  split at h
  · rw [frameStep_exec] at h
    exact hs.of_leavesBlock (frameStep_engineOnly h).1
  · split at h
    · cases h
      exact hs
    · split at h
      · exact exec_inv (hs.setRequests _) h
      · cases h
        exact (hs.setRequests _).addResult _

end Sys2Proof.Machine
end

section
/-! PROOFS. The frames the block builds (30_encoding.md R79 to R86), and how DATA_SHIFT splits its bytes into chunks
(43_data_shifter.md R133). -/

namespace Sys2Proof.Machine

/-! ### The headers of data frames and the exit frame (30_encoding.md R82) -/

theorem opData_write (cfg : Config) (bm : Bool) :
    opData cfg true false bm = if bm then cfg.ops.bitW else cfg.ops.byteW := by
  cases bm <;> simp only [opData, flagIf, OpCodes.bitW, OpCodes.byteW, if_true, Bool.false_eq_true, if_false] <;> ac_rfl

theorem opData_read (cfg : Config) (bm : Bool) :
    opData cfg false true bm = if bm then cfg.ops.bitR cfg.rdNeg else cfg.ops.byteR cfg.rdNeg := by
  cases bm <;> simp only [opData, flagIf, OpCodes.bitR, OpCodes.byteR, OpCodes.readEdge, if_true, Bool.false_eq_true,
    if_false] <;> ac_rfl

theorem opData_neither (cfg : Config) (bm : Bool) :
    opData cfg false false bm = if bm then cfg.ops.bitN else cfg.ops.byteN := by
  cases bm <;> simp only [opData, flagIf, OpCodes.bitN, OpCodes.byteN, if_true, Bool.false_eq_true, if_false] <;> ac_rfl

theorem opExit_write (cfg : Config) : opExit cfg false = cfg.ops.tmsW := by
  simp only [opExit, flagIf, OpCodes.tmsW, Bool.false_eq_true, if_false]
  exact BitVec.or_zero

theorem byteHeader_write (cfg : Config) (payload : List Byte) :
    byteHeader cfg true false payload.length ++ payload = encode cfg.ops (.opByteW payload) := by
  simp [byteHeader, opData_write, encode]

theorem byteHeader_read (cfg : Config) (c : Nat) :
    byteHeader cfg false true c = encode cfg.ops (.opByteR cfg.rdNeg c) := by
  simp [byteHeader, opData_read, encode]

theorem byteHeader_neither (cfg : Config) (c : Nat) : byteHeader cfg false false c = encode cfg.ops (.opByteN c) := by
  simp [byteHeader, opData_neither, encode]

theorem bitHeader_write (cfg : Config) (m : Nat) (p : Byte) :
    bitHeader cfg true false m ++ [p] = encode cfg.ops (.opBitW m p) := by
  simp [bitHeader, opData_write, encode]

theorem bitHeader_read (cfg : Config) (m : Nat) :
    bitHeader cfg false true m = encode cfg.ops (.opBitR cfg.rdNeg m) := by
  simp [bitHeader, opData_read, encode]

theorem bitHeader_neither (cfg : Config) (m : Nat) : bitHeader cfg false false m = encode cfg.ops (.opBitN m) := by
  simp [bitHeader, opData_neither, encode]

theorem exitFrame_write (cfg : Config) (fb : Bool) :
    exitFrame cfg false fb = encode cfg.ops (.opTmsW 1 (0x01 ||| level7 fb)) := by
  rw [exitFrame, opExit_write]
  rfl

/-- The exit frame's data byte (30_encoding.md R84). -/
theorem exitData_eq (fb : Bool) : (0x01 ||| level7 fb : Byte) = if fb then 0x81 else 0x01 := by cases fb <;> rfl

/-- Settles O6: `op_data` and `op_exit` compose the weights that the engine's opcodes compose. -/
theorem dataAndExitFramesAreEncodings : Obligations.DataAndExitFramesAreEncodings := by
  refine fun cfg payload c m p rd fb => ⟨byteHeader_write cfg payload, byteHeader_append_eq_encode cfg payload,
    byteHeader_read cfg c, byteHeader_neither cfg c, bitHeader_write cfg m p, bitHeader_append_eq_encode cfg m p,
    bitHeader_read cfg m, bitHeader_neither cfg m, ?_⟩
  rw [← exitData_eq]
  cases rd
  · exact exitFrame_write cfg fb
  · exact exitFrame_eq_encode cfg fb

/-! ### TMS frames (30_encoding.md R83, 41_tms_shifter.md R108) -/

theorem getLsbD_level7 (b : Bool) (j : Nat) : (level7 b).getLsbD j = (b && decide (j = 7)) := by
  cases b
  · exact BitVec.getLsbD_zero
  · exact getLsbD_bit7 j

theorem getLsbD_tmsData (tdiLevel : Bool) (bits : Nat → Bool) (off n : Nat) {j : Nat} (hj : j < 8) :
    (tmsData tdiLevel bits off n).getLsbD j =
      ((tdiLevel && decide (j = 7)) || (decide (j < n) && bits (off + j))) := by
  rw [tmsData, BitVec.getLsbD_or, getLsbD_level7, getLsbD_byte, testBit_bitsToNat, decide_eq_true hj, Bool.true_and]
  congr 1
  by_cases hn : j < n
  · simp [hn]
  · simp [hn]

theorem length_tmsFrames (cfg : Config) (bits : Nat → Bool) (len : Nat) :
    (tmsFrames cfg bits len).length = (len + 5) / 6 := by
  rw [tmsFrames, List.length_map, List.length_range]
  rfl

theorem tmsFrame_eq_encode (cfg : Config) (bits : Nat → Bool) (len i : Nat) :
    tmsFrame cfg bits len i = encode cfg.ops
      (.opTmsW (tmsBitsIn len i) (tmsData cfg.tmsTdiLevel bits (tmsChunk * i) (tmsBitsIn len i))) := rfl

/-- Settles O7: the frames are listed by their index, and each bit of a data byte comes from the TDI level or from the
bits of the sequence. -/
theorem tmsFrameFormat : Obligations.TmsFrameFormat := by
  intro cfg bits len i hi
  have hcount := length_tmsFrames cfg bits len
  have hlt : i < (tmsFrames cfg bits len).length := by omega
  refine ⟨hcount, tmsData cfg.tmsTdiLevel bits (6 * i) (min 6 (len - 6 * i)), ?_, fun j hj => ?_, fun j hj hj7 => ?_, ?_⟩
  · rw [List.getElem?_eq_getElem hlt]
    simp only [tmsFrames, List.getElem_map, List.getElem_range]
    rfl
  · rw [getLsbD_tmsData _ _ _ _ (by omega), decide_eq_true hj, decide_eq_false (show ¬ j = 7 by omega), Bool.and_false,
      Bool.false_or, Bool.true_and]
  · rw [getLsbD_tmsData _ _ _ _ (by omega), decide_eq_false (Nat.not_lt.mpr hj), decide_eq_false (show ¬ j = 7 by omega),
      Bool.and_false, Bool.false_or, Bool.false_and]
  · rw [getLsbD_tmsData _ _ _ _ (by omega), decide_eq_false (show ¬ 7 < min 6 (len - 6 * i) by omega), Bool.false_and,
      Bool.or_false, decide_eq_true rfl, Bool.and_true]

/-! ### Chunks -/

theorem chunkSizes_zero (fuel c : Nat) : chunkSizes fuel 0 c = [] := by cases fuel <;> rfl

/-- Whole chunks of `c` bytes, and what is left over. -/
theorem chunkSizes_eq {fuel rem c : Nat} (hc : 1 ≤ c) (hf : rem ≤ fuel) :
    chunkSizes fuel rem c = List.replicate (rem / c) c ++ oneIf (decide (rem % c ≠ 0)) (rem % c) := by
  induction fuel generalizing rem with
  | zero =>
    obtain rfl := Nat.le_zero.mp hf
    simp [chunkSizes, oneIf]
  | succ fuel ih =>
    rw [chunkSizes]
    by_cases h0 : rem = 0
    · subst h0
      simp [oneIf]
    · rw [if_neg h0]
      by_cases hlt : rem < c
      · rw [min_eq_left hlt.le, Nat.sub_self, chunkSizes_zero, Nat.div_eq_of_lt hlt, Nat.mod_eq_of_lt hlt]
        simp [oneIf, h0]
      · have hle : c ≤ rem := Nat.not_lt.mp hlt
        rw [min_eq_right hle, ih (by omega), Nat.div_eq_sub_div hc hle, Nat.mod_eq_sub_mod hle]
        rfl

theorem length_oneIf (b : Bool) (n : Nat) : (oneIf b n).length = b.toNat := by cases b <;> rfl

/-- Settles O43: the sizes are `chunkSizes_eq`'s: the whole chunks, and one more for what is left over. -/
theorem chunksCoverEveryByte : Obligations.ChunksCoverEveryByte := by
  intro nbByte c hc
  have heq := chunkSizes_eq hc (le_refl nbByte)
  have hlen : (chunkSizes nbByte nbByte c).length = (nbByte + c - 1) / c := by
    rw [heq, List.length_append, List.length_replicate, length_oneIf]
    have hsplit := Nat.div_add_mod nbByte c
    have hmod := Nat.mod_lt nbByte hc
    generalize nbByte / c = q at *
    generalize nbByte % c = r at *
    subst hsplit
    by_cases hr : r = 0
    · subst hr
      rw [show c * q + 0 + c - 1 = c - 1 + c * q by omega, Nat.add_mul_div_left _ _ hc, Nat.div_eq_of_lt (by omega)]
      simp
    · rw [show c * q + r + c - 1 = r - 1 + c * (q + 1) by rw [Nat.mul_succ]; omega, Nat.add_mul_div_left _ _ hc,
        Nat.div_eq_of_lt (by omega)]
      simp [hr]
  refine ⟨chunkSizes_sum hc le_rfl, hlen, fun k hk => ?_⟩
  have hmem : (chunkSizes nbByte nbByte c).getD k 0 ∈ chunkSizes nbByte nbByte c := by
    rw [List.getD_eq_getElem _ _ hk]
    exact List.getElem_mem hk
  refine ⟨(chunkSizes_bounds hc hmem).1, fun hnext => ?_, (chunkSizes_bounds hc hmem).2⟩
  have hwhole : k < nbByte / c := by
    rw [heq, List.length_append, List.length_replicate, length_oneIf] at hnext
    have hone := Bool.toNat_le (decide (nbByte % c ≠ 0))
    omega
  rw [heq, List.getD_append _ _ _ _ (by simpa using hwhole), List.getD_eq_getElem _ _ (by simpa using hwhole),
    List.getElem_replicate]

end Sys2Proof.Machine
end

section
/-! PROOFS. What the frames do on the reference engine (45_engine_frames.md R149 to R166): the pulses, the pins, and what a
looped-back engine samples. -/

namespace Sys2Proof.Machine

/-! ### The levels of a TMS frame -/

theorem tmsLevels_tms (n : Nat) (d : Byte) : (tmsLevels n d).map Prod.fst = (List.range n).map d.getLsbD := by
  rw [tmsLevels, List.map_map]
  rfl

theorem tmsLevels_tdi (n : Nat) (d : Byte) : (tmsLevels n d).map Prod.snd = List.replicate n (d.getLsbD 7) := by
  have hconst := List.map_const' (l := List.range n) (b := d.getLsbD 7)
  rw [List.length_range] at hconst
  rw [tmsLevels, List.map_map]
  exact hconst

/-- The pins keep the last levels driven. -/
theorem clock_pins (levels : List (Bool × Bool)) (s : State) :
    (clock levels s).2.engine.tmsPin = (levels.map Prod.fst).getLast?.getD s.engine.tmsPin ∧
    (clock levels s).2.engine.tdiPin = (levels.map Prod.snd).getLast?.getD s.engine.tdiPin := by
  obtain ⟨ps, he, -⟩ := clock_engine levels s
  rw [he, List.getLast?_map, List.getLast?_map]
  exact ⟨rfl, rfl⟩

/-- The last of a non-empty list of levels given by their index. -/
theorem getLast?_map_range (f : Nat → Bool) {n : Nat} (hn : 1 ≤ n) (b : Bool) :
    ((List.range n).map f).getLast?.getD b = f (n - 1) := by
  obtain ⟨k, rfl⟩ : ∃ k, n = k + 1 := ⟨n - 1, by omega⟩
  rw [List.range_succ, List.map_append, List.map_singleton, List.getLast?_concat]
  rfl

theorem getLast?_replicate_pos {n : Nat} (hn : 1 ≤ n) (a b : Bool) : (List.replicate n a).getLast?.getD b = a := by
  rw [List.getLast?_replicate, if_neg (by omega)]
  rfl

/-- Settles O47: the frame is pulses of its TMS levels. -/
theorem tmsFrameWaveform : Obligations.TmsFrameWaveform := by
  intro n d s hn _
  obtain ⟨hdrives, hresp, hblock, hregs⟩ := clock_drives (tmsLevels n d) s
  obtain ⟨htms, htdi⟩ := clock_pins (tmsLevels n d) s
  rw [tmsLevels_tms, tmsLevels_tdi] at hdrives
  rw [tmsLevels_tms, getLast?_map_range _ hn] at htms
  rw [tmsLevels_tdi, getLast?_replicate_pos hn] at htdi
  exact ⟨_, rfl, hdrives, htms, htdi, hresp, hblock, hregs⟩

/-- Settles O48: the frame is a capture of bits of its TMS levels. -/
theorem exitFrameCaptures : Obligations.ExitFrameCaptures := by
  intro neg n d s _ hn
  have h := clockCaptureBits_captures (show n ≤ 8 by omega) (tmsLevels n d) s
  rw [tmsLevels_tms, tmsLevels_tdi] at h
  exact ⟨_, rfl, h⟩

/-- Settles O49: the frame is pulses of the payload's bits. -/
theorem byteWriteWaveform : Obligations.ByteWriteWaveform := by
  intro payload s hpos
  obtain ⟨hdrives, hresp, hblock, hregs⟩ := clock_drives (dataLevels s (allBits payload)) s
  obtain ⟨htms, htdi⟩ := clock_pins (dataLevels s (allBits payload)) s
  rw [dataLevels_tms, dataLevels_tdi, length_allBits] at hdrives
  rw [dataLevels_tms, length_allBits, getLast?_replicate_pos (by omega)] at htms
  rw [dataLevels_tdi, allBits, getLast?_map_range _ (by omega)] at htdi
  exact ⟨_, rfl, hdrives, htms, htdi, hresp, hblock, hregs⟩

/-- Settles O53: each frame is one update of the engine. -/
theorem engineRegisterFrames : Obligations.EngineRegisterFrames := fun _ _ _ => ⟨rfl, rfl, rfl⟩

/-- Settles O55: both frames answer the fault that names them. -/
theorem neitherFramesStopTheEngine : Obligations.NeitherFramesStopTheEngine := fun _ _ => ⟨rfl, rfl⟩

/-! ### Loopback -/

/-- From `s` to `t` every pulse sampled its own TDI, and TDO still follows TDI. -/
def SamplesTdi (s t : State) : Prop :=
  loopedBack t ∧ ∃ ps, t.engine.wave = s.engine.wave ++ ps ∧ ∀ p ∈ ps, p.tdo = p.tdi

section
variable {s : State} (h : loopedBack s)
include h

theorem clock_samplesTdi (levels : List (Bool × Bool)) : SamplesTdi s (clock levels s).2 := by
  obtain ⟨hbits, hloop⟩ := clock_loopedBack (levels := levels) h
  obtain ⟨ps, he, -, htdi, htdo⟩ := clock_engine levels s
  exact ⟨hloop, ps, by rw [he], List.map_eq_map_iff.mp ((htdo.symm.trans hbits).trans htdi.symm)⟩

theorem clockCaptureBits_samplesTdi (m : Nat) (levels : List (Bool × Bool)) :
    SamplesTdi s (clockCaptureBits m levels s) := by
  obtain ⟨hbits, -⟩ := clock_loopedBack (levels := levels) h
  obtain ⟨-, -, hloop⟩ := clockCaptureBits_loopedBack (m := m) (levels := levels) h
  obtain ⟨ps, fill, k, he, -, htdi, htdo, -⟩ := clockCaptureBits_engine m levels s
  exact ⟨hloop, ps, by rw [he], List.map_eq_map_iff.mp ((htdo.symm.trans hbits).trans htdi.symm)⟩

theorem clockCaptureBytes_samplesTdi (c : Nat) (levels : List (Bool × Bool)) :
    SamplesTdi s (clockCaptureBytes c levels s) := by
  obtain ⟨hbits, -⟩ := clock_loopedBack (levels := levels) h
  obtain ⟨-, -, hloop⟩ := clockCaptureBytes_loopedBack (c := c) (levels := levels) h
  obtain ⟨ps, he, -, htdi, htdo⟩ := clockCaptureBytes_engine c levels s
  exact ⟨hloop, ps, by rw [he], List.map_eq_map_iff.mp ((htdo.symm.trans hbits).trans htdi.symm)⟩

end

/-- Settles O54: a frame is pulses, a capture, or an update of a register without a pulse. -/
theorem loopbackSamplesTdi : Obligations.LoopbackSamplesTdi := by
  intro i s t hi hloop h
  have hnoPulse : ∀ {u : State}, u.engine.wave = s.engine.wave → loopedBack u → SamplesTdi s u :=
    fun hwave hu => ⟨hu, [], by rw [hwave, List.append_nil], nofun⟩
  cases i with
  | init | tmsShift | clockTick | dataShift | teardown => cases hi
  | opByteN | opBitN => cases h
  | opTmsW | opByteW | opBitW | opClkBytes | opClkBits =>
    cases h
    exact clock_samplesTdi hloop _
  | opTmsWr | opBitR | opBitWr =>
    cases h
    exact clockCaptureBits_samplesTdi hloop _ _
  | opByteR | opByteWr =>
    cases h
    exact clockCaptureBytes_samplesTdi hloop _ _
  | opSetLow | opSetHigh =>
    cases h
    exact hnoPulse rfl hloop
  | opLoopbackOn =>
    cases h
    exact hnoPulse rfl (.inl rfl)

/-! ### Pulses and pins -/

/-- From `s` to `t` the engine made pulses with these levels, its pins keep the last of them, and it took no response
away. -/
structure Pulsed (s t : State) (levels : List (Bool × Bool)) : Prop where
  wave : ∃ ps, t.engine.wave = s.engine.wave ++ ps ∧ ps.map Pulse.tms = levels.map Prod.fst ∧
    ps.map Pulse.tdi = levels.map Prod.snd
  tmsPin : t.engine.tmsPin = (levels.map Prod.fst).getLast?.getD s.engine.tmsPin
  tdiPin : t.engine.tdiPin = (levels.map Prod.snd).getLast?.getD s.engine.tdiPin
  resp : s.engine.resp <+: t.engine.resp

theorem pulsed_nil {s t : State} (h : t.engine.wave = s.engine.wave) (htms : t.engine.tmsPin = s.engine.tmsPin)
    (htdi : t.engine.tdiPin = s.engine.tdiPin) (hresp : s.engine.resp <+: t.engine.resp) : Pulsed s t [] :=
  ⟨⟨[], by rw [h, List.append_nil], rfl, rfl⟩, htms, htdi, hresp⟩

theorem clock_pulsed (levels : List (Bool × Bool)) (s : State) : Pulsed s (clock levels s).2 levels := by
  obtain ⟨ps, he, htms, htdi, -⟩ := clock_engine levels s
  obtain ⟨htmsPin, htdiPin⟩ := clock_pins levels s
  exact ⟨⟨ps, by rw [he], htms, htdi⟩, htmsPin, htdiPin, by rw [he]⟩

theorem clockCaptureBits_pulsed (m : Nat) (levels : List (Bool × Bool)) (s : State) :
    Pulsed s (clockCaptureBits m levels s) levels := by
  obtain ⟨ps, fill, k, he, htms, htdi, -⟩ := clockCaptureBits_engine m levels s
  refine ⟨⟨ps, by rw [he], htms, htdi⟩, ?_, ?_, by rw [he]; exact List.prefix_append _ _⟩
  · rw [he, List.getLast?_map]
  · rw [he, List.getLast?_map]

theorem clockCaptureBytes_pulsed (c : Nat) (levels : List (Bool × Bool)) (s : State) :
    Pulsed s (clockCaptureBytes c levels s) levels := by
  obtain ⟨ps, he, htms, htdi, -⟩ := clockCaptureBytes_engine c levels s
  refine ⟨⟨ps, by rw [he], htms, htdi⟩, ?_, ?_, by rw [he]; exact List.prefix_append _ _⟩
  · rw [he, List.getLast?_map]
  · rw [he, List.getLast?_map]

/-- The pulses of a frame, by the levels it drives. -/
theorem Pulsed.length {s t : State} {levels : List (Bool × Bool)} (h : Pulsed s t levels) :
    t.engine.wave.length = s.engine.wave.length + levels.length := by
  obtain ⟨ps, hwave, htms, -⟩ := h.wave
  have hlen := congrArg List.length htms
  rw [List.length_map, List.length_map] at hlen
  rw [hwave, List.length_append, hlen]

theorem Pulsed.pinsFollow {s t : State} {levels : List (Bool × Bool)} (h : Pulsed s t levels) : pinsFollow s t := by
  obtain ⟨ps, hwave, htms, htdi⟩ := h.wave
  rw [Machine.pinsFollow, hwave, List.drop_left, ← List.getLast?_map, ← List.getLast?_map, htms, htdi]
  exact ⟨h.tmsPin, h.tdiPin⟩

/-- A frame that completes drives as many levels as the table gives it pulses (45_engine_frames.md R174). -/
theorem execFrame_pulsed {i : Instr} {s t : State} (hi : i.isRequest = false) (h : execFrame i s = .next t) :
    ∃ levels, levels.length = pulsesOf s.cfg i ∧ Pulsed s t levels := by
  cases i with
  | init | tmsShift | clockTick | dataShift | teardown => cases hi
  | opByteN | opBitN => cases h
  | opTmsW | opByteW | opBitW | opClkBytes | opClkBits =>
    cases h
    exact ⟨_, by simp [tmsLevels, dataLevels, heldLevels, pulsesOf], clock_pulsed _ s⟩
  | opTmsWr | opBitR | opBitWr =>
    cases h
    exact ⟨_, by simp [tmsLevels, dataLevels, heldLevels, pulsesOf], clockCaptureBits_pulsed _ _ s⟩
  | opByteR | opByteWr =>
    cases h
    exact ⟨_, by simp [dataLevels, heldLevels, pulsesOf], clockCaptureBytes_pulsed _ _ s⟩
  | opSetLow | opSetHigh | opLoopbackOn =>
    cases h
    exact ⟨[], rfl, pulsed_nil rfl rfl rfl (List.prefix_refl _)⟩

/-- Settles O56: the levels a frame drives are its pulses, and the pins keep the last of them. -/
theorem framesMakeTheirPulses : Obligations.FramesMakeTheirPulses := by
  intro i s t hi h
  obtain ⟨levels, hlen, hpulsed⟩ := execFrame_pulsed hi (exec_eq_execFrame hi s ▸ h)
  exact ⟨hlen ▸ hpulsed.length, hpulsed.pinsFollow, hpulsed.resp, (exec_engineOnly hi h).1⟩

end Sys2Proof.Machine
end

section
/-! PROOFS. The calls of a TMS_SHIFT (41_tms_shifter.md R105, R110 to R113): which they are wherever it succeeds, and that it
succeeds where its flushes do. -/

namespace Sys2Proof.Machine

/-! ### Operations that succeed -/

theorem andThen_eq_ok {α β : Type} {r : Res α} {f : α → State → Res β} {b : β} {u : State}
    (h : r.andThen f = .ok b u) : ∃ a t, r = .ok a t ∧ f a t = .ok b u := by
  cases r with
  | ok a t => exact ⟨a, t, rfl, h⟩
  | err e t => cases h

/-- From `s` to `t` the block made the calls `cs`, in this order. -/
def Called (s t : State) (cs : List Call) : Prop := ∃ es, t.trace = s.trace ++ es ∧ es.map callOf = cs

theorem called_refl (s : State) : Called s s [] := ⟨[], (List.append_nil _).symm, rfl⟩

theorem Called.trans {s t u : State} {cs cs' : List Call} (h : Called s t cs) (h' : Called t u cs') :
    Called s u (cs ++ cs') := by
  obtain ⟨es, htrace, rfl⟩ := h
  obtain ⟨es', htrace', rfl⟩ := h'
  exact ⟨es ++ es', by rw [htrace', htrace, List.append_assoc], List.map_append⟩

theorem called_of_event {s t : State} {e : Event} (h : t.trace = s.trace ++ [e]) : Called s t [callOf e] :=
  ⟨[e], h, rfl⟩

/-- What is enqueued is the first call. -/
theorem Called.of_enq {bs : List Byte} {s t : State} {cs : List Call} (h : Called (enq bs s) t cs) :
    Called s t (.enq bs :: cs) := by
  have henq : Called s (enq bs s) [.enq bs] := ⟨[.enq bs], rfl, rfl⟩
  exact henq.trans h

theorem flush_called {s t : State} (h : flush s = .ok () t) :
    Called s t (if s.pending = [] then [] else [.flush s.pending.length]) := by
  by_cases hp : s.pending = []
  · rw [flush_nil hp] at h
    cases h
    rw [if_pos hp]
    exact called_refl s
  · rw [flush_of_ne hp] at h
    split at h
    · cases h
      obtain ⟨-, -, -, -, htrace, -⟩ := callFlush_state s
      rw [if_neg hp]
      exact called_of_event htrace
    · cases h

theorem drainRead_called (n : Nat) (s : State) : Called s (drainRead n s) [.drain n] := by
  obtain ⟨a, htrace, -⟩ := drainRead_state n s
  exact called_of_event htrace

/-- A flush that succeeds leaves nothing pending and the quirk flag. -/
theorem flush_ok {s t : State} (h : flush s = .ok () t) : t.pending = [] ∧ t.quirk = s.quirk ∧ t.cfg = s.cfg := by
  obtain ⟨⟨hcfg, -, -, -, hquirk, -⟩, -, -, hpending, -⟩ := flush_state s
  rw [h] at hcfg hquirk hpending
  exact ⟨hpending, hquirk, hcfg⟩

/-- With nothing pending a drain is its read. -/
theorem drain_of_pending_nil {n : Nat} {s : State} (h : s.pending = []) : drain n s = .ok () (drainRead n s) :=
  drain_of_flush_ok (flush_nil h)

theorem flushDrain_of_flush_ok {n : Nat} {s t : State} (h : flush s = .ok () t) :
    flushDrain n s = .ok () (if s.quirk then drainRead n t else t) := by
  obtain ⟨hpending, hquirk, -⟩ := flush_ok h
  simp only [flushDrain, h, Res.andThen, hquirk, drain_of_pending_nil hpending]
  split <;> rfl

theorem flushDrain_called {n : Nat} {s t : State} (h : flushDrain n s = .ok () t) :
    Called s t ((if s.pending = [] then [] else [.flush s.pending.length]) ++ drainIf s.quirk n) := by
  obtain ⟨_, u, hflush, -⟩ := andThen_eq_ok h
  rw [flushDrain_of_flush_ok hflush] at h
  cases h
  refine (flush_called hflush).trans ?_
  cases s.quirk with
  | false => exact called_refl u
  | true => exact drainRead_called n u

theorem flushDrain_ok {n : Nat} {s t : State} (h : flushDrain n s = .ok () t) :
    t.pending = [] ∧ t.quirk = s.quirk := by
  have hpending := flushDrain_pending n s
  obtain ⟨-, -, -, -, hquirk, -⟩ := flushDrain_worked n s
  rw [h] at hpending hquirk
  exact ⟨hpending, hquirk⟩

/-! ### The calls of the frames, frame by frame -/

/-- The calls of TMS_SHIFT's body for these frames, `k` frames being queued already: the recursion of `sendTmsFrames`, and
the flush and the drain at its end. -/
def frameCalls (quirk : Bool) (perFlush n : Nat) : List (List Byte) → Nat → List Call
  | [], k => (if k = 0 then [] else [.flush (3 * k)]) ++ drainIf quirk n
  | frame :: frames, k =>
    .enq frame ::
      if k + 1 = perFlush then .flush (3 * (k + 1)) :: (drainIf quirk n ++ frameCalls quirk perFlush n frames 0)
      else frameCalls quirk perFlush n frames (k + 1)

theorem flushDrain_called_queued {n k : Nat} {s t : State} (hp : s.pending.length = 3 * k)
    (h : flushDrain n s = .ok () t) :
    Called s t ((if k = 0 then [] else [.flush (3 * k)]) ++ drainIf s.quirk n) := by
  have hnil : s.pending = [] ↔ k = 0 := by
    rw [← List.length_eq_zero_iff]
    omega
  have hcalled := flushDrain_called h
  simpa only [hnil, hp] using hcalled

theorem sendTmsFrames_called {perFlush n k : Nat} {frames : List (List Byte)} {s t : State}
    (hframes : ∀ frame ∈ frames, frame.length = 3) (hp : s.pending.length = 3 * k)
    (h : ((sendTmsFrames perFlush n frames k s).andThen fun _ s => flushDrain n s) = .ok () t) :
    Called s t (frameCalls s.quirk perFlush n frames k) := by
  induction frames generalizing k s with
  | nil => exact flushDrain_called_queued hp h
  | cons frame frames ih =>
    have htail : ∀ f ∈ frames, f.length = 3 := fun f hf => hframes f (List.mem_cons_of_mem _ hf)
    have hlen : frame.length = 3 := hframes frame List.mem_cons_self
    have hp' : (enq frame s).pending.length = 3 * (k + 1) := by
      simp only [enq, State.record_pending, State.setPending_pending, List.length_append]
      omega
    rw [sendTmsFrames] at h
    rw [frameCalls]
    refine Called.of_enq ?_
    by_cases hk : k + 1 = perFlush
    · rw [if_pos hk, Res.andThen_assoc] at h
      obtain ⟨_, u, hflush, hrest⟩ := andThen_eq_ok h
      obtain ⟨hpending, hquirk⟩ := flushDrain_ok hflush
      have hfirst := flushDrain_called_queued hp' hflush
      have hothers := ih htail (k := 0) (congrArg List.length hpending) hrest
      rw [if_pos hk]
      rw [if_neg (Nat.succ_ne_zero k)] at hfirst
      rw [hquirk] at hothers
      have hall := hfirst.trans hothers
      rwa [List.append_assoc] at hall
    · rw [if_neg hk] at h
      rw [if_neg hk]
      exact ih htail hp' h

/-! ### The calls of the frames, group by group -/

section
variable (quirk : Bool) {perFlush : Nat} (n : Nat)

/-- Fewer frames than a flush takes: they wait for the last flush. -/
theorem frameCalls_rest {frames : List (List Byte)} {k : Nat} (h : perFlush = 0 ∨ k + frames.length < perFlush) :
    frameCalls quirk perFlush n frames k = frames.map Call.enq ++
      ((if k + frames.length = 0 then [] else [.flush (3 * (k + frames.length))]) ++ drainIf quirk n) := by
  induction frames generalizing k with
  | nil => rfl
  | cons frame frames ih =>
    rw [List.length_cons] at h
    rw [frameCalls, if_neg (by omega), ih (by omega), List.length_cons, show k + 1 + frames.length =
      k + (frames.length + 1) by omega]
    rfl

/-- A group that fills up is flushed and drained, and what follows begins anew. -/
theorem frameCalls_group {group : List (List Byte)} (frames : List (List Byte)) {k : Nat} (hne : group ≠ [])
    (h : k + group.length = perFlush) :
    frameCalls quirk perFlush n (group ++ frames) k = group.map Call.enq ++
      (.flush (3 * perFlush) :: (drainIf quirk n ++ frameCalls quirk perFlush n frames 0)) := by
  induction group generalizing k with
  | nil => exact absurd rfl hne
  | cons frame group ih =>
    rw [List.length_cons] at h
    cases group with
    | nil =>
      rw [List.length_nil] at h
      rw [List.singleton_append, frameCalls, if_pos (by omega), ← h]
      rfl
    | cons frame' group =>
      rw [List.length_cons] at h
      rw [List.cons_append, frameCalls, if_neg (by omega), ih (List.cons_ne_nil _ _) (by rw [List.length_cons]; omega)]
      rfl

/-- A whole group, from an empty queue. -/
theorem frameCalls_tmsGroup {group : List (List Byte)} (frames : List (List Byte)) (hne : group ≠ [])
    (h : group.length = perFlush) :
    frameCalls quirk perFlush n (group ++ frames) 0 =
      tmsGroup quirk n group ++ frameCalls quirk perFlush n frames 0 := by
  rw [frameCalls_group quirk n frames hne (by rw [Nat.zero_add, h]), tmsGroup, h, List.append_assoc, List.cons_append]

/-- The groups of `perFlush` frames, then the rest. -/
theorem frameCalls_eq_groups (frames : List (List Byte)) :
    frameCalls quirk perFlush n frames 0 =
      ((List.range (frames.length / perFlush)).flatMap fun k =>
        tmsGroup quirk n ((frames.drop (perFlush * k)).take perFlush)) ++
      frameCalls quirk perFlush n (frames.drop (perFlush * (frames.length / perFlush))) 0 := by
  generalize hg : frames.length / perFlush = groups
  induction groups generalizing frames with
  | zero => rfl
  | succ groups ih =>
    have hpos : 0 < perFlush := by
      by_contra h0
      rw [Nat.eq_zero_of_not_pos h0, Nat.div_zero] at hg
      cases hg
    have hle : perFlush ≤ frames.length := by
      by_contra hlt
      rw [Nat.div_eq_of_lt (Nat.not_le.mp hlt)] at hg
      cases hg
    have hlen : (frames.take perFlush).length = perFlush := List.length_take_of_le hle
    have hrest : (frames.drop perFlush).length / perFlush = groups := by
      rw [Nat.div_eq_sub_div hpos hle] at hg
      rw [List.length_drop]
      omega
    have hne : frames.take perFlush ≠ [] := List.ne_nil_of_length_pos (hlen.symm ▸ hpos)
    have hfirst := frameCalls_tmsGroup quirk n (frames.drop perFlush) hne hlen
    rw [List.take_append_drop] at hfirst
    rw [hfirst, ih _ hrest, List.range_succ_eq_map, List.flatMap_cons, List.flatMap_map]
    simp only [List.drop_drop, Nat.mul_succ, Nat.mul_zero, List.drop_zero, List.append_assoc, Nat.add_comm perFlush]

end

theorem frameCalls_eq_tmsCalls {cfg : Config} {quirk : Bool} {bits : Nat → Bool} {len : Nat} (hlen : len ≠ 0) :
    frameCalls quirk (framesPerFlush cfg) (ceil8 len) (tmsFrames cfg bits len) 0 = tmsCalls cfg quirk bits len := by
  rw [tmsCalls, if_neg hlen, frameCalls_eq_groups]
  dsimp only
  generalize hperFlush : framesPerFlush cfg = perFlush
  generalize tmsFrames cfg bits len = frames
  have hrest : perFlush = 0 ∨
      0 + (frames.drop (perFlush * (frames.length / perFlush))).length < perFlush := by
    rw [Nat.zero_add, List.length_drop, ← Nat.mod_eq_sub_mul_div]
    exact perFlush.eq_zero_or_pos.imp_right (Nat.mod_lt _)
  rw [frameCalls_rest _ _ hrest, Nat.zero_add]
  simp only [List.length_eq_zero_iff]
  subst hperFlush
  rfl

theorem tmsBody_called {bits : Nat → Bool} {len : Nat} {s t : State} {v : OkValue} (hp : s.pending = [])
    (h : tmsBody bits len s = .ok v t) : Called s t (tmsCalls s.cfg s.quirk bits len) := by
  by_cases h0 : len = 0
  · subst h0
    rw [tmsBody_zero] at h
    cases h
    exact called_refl s
  · rw [tmsBody, if_neg h0] at h
    obtain ⟨_, u, hsent, hok⟩ := andThen_eq_ok h
    cases hok
    rw [← frameCalls_eq_tmsCalls h0]
    exact sendTmsFrames_called (fun _ => length_of_mem_tmsFrames) (congrArg List.length hp) hsent

/-! ### What a claim reads from the calls -/

/-- The bytes a call enqueues, as a list of one entry or none. -/
def Call.enqueued : Call → List (List Byte)
  | .enq bytes => [bytes]
  | _ => []

/-- The size a call flushes. -/
def Call.flushed : Call → List Nat
  | .flush n => [n]
  | _ => []

/-- The size a capture read asks for. -/
def Call.captures : Call → List Nat
  | .read n => [n]
  | _ => []

/-- The size a drain asks for. -/
def Call.drained : Call → List Nat
  | .drain n => [n]
  | _ => []

theorem enqueued_eq (es : List Event) : enqueued es = (es.map callOf).flatMap Call.enqueued := by
  induction es with
  | nil => rfl
  | cons e es ih => cases e <;> simp [enqueued, callOf, Call.enqueued, ih]

theorem flushSizes_eq (es : List Event) : flushSizes es = (es.map callOf).flatMap Call.flushed := by
  induction es with
  | nil => rfl
  | cons e es ih => cases e <;> simp [flushSizes, callOf, Call.flushed, ih]

theorem readSizes_eq (es : List Event) : readSizes es = (es.map callOf).flatMap Call.captures := by
  induction es with
  | nil => rfl
  | cons e es ih => cases e <;> simp [readSizes, callOf, Call.captures, ih]

theorem drainSizes_eq (es : List Event) : drainSizes es = (es.map callOf).flatMap Call.drained := by
  induction es with
  | nil => rfl
  | cons e es ih => cases e <;> simp [drainSizes, callOf, Call.drained, ih]

section
variable (frames : List (List Byte))

theorem enqueued_enq : (frames.map Call.enq).flatMap Call.enqueued = frames := by
  simp [List.flatMap_map, Call.enqueued]

theorem flushed_enq : (frames.map Call.enq).flatMap Call.flushed = [] := by simp [List.flatMap_map, Call.flushed]

theorem captures_enq : (frames.map Call.enq).flatMap Call.captures = [] := by
  simp [List.flatMap_map, Call.captures]

theorem drained_enq : (frames.map Call.enq).flatMap Call.drained = [] := by simp [List.flatMap_map, Call.drained]

end

section
variable (quirk : Bool) (n : Nat)

theorem enqueued_drainIf : (drainIf quirk n).flatMap Call.enqueued = [] := by cases quirk <;> rfl

theorem flushed_drainIf : (drainIf quirk n).flatMap Call.flushed = [] := by cases quirk <;> rfl

theorem captures_drainIf : (drainIf quirk n).flatMap Call.captures = [] := by cases quirk <;> rfl

theorem drained_drainIf : (drainIf quirk n).flatMap Call.drained = oneIf quirk n := by cases quirk <;> rfl

/-- The frames are enqueued in order. -/
theorem enqueued_frameCalls (perFlush : Nat) (frames : List (List Byte)) (k : Nat) :
    (frameCalls quirk perFlush n frames k).flatMap Call.enqueued = frames := by
  induction frames generalizing k with
  | nil =>
    rw [frameCalls, List.flatMap_append, enqueued_drainIf]
    split <;> rfl
  | cons frame frames ih =>
    rw [frameCalls]
    split <;> simp [Call.enqueued, enqueued_drainIf, ih]

section
variable (frames : List (List Byte))

theorem flushed_tmsGroup : (tmsGroup quirk n frames).flatMap Call.flushed = [3 * frames.length] := by
  rw [tmsGroup, List.flatMap_append, flushed_enq, List.flatMap_cons, flushed_drainIf]
  rfl

theorem captures_tmsGroup : (tmsGroup quirk n frames).flatMap Call.captures = [] := by
  rw [tmsGroup, List.flatMap_append, captures_enq, List.flatMap_cons, captures_drainIf]
  rfl

theorem drained_tmsGroup : (tmsGroup quirk n frames).flatMap Call.drained = oneIf quirk n := by
  rw [tmsGroup, List.flatMap_append, drained_enq, List.flatMap_cons, drained_drainIf]
  rfl

end

end

/-- One entry for each index. -/
theorem flatMap_range_const {α : Type} {f : Nat → List α} {g : Nat} {a : α} (h : ∀ k < g, f k = [a]) :
    (List.range g).flatMap f = List.replicate g a := by
  induction g with
  | zero => rfl
  | succ g ih =>
    rw [List.range_succ, List.flatMap_append, ih fun k hk => h k (by omega), List.flatMap_singleton,
      h g (Nat.lt_succ_self g), List.replicate_succ']

section
variable (cfg : Config) (quirk : Bool) (bits : Nat → Bool) (len : Nat)

theorem enqueued_tmsCalls : (tmsCalls cfg quirk bits len).flatMap Call.enqueued = tmsFrames cfg bits len := by
  by_cases h0 : len = 0
  · subst h0
    rfl
  · rw [← frameCalls_eq_tmsCalls h0, enqueued_frameCalls]

theorem captures_tmsCalls : (tmsCalls cfg quirk bits len).flatMap Call.captures = [] := by
  unfold tmsCalls
  split
  · rfl
  · simp only [List.flatMap_append, List.flatMap_assoc, captures_tmsGroup, captures_enq, captures_drainIf]
    split <;> simp [Call.captures]

theorem drained_tmsCalls : (tmsCalls cfg quirk bits len).flatMap Call.drained =
    if quirk = true ∧ len ≠ 0 then List.replicate ((len + 5) / 6 / (cfg.bufSize / 3) + 1) ((len + 7) / 8) else [] := by
  unfold tmsCalls
  split
  · next h0 => rw [if_neg fun h => h.2 h0, List.flatMap_nil]
  · next h0 =>
    have hlast : ∀ (rest : List (List Byte)),
        (if rest = [] then [] else [Call.flush (3 * rest.length)]).flatMap Call.drained = [] :=
      fun rest => by split <;> rfl
    simp only [List.flatMap_append, List.flatMap_assoc, drained_tmsGroup, drained_enq, drained_drainIf, hlast,
      length_tmsFrames, List.nil_append]
    cases quirk with
    | false => simp [oneIf]
    | true =>
      rw [if_pos ⟨rfl, h0⟩, List.replicate_succ']
      exact congrArg (· ++ [_]) (flatMap_range_const fun _ _ => rfl)

theorem flushed_tmsCalls : (tmsCalls cfg quirk bits len).flatMap Call.flushed =
    List.replicate ((len + 5) / 6 / (cfg.bufSize / 3)) (3 * (cfg.bufSize / 3)) ++
      oneIf (decide ((len + 5) / 6 % (cfg.bufSize / 3) ≠ 0)) (3 * ((len + 5) / 6 % (cfg.bufSize / 3))) := by
  unfold tmsCalls
  split
  · next h0 =>
    subst h0
    simp [oneIf]
  · dsimp only
    rw [← length_tmsFrames cfg bits len]
    generalize cfg.bufSize / 3 = perFlush
    generalize tmsFrames cfg bits len = frames
    have hgroup : ∀ k < frames.length / perFlush,
        [3 * ((frames.drop (perFlush * k)).take perFlush).length] = [3 * perFlush] := by
      intro k hk
      have hle := Nat.mul_le_of_le_div _ _ _ (Nat.succ_le_of_lt hk)
      rw [List.length_take, List.length_drop, min_eq_left]
      rw [Nat.mul_comm, Nat.mul_succ] at hle
      omega
    have hrest : (frames.drop (perFlush * (frames.length / perFlush))).length = frames.length % perFlush := by
      rw [List.length_drop, ← Nat.mod_eq_sub_mul_div]
    simp only [List.flatMap_append, List.flatMap_assoc, flushed_tmsGroup, flushed_enq, flushed_drainIf,
      List.nil_append, List.append_nil, ← List.length_eq_zero_iff, hrest]
    rw [flatMap_range_const hgroup]
    by_cases hmod : frames.length % perFlush = 0
    · simp [hmod, oneIf]
    · simp [hmod, oneIf, Call.flushed]

end

/-! ### TMS_SHIFT completes -/

theorem flush_completes {s : State} (h : flushesSucceed s) : ∃ t, flush s = .ok () t ∧ flushesSucceed t := by
  by_cases hp : s.pending = []
  · exact ⟨s, flush_nil hp, h⟩
  · exact ⟨_, by rw [flush_of_ne hp, if_pos (callFlush_reference h)], callFlush_flushesSucceed h⟩

theorem drainRead_flushesSucceed (n : Nat) {s : State} (h : flushesSucceed s) : flushesSucceed (drainRead n s) := by
  obtain ⟨a, -, -, ⟨-, horacle, -⟩, -, -, hflush⟩ := drainRead_state n s
  exact ⟨horacle.trans h.1, hflush.trans h.2⟩

theorem flushDrain_completes (n : Nat) {s : State} (h : flushesSucceed s) :
    ∃ t, flushDrain n s = .ok () t ∧ flushesSucceed t := by
  obtain ⟨t, hflush, ht⟩ := flush_completes h
  refine ⟨_, flushDrain_of_flush_ok hflush, ?_⟩
  split
  · exact drainRead_flushesSucceed n ht
  · exact ht

theorem sendTmsFrames_completes (perFlush n : Nat) (frames : List (List Byte)) (k : Nat) {s : State}
    (h : flushesSucceed s) : ∃ t, sendTmsFrames perFlush n frames k s = .ok () t ∧ flushesSucceed t := by
  induction frames generalizing k s with
  | nil => exact ⟨s, rfl, h⟩
  | cons frame frames ih =>
    have henq : flushesSucceed (enq frame s) := h
    rw [sendTmsFrames]
    split
    · obtain ⟨t, hflush, ht⟩ := flushDrain_completes n henq
      rw [hflush]
      exact ih 0 ht
    · exact ih (k + 1) henq

theorem tmsBody_completes (bits : Nat → Bool) (len : Nat) {s : State} (h : flushesSucceed s) :
    ∃ t, tmsBody bits len s = .ok (.value len) t := by
  by_cases h0 : len = 0
  · exact ⟨s, by rw [tmsBody, if_pos h0, h0]⟩
  · obtain ⟨t, hsent, ht⟩ :=
      sendTmsFrames_completes (framesPerFlush s.cfg) (ceil8 len) (tmsFrames s.cfg bits len) 0 h
    obtain ⟨u, hflush, -⟩ := flushDrain_completes (ceil8 len) ht
    exact ⟨u, by simp only [tmsBody, if_neg h0, hsent, hflush, Res.andThen]⟩

/-- Settles O33: the body completes, and its calls on success are `tmsCalls`, from which the sizes are read. -/
theorem tmsShiftCompletes : Obligations.TmsShiftCompletes := by
  intro s tms len hs hready hlen hsize hp
  obtain ⟨t, hbody⟩ := tmsBody_completes (bufBit s.mem tms) len hs
  obtain ⟨es, htrace, hcalls⟩ := tmsBody_called hp hbody
  have hworked := tmsBody_worked (bufBit s.mem tms) len s
  have hmem := tmsBody_mem (bufBit s.mem tms) len s
  have hpending := tmsBody_pending (bits := bufBit s.mem tms) (len := len) hp
  have hquiet := fun hq => (tmsBody_quiet (s := s) hq (bufBit s.mem tms) len).2
  rw [hbody] at hworked hmem hpending hquiet
  obtain ⟨hcfg, horacle, hrequests, hphase, hquirk, hfault, hresults, -⟩ := hworked
  have hexec := exec_tmsShift_of_admitted hready hlen hsize
  rw [hbody, finish_ok] at hexec
  refine ⟨_, es, hexec, htrace, hcalls, ?_, ?_, ?_, ?_, congrArg (· ++ [_]) hresults, hpending, hmem, hphase, hquirk,
    hfault, hquiet, hcfg, horacle, hrequests⟩
  · rw [enqueued_eq, hcalls, enqueued_tmsCalls]
  · rw [flushSizes_eq, hcalls, flushed_tmsCalls]
  · rw [readSizes_eq, hcalls, captures_tmsCalls]
  · rw [drainSizes_eq, hcalls, drained_tmsCalls]

/-! ### The frames hold the sequence -/

/-- The first `len` of the bits listed frame by frame. -/
theorem flatMap_tmsBits {α : Type} (f : Nat → α) (len frames : Nat) :
    ((List.range frames).flatMap fun i => (List.range (tmsBitsIn len i)).map fun j => f (tmsChunk * i + j)) =
      (List.range (min len (tmsChunk * frames))).map f := by
  induction frames with
  | zero => simp
  | succ frames ih =>
    rw [List.range_succ, List.flatMap_append, ih, List.flatMap_singleton]
    by_cases hle : tmsChunk * frames ≤ len
    · rw [min_eq_right hle, show min len (tmsChunk * (frames + 1)) = tmsChunk * frames + tmsBitsIn len frames by
        unfold tmsBitsIn; rw [Nat.mul_succ]; omega, List.range_add, List.map_append, List.map_map]
      rfl
    · have hnone : tmsBitsIn len frames = 0 := by
        unfold tmsBitsIn
        omega
      rw [hnone, min_eq_left (by omega), min_eq_left (by rw [Nat.mul_succ]; omega)]
      simp

/-- All of them, over all the frames. -/
theorem flatMap_tmsBits_all {α : Type} (f : Nat → α) (len : Nat) :
    ((List.range (ceilDiv len tmsChunk)).flatMap fun i =>
      (List.range (tmsBitsIn len i)).map fun j => f (tmsChunk * i + j)) = (List.range len).map f := by
  rw [flatMap_tmsBits, min_eq_left]
  unfold ceilDiv tmsChunk
  omega

/-- Bits 0 to n - 1 of a frame's data byte are the frame's bits of the sequence. -/
theorem lowBits_tmsData (tdiLevel : Bool) (bits : Nat → Bool) (off : Nat) {n : Nat} (hn : n ≤ 6) :
    lowBits n (tmsData tdiLevel bits off n) = (List.range n).map fun j => bits (off + j) := by
  refine List.map_congr_left fun j hj => ?_
  have hj' : j < n := List.mem_range.mp hj
  rw [getLsbD_tmsData _ _ _ _ (by omega), decide_eq_true hj', decide_eq_false (show ¬ j = 7 by omega), Bool.and_false,
    Bool.false_or, Bool.true_and]

theorem tmsBitsIn_bounds {len i : Nat} (hi : i < ceilDiv len tmsChunk) : 1 ≤ tmsBitsIn len i ∧ tmsBitsIn len i ≤ 6 := by
  unfold ceilDiv at hi
  unfold tmsBitsIn
  unfold tmsChunk at *
  omega

theorem tmsBitsOf_tmsFrame (cfg : Config) (bits : Nat → Bool) {len i : Nat} (hi : i < ceilDiv len tmsChunk) :
    tmsBitsOf (tmsFrame cfg bits len i) = (List.range (tmsBitsIn len i)).map fun j => bits (tmsChunk * i + j) := by
  obtain ⟨h1, h6⟩ := tmsBitsIn_bounds hi
  have hcount : (bitCountByte (tmsBitsIn len i)).toNat + 1 = tmsBitsIn len i := by
    rw [bitCountByte, byte_toNat]
    omega
  rw [tmsFrame, tmsBitsOf, hcount, lowBits_tmsData _ _ _ h6]

theorem flatMap_tmsBitsOf_tmsFrames (cfg : Config) (bits : Nat → Bool) (len : Nat) :
    (tmsFrames cfg bits len).flatMap tmsBitsOf = (List.range len).map bits := by
  rw [← flatMap_tmsBits_all, tmsFrames, List.flatMap_map]
  exact List.flatMap_congr fun i hi => tmsBitsOf_tmsFrame cfg bits (List.mem_range.mp hi)

/-- A request that records a success is one whose body succeeded. -/
theorem exec_success {i : Instr} {s t : State} {v : OkValue} (hi : i.isRequest = true) (hn : i ≠ .teardown)
    (h : exec i s = .next t) (hv : t.results = s.results ++ [.ok v]) :
    ∃ u, Body i s (.ok v u) ∧ t = u.addResult (.ok v) := by
  cases served_of_exec hi h with
  | refused reason => simp [refuse] at hv
  | nothingToClose => exact absurd rfl hn
  | closed => exact absurd rfl hn
  | @finished _ _ r hb =>
    rw [finish_results, hb.leaves.results, List.append_cancel_left_eq, List.singleton_inj] at hv
    cases r with
    | ok v' u =>
      cases hv
      exact ⟨u, hb, rfl⟩
    | err e u => cases hv

/-- A TMS_SHIFT that records a success. -/
theorem tmsShift_success {tms : Buf} {len : Nat} {s t : State} {v : OkValue}
    (h : exec (.tmsShift tms len) s = .next t) (hv : t.results = s.results ++ [.ok v]) :
    ∃ u, tmsBody (bufBit s.mem tms) len s = .ok v u ∧ t = u.addResult (.ok v) := by
  obtain ⟨u, hb, ht⟩ := exec_success (i := .tmsShift tms len) rfl nofun h hv
  generalize hr : Res.ok v u = r at hb
  cases hb
  exact ⟨u, hr.symm, ht⟩

/-- From `s` to `t` the block enqueued the byte strings `bss`, in this order. -/
def Enqueues (s t : State) (bss : List (List Byte)) : Prop := ∃ es, t.trace = s.trace ++ es ∧ enqueued es = bss

theorem Called.enqueues {s t : State} {cs : List Call} (h : Called s t cs) :
    Enqueues s t (cs.flatMap Call.enqueued) := by
  obtain ⟨es, htrace, rfl⟩ := h
  exact ⟨es, htrace, enqueued_eq es⟩

theorem Enqueues.trans {s t u : State} {bss bss' : List (List Byte)} (h : Enqueues s t bss)
    (h' : Enqueues t u bss') : Enqueues s u (bss ++ bss') := by
  obtain ⟨es, htrace, rfl⟩ := h
  obtain ⟨es', htrace', rfl⟩ := h'
  exact ⟨es ++ es', by rw [htrace', htrace, List.append_assoc],
    by rw [enqueued_eq, enqueued_eq, enqueued_eq, List.map_append, List.flatMap_append]⟩

theorem flushDrain_enqueues {n : Nat} {s t : State} (h : flushDrain n s = .ok () t) : Enqueues s t [] := by
  have henq := (flushDrain_called h).enqueues
  rw [List.flatMap_append, enqueued_drainIf] at henq
  split at henq <;> exact henq

/-- The frames are enqueued in order, whatever was pending before. -/
theorem sendTmsFrames_enqueues {perFlush n k : Nat} {frames : List (List Byte)} {s t : State}
    (h : sendTmsFrames perFlush n frames k s = .ok () t) : Enqueues s t frames := by
  induction frames generalizing k s with
  | nil =>
    cases h
    exact (called_refl _).enqueues
  | cons frame frames ih =>
    have henq : Enqueues s (enq frame s) [frame] := (called_refl _).of_enq.enqueues
    rw [sendTmsFrames] at h
    refine henq.trans ?_
    split at h
    · obtain ⟨_, u, hflush, hrest⟩ := andThen_eq_ok h
      exact (flushDrain_enqueues hflush).trans (ih hrest)
    · exact ih h

theorem tmsBody_enqueues {bits : Nat → Bool} {len : Nat} {s t : State} {v : OkValue}
    (h : tmsBody bits len s = .ok v t) : Enqueues s t (tmsFrames s.cfg bits len) := by
  by_cases h0 : len = 0
  · subst h0
    rw [tmsBody_zero] at h
    cases h
    exact (called_refl s).enqueues
  · rw [tmsBody, if_neg h0] at h
    obtain ⟨_, u, hsent, hok⟩ := andThen_eq_ok h
    cases hok
    obtain ⟨_, w, hframes, hlast⟩ := andThen_eq_ok hsent
    have hall := (sendTmsFrames_enqueues hframes).trans (flushDrain_enqueues hlast)
    rwa [List.append_nil] at hall

/-- Settles O34: wherever it succeeds the request enqueued all its frames, which hold the sequence six bits a frame. -/
theorem tmsFramesReproduceTheInput : Obligations.TmsFramesReproduceTheInput := by
  intro s t tms len v h hv
  obtain ⟨u, hbody, rfl⟩ := tmsShift_success h hv
  obtain ⟨es, htrace, henq⟩ := tmsBody_enqueues hbody
  exact ⟨es, htrace, by rw [henq, flatMap_tmsBitsOf_tmsFrames]⟩

end Sys2Proof.Machine
end

section
/-! PROOFS. The calls of a DATA_SHIFT (43_data_shifter.md R132 to R135, R139): which they are wherever it succeeds, step after
step. -/

namespace Sys2Proof.Machine

/-! ### The two buffers while TDO is written -/

/-- Where both buffers are present, their first `n` bytes are at different addresses. -/
def BufsApart (tdi tdo : Option Buf) (n : Nat) : Prop := ∀ a b, tdi = some a → tdo = some b → Apart a b n

/-- The first `n` bytes of TDI, if it is present, are the same in both memories. -/
def SameTdi (tdi : Option Buf) (n : Nat) (m m' : Memory) : Prop :=
  ∀ a, tdi = some a → ∀ i < n, m'.read (a.base + i) = m.read (a.base + i)

theorem tdiBytes_congr {tdi : Option Buf} {total cur n : Nat} {m m' : Memory} (h : SameTdi tdi total m m')
    (hn : cur + n ≤ total) : tdiBytes m' tdi cur n = tdiBytes m tdi cur n := by
  cases tdi with
  | none => rfl
  | some a =>
    have hbytes : m'.readBytes (a.base + cur) n = m.readBytes (a.base + cur) n := by
      refine List.map_congr_left fun i hi => ?_
      have hi' : i < n := List.mem_range.mp hi
      rw [Nat.add_assoc]
      exact h a rfl (cur + i) (by omega)
    exact congrArg ([·]) hbytes

theorem finalBit_congr {tdi : Option Buf} {total nbByte : Nat} {m m' : Memory} (nbBit : Nat)
    (h : SameTdi tdi total m m') (hn : nbByte < total) : finalBit m' tdi nbByte nbBit = finalBit m tdi nbByte nbBit := by
  cases tdi with
  | none => rfl
  | some a => exact congrArg (BitVec.getLsbD · nbBit) (h a rfl nbByte hn)

/-- State `s` is between two steps of a DATA_SHIFT that began in `s₀`, whose buffers have `total` bytes it may use. -/
structure Midway (tdi tdo : Option Buf) (total : Nat) (s₀ s : State) : Prop where
  pending : s.pending = []
  cfg : s.cfg = s₀.cfg
  quirk : s.quirk = s₀.quirk
  mem : tdo = none → s.mem = s₀.mem
  wf : tdo ≠ none → s.mem.wf
  tdi : SameTdi tdi total s₀.mem s.mem

theorem midway_refl {tdi tdo : Option Buf} {total : Nat} {s : State} (hp : s.pending = [])
    (hwf : tdo ≠ none → s.mem.wf) : Midway tdi tdo total s s :=
  ⟨hp, rfl, rfl, fun _ => rfl, hwf, fun _ _ _ _ => rfl⟩

/-- A step that completes and writes its own bytes of TDO only. -/
theorem Midway.next {tdi tdo : Option Buf} {total lo hi : Nat} {s₀ s t : State} (h : Midway tdi tdo total s₀ s)
    (ha : BufsApart tdi tdo total) (hhi : hi ≤ total) (hw : worked s t) (hp : t.pending = [])
    (hnone : tdo = none → t.mem = s.mem) (hconf : s.mem.wf → Confined tdo lo hi s t) : Midway tdi tdo total s₀ t := by
  obtain ⟨hcfg, -, -, -, hquirk, -⟩ := hw
  refine ⟨hp, hcfg.trans h.cfg, hquirk.trans h.quirk, fun hn => (hnone hn).trans (h.mem hn),
    fun hn => (hconf (h.wf hn)).wf, fun a hta i hi' => ?_⟩
  refine Eq.trans ?_ (h.tdi a hta i hi')
  by_cases hn : tdo = none
  · rw [hnone hn]
  · refine (hconf (h.wf hn)).outside _ fun b hb hin => ?_
    exact ha a b hta hb i hi' (a.base + i - b.base) (by omega) (by omega)

/-! ### One step -/

/-- The read or the drain after a step's flush (43_data_shifter.md R132, R139). -/
def closeCalls (rd quirk : Bool) (n : Nat) : List Call := if rd then [.read n] else drainIf quirk n

theorem flush_called_of_ne {s t : State} (hne : s.pending ≠ []) (h : flush s = .ok () t) :
    Called s t [.flush s.pending.length] := by
  have hcalled := flush_called h
  rwa [if_neg hne] at hcalled

theorem writeDone_called {n : Nat} {s t : State} (hne : s.pending ≠ []) (h : writeDone n s = .ok () t) :
    Called s t (.flush s.pending.length :: drainIf s.quirk n) := by
  cases hq : s.quirk with
  | false =>
    rw [writeDone_of_not_quirk hq] at h
    exact flush_called_of_ne hne h
  | true =>
    rw [writeDone_of_quirk hq] at h
    obtain ⟨_, u, hflush, hread⟩ := andThen_eq_ok h
    cases hread
    exact (flush_called_of_ne hne hflush).trans (drainRead_called n u)

theorem captureRead_called {n : Nat} {s t : State} {bs : List Byte} (h : captureRead n s = .ok bs t) :
    Called s t [.read n] := by
  obtain ⟨a, u, htrace, -, -, -, -, -, -, hread⟩ := captureRead_state n s
  rw [hread] at h
  split at h
  · split at h
    · cases h
      exact called_of_event htrace
    · cases h
  · cases h

theorem readBack_called {n : Nat} {s t : State} {bs : List Byte} (hne : s.pending ≠ [])
    (h : readBack n s = .ok bs t) : Called s t [.flush s.pending.length, .read n] := by
  obtain ⟨_, u, hflush, hread⟩ := andThen_eq_ok h
  exact (flush_called_of_ne hne hflush).trans (captureRead_called hread)

theorem closeStep_called {tdo : Option Buf} {i n : Nat} {store : State → List Byte → List Byte} {s t : State}
    (hne : s.pending ≠ []) (h : closeStep (tdoAt tdo i) n store s = .ok () t) :
    Called s t (.flush s.pending.length :: closeCalls tdo.isSome s.quirk n) := by
  cases tdo with
  | none => exact writeDone_called hne h
  | some b =>
    simp only [closeStep, tdoAt, Option.map_some] at h
    cases hread : readBack n s with
    | ok bs u =>
      rw [hread] at h
      cases h
      have hcalled : Called s u [.flush s.pending.length, .read n] := readBack_called hne hread
      exact hcalled
    | err e u =>
      rw [hread] at h
      cases h

/-- What a step of a DATA_SHIFT enqueues: its header, and its TDI bytes. -/
theorem enqTdi_called (tdi : Option Buf) (cur n : Nat) (header : List Byte) {s : State} (hp : s.pending = []) :
    Called s (enqTdi tdi cur n (enq header s)) ((header :: tdiBytes s.mem tdi cur n).map Call.enq) ∧
    (enqTdi tdi cur n (enq header s)).pending = (header :: tdiBytes s.mem tdi cur n).flatten ∧
    (enqTdi tdi cur n (enq header s)).quirk = s.quirk := by
  cases tdi with
  | none => exact ⟨(called_refl _).of_enq, by simp [enqTdi, enq, tdiBytes, hp], rfl⟩
  | some b => exact ⟨(called_refl _).of_enq.of_enq, by simp [enqTdi, enq, tdiBytes, hp], rfl⟩

/-- A step, given what it enqueues and how it closes. -/
theorem stepCalls_of_close {tdo : Option Buf} {i n : Nat} {store : State → List Byte → List Byte}
    {bss : List (List Byte)} {s u t : State} (henq : Called s u (bss.map Call.enq)) (hp : u.pending = bss.flatten)
    (hq : u.quirk = s.quirk) (hne : bss.flatten ≠ []) (h : closeStep (tdoAt tdo i) n store u = .ok () t) :
    Called s t (stepCalls (closeCalls tdo.isSome s.quirk) (bss, n)) := by
  have hclose := closeStep_called (hp ▸ hne) h
  rw [hp, hq, List.length_flatten] at hclose
  exact henq.trans hclose

section
variable {tdi tdo : Option Buf} {s t : State} (hp : s.pending = [])
include hp

theorem dataChunk_called {cur c : Nat} (h : dataChunk tdi tdo cur c s = .ok () t) :
    Called s t (stepCalls (closeCalls tdo.isSome s.quirk)
      (byteHeader s.cfg tdi.isSome tdo.isSome c :: tdiBytes s.mem tdi cur c, c)) := by
  obtain ⟨henq, hpending, hquirk⟩ := enqTdi_called tdi cur c (byteHeader s.cfg tdi.isSome tdo.isSome c) hp
  exact stepCalls_of_close henq hpending hquirk (List.cons_ne_nil _ _) h

theorem dataResidual_called {nbByte nbBit : Nat} (h : dataResidual tdi tdo nbByte nbBit s = .ok () t) :
    Called s t ((residualPlan s.cfg s.mem tdi tdo.isSome nbByte nbBit).flatMap
      (stepCalls (closeCalls tdo.isSome s.quirk))) := by
  unfold dataResidual at h
  unfold residualPlan
  split at h
  · next h0 =>
    cases h
    rw [if_pos h0]
    exact called_refl s
  · next h0 =>
    obtain ⟨henq, hpending, hquirk⟩ := enqTdi_called tdi nbByte 1 (bitHeader s.cfg tdi.isSome tdo.isSome nbBit) hp
    rw [if_neg h0, List.flatMap_singleton]
    exact stepCalls_of_close henq hpending hquirk (List.cons_ne_nil _ _) h

theorem dataExit_called {nbByte nbBit : Nat} {last : Bool} (h : dataExit tdi tdo nbByte nbBit last s = .ok () t) :
    Called s t ((exitPlan s.cfg s.mem tdi tdo.isSome nbByte nbBit last).flatMap
      (stepCalls (closeCalls tdo.isSome s.quirk))) := by
  unfold dataExit at h
  unfold exitPlan
  split at h
  · next hl =>
    rw [if_pos hl, List.flatMap_singleton]
    refine stepCalls_of_close (called_refl _).of_enq ?_ rfl (List.cons_ne_nil _ _) h
    simp [enq, hp]
  · next hl =>
    cases h
    rw [if_neg hl]
    exact called_refl s

end

/-! ### Every step leaves the shift midway -/

theorem closeStep_mem_none {tdo : Option Buf} (hn : tdo = none) (i n : Nat) (store : State → List Byte → List Byte)
    (s : State) : (closeStep (tdoAt tdo i) n store s).state.mem = s.mem := by
  subst hn
  exact writeDone_mem n s

section
variable {tdi tdo : Option Buf} {total : Nat} {s₀ s t : State} (h : Midway tdi tdo total s₀ s)
  (ha : BufsApart tdi tdo total)
include h ha

theorem dataChunk_midway {cur c : Nat} (hc : cur + c ≤ total) (hok : dataChunk tdi tdo cur c s = .ok () t) :
    Midway tdi tdo total s₀ t := by
  have hw := dataChunk_worked tdi tdo cur c s
  have hp : (dataChunk tdi tdo cur c s).state.pending = [] := closeStep_pending _ _ _ _
  have hnone : tdo = none → (dataChunk tdi tdo cur c s).state.mem = s.mem :=
    fun hn => (closeStep_mem_none hn _ _ _ _).trans (enqTdi_mem _ _ _ _)
  have hconf := fun hwf => dataChunk_confined tdi tdo cur c (s := s) hwf
  rw [hok] at hw hp hnone hconf
  exact h.next ha hc hw hp hnone hconf

theorem dataResidual_midway {nbByte nbBit : Nat} (hn : nbBit ≠ 0 → nbByte < total)
    (hok : dataResidual tdi tdo nbByte nbBit s = .ok () t) : Midway tdi tdo total s₀ t := by
  have hw := dataResidual_worked tdi tdo nbByte nbBit s
  have hp := dataResidual_pending (tdi := tdi) (tdo := tdo) (nbByte := nbByte) (nbBit := nbBit) h.pending
  have hnone : tdo = none → (dataResidual tdi tdo nbByte nbBit s).state.mem = s.mem := by
    intro hn
    unfold dataResidual
    split
    · rfl
    · exact (closeStep_mem_none hn _ _ _ _).trans (enqTdi_mem _ _ _ _)
  have hconf := fun hwf => dataResidual_confined tdi tdo (hi := total) (s := s) hwf hn
  rw [hok] at hw hp hnone hconf
  exact h.next ha le_rfl hw hp hnone hconf

theorem dataExit_midway {nbByte nbBit : Nat} {last : Bool} (hn : last = true → nbByte < total)
    (hok : dataExit tdi tdo nbByte nbBit last s = .ok () t) : Midway tdi tdo total s₀ t := by
  have hw := dataExit_worked tdi tdo nbByte nbBit last s
  have hp := dataExit_pending (tdi := tdi) (tdo := tdo) (nbByte := nbByte) (nbBit := nbBit) (last := last) h.pending
  have hnone : tdo = none → (dataExit tdi tdo nbByte nbBit last s).state.mem = s.mem := by
    intro hn
    unfold dataExit
    split
    · exact closeStep_mem_none hn _ _ _ _
    · rfl
  have hconf := fun hwf => dataExit_confined tdi tdo (hi := total) (nbBit := nbBit) (s := s) hwf hn
  rw [hok] at hw hp hnone hconf
  exact h.next ha le_rfl hw hp hnone hconf

/-! ### All the steps -/

theorem dataChunks_called {sizes : List Nat} {cur : Nat} (hsum : cur + sizes.sum ≤ total)
    (hok : dataChunks tdi tdo sizes cur s = .ok () t) :
    Called s t ((chunkPlan s₀.cfg s₀.mem tdi tdo.isSome sizes cur).flatMap
      (stepCalls (closeCalls tdo.isSome s₀.quirk))) ∧ Midway tdi tdo total s₀ t := by
  induction sizes generalizing cur s with
  | nil =>
    cases hok
    exact ⟨called_refl _, h⟩
  | cons c sizes ih =>
    rw [List.sum_cons] at hsum
    obtain ⟨_, u, hchunk, hrest⟩ := andThen_eq_ok hok
    have hfirst := dataChunk_called h.pending hchunk
    obtain ⟨hothers, hmid⟩ := ih (dataChunk_midway h ha (by omega) hchunk) (cur := cur + c) (by omega) hrest
    rw [h.cfg, h.quirk, tdiBytes_congr h.tdi (by omega)] at hfirst
    exact ⟨hfirst.trans hothers, hmid⟩

end

/-- Wherever steps 3 to 5 succeed they make the calls of the plan; `total` bounds the bytes that the shift needs. -/
theorem dataSteps_called {tdi tdo : Option Buf} {len total : Nat} {last : Bool} {s t : State} {v : OkValue}
    (hp : s.pending = []) (hwf : tdo ≠ none → s.mem.wf) (ha : BufsApart tdi tdo total)
    (hfull : realLen len last / 8 ≤ total) (hpart : realLen len last % 8 ≠ 0 ∨ last = true → realLen len last / 8 < total)
    (h : dataSteps tdi tdo (realLen len last / 8) (realLen len last % 8) last s = .ok v t) :
    Called s t (dataCalls s.cfg s.mem tdi tdo.isSome s.quirk len last) ∧ Midway tdi tdo total s t := by
  have hsum := chunkSizes_sum_le (realLen len last / 8) (realLen len last / 8) (chunkLimit s.cfg)
  obtain ⟨_, t₅, h₅, hok⟩ := andThen_eq_ok h
  cases hok
  obtain ⟨_, t₄, h₄, hexit⟩ := andThen_eq_ok h₅
  obtain ⟨_, t₃, hchunks, hresidual⟩ := andThen_eq_ok h₄
  obtain ⟨called₃, mid₃⟩ := dataChunks_called (midway_refl hp hwf) ha (by omega) hchunks
  have called₄ := dataResidual_called mid₃.pending hresidual
  have mid₄ := dataResidual_midway mid₃ ha (fun h0 => hpart (.inl h0)) hresidual
  have called₅ := dataExit_called mid₄.pending hexit
  have mid₅ := dataExit_midway mid₄ ha (fun hl => hpart (.inr hl)) hexit
  rw [mid₃.cfg, mid₃.quirk] at called₄
  rw [mid₄.cfg, mid₄.quirk] at called₅
  have hres : residualPlan s.cfg t₃.mem tdi tdo.isSome (realLen len last / 8) (realLen len last % 8) =
      residualPlan s.cfg s.mem tdi tdo.isSome (realLen len last / 8) (realLen len last % 8) := by
    unfold residualPlan
    split
    · rfl
    · next h0 => rw [tdiBytes_congr mid₃.tdi (hpart (.inl h0))]
  have hex : exitPlan s.cfg t₄.mem tdi tdo.isSome (realLen len last / 8) (realLen len last % 8) last =
      exitPlan s.cfg s.mem tdi tdo.isSome (realLen len last / 8) (realLen len last % 8) last := by
    unfold exitPlan
    split
    · next hl => rw [finalBit_congr _ mid₄.tdi (hpart (.inr hl))]
    · rfl
  rw [hres] at called₄
  rw [hex] at called₅
  refine ⟨?_, mid₅⟩
  have hall := called₃.trans (called₄.trans called₅)
  rw [← List.flatMap_append, ← List.flatMap_append] at hall
  exact hall

end Sys2Proof.Machine
end

section
/-! PROOFS. DATA_SHIFT completes (43_data_shifter.md R132 to R135): without TDO where its flushes succeed, with TDO where its
reads answer every byte as well; and what is then in TDO. -/

namespace Sys2Proof.Machine

/-! ### What a claim reads from the calls -/

section
variable (rd quirk : Bool) (planned : List (List Byte) × Nat)

theorem enqueued_stepCalls : (stepCalls (closeCalls rd quirk) planned).flatMap Call.enqueued = planned.1 := by
  rw [stepCalls, List.flatMap_append, enqueued_enq, List.flatMap_cons]
  cases rd <;> simp [closeCalls, enqueued_drainIf, Call.enqueued]

theorem flushed_stepCalls :
    (stepCalls (closeCalls rd quirk) planned).flatMap Call.flushed = [(planned.1.map List.length).sum] := by
  rw [stepCalls, List.flatMap_append, flushed_enq, List.flatMap_cons]
  cases rd <;> simp [closeCalls, flushed_drainIf, Call.flushed]

theorem captures_stepCalls :
    (stepCalls (closeCalls rd quirk) planned).flatMap Call.captures = if rd then [planned.2] else [] := by
  rw [stepCalls, List.flatMap_append, captures_enq, List.flatMap_cons]
  cases rd <;> simp [closeCalls, captures_drainIf, Call.captures]

theorem drained_stepCalls :
    (stepCalls (closeCalls rd quirk) planned).flatMap Call.drained = if !rd && quirk then [planned.2] else [] := by
  rw [stepCalls, List.flatMap_append, drained_enq, List.flatMap_cons]
  cases rd <;> simp [closeCalls, drained_drainIf, Call.drained, oneIf]

end

section
variable (cfg : Config) (m : Memory) (tdi : Option Buf) (rd : Bool)

theorem length_tdiBytes (cur n : Nat) :
    ((tdiBytes m tdi cur n).map List.length).sum = if tdi.isSome then n else 0 := by
  cases tdi with
  | none => rfl
  | some b => simp [tdiBytes, Memory.length_readBytes]

theorem chunkPlan_steps (sizes : List Nat) (cur : Nat) : (chunkPlan cfg m tdi rd sizes cur).map Prod.snd = sizes := by
  induction sizes generalizing cur with
  | nil => rfl
  | cons c sizes ih => exact congrArg (c :: ·) (ih (cur + c))

theorem chunkPlan_transfers (sizes : List Nat) (cur : Nat) :
    (chunkPlan cfg m tdi rd sizes cur).map (fun p => (p.1.map List.length).sum) =
      sizes.map fun c => if tdi.isSome then 3 + c else 3 := by
  induction sizes generalizing cur with
  | nil => rfl
  | cons c sizes ih =>
    have hheader : (byteHeader cfg tdi.isSome rd c).length = 3 := by simp [byteHeader, length_byteCountBytes]
    simp only [chunkPlan, List.map_cons, List.sum_cons, hheader, length_tdiBytes, ih]
    congr 1
    split <;> rfl

variable (len : Nat) (last : Bool)

theorem dataPlan_steps : (dataPlan cfg m tdi rd len last).map Prod.snd = dataStepSizes cfg len last := by
  rw [dataPlan, List.map_append, List.map_append, chunkPlan_steps, dataStepSizes, residualPlan, exitPlan]
  congr 2
  · by_cases h0 : realLen len last % 8 = 0 <;> simp [h0, oneIf]
  · cases last <;> rfl

theorem dataPlan_transfers :
    (dataPlan cfg m tdi rd len last).map (fun p => (p.1.map List.length).sum) =
      dataTransferSizes cfg tdi.isSome len last := by
  rw [dataPlan, List.map_append, List.map_append, chunkPlan_transfers, dataTransferSizes, residualPlan, exitPlan]
  congr 2
  · by_cases h0 : realLen len last % 8 = 0
    · simp [h0, oneIf]
    · rw [if_neg h0, decide_eq_true h0, List.map_singleton, List.map_cons, List.sum_cons, length_tdiBytes]
      cases tdi <;> rfl
  · cases last <;> rfl

variable (quirk : Bool)

theorem enqueued_dataCalls : (dataCalls cfg m tdi rd quirk len last).flatMap Call.enqueued =
    dataEnqueued cfg m tdi rd len last := by
  refine List.flatMap_assoc.trans ?_
  exact List.flatMap_congr fun p _ => enqueued_stepCalls rd quirk p

theorem flushed_dataCalls : (dataCalls cfg m tdi rd quirk len last).flatMap Call.flushed =
    dataTransferSizes cfg tdi.isSome len last := by
  rw [← dataPlan_transfers cfg m tdi rd, List.map_eq_flatMap]
  refine List.flatMap_assoc.trans ?_
  exact List.flatMap_congr fun p _ => flushed_stepCalls rd quirk p

theorem captures_dataCalls : (dataCalls cfg m tdi rd quirk len last).flatMap Call.captures =
    if rd then dataStepSizes cfg len last else [] := by
  rw [← dataPlan_steps cfg m tdi rd, List.map_eq_flatMap]
  refine List.flatMap_assoc.trans ?_
  refine (List.flatMap_congr fun p _ => captures_stepCalls rd quirk p).trans ?_
  cases rd <;> simp

theorem drained_dataCalls : (dataCalls cfg m tdi rd quirk len last).flatMap Call.drained =
    if !rd && quirk then dataStepSizes cfg len last else [] := by
  rw [← dataPlan_steps cfg m tdi rd, List.map_eq_flatMap]
  refine List.flatMap_assoc.trans ?_
  refine (List.flatMap_congr fun p _ => drained_stepCalls rd quirk p).trans ?_
  cases rd <;> cases quirk <;> simp

/-- What is enqueued and the sizes of the calls, where the events are these calls. -/
theorem sizes_of_dataCalls {es : List Event} (h : es.map callOf = dataCalls cfg m tdi rd quirk len last) :
    enqueued es = dataEnqueued cfg m tdi rd len last ∧ flushSizes es = dataTransferSizes cfg tdi.isSome len last ∧
    readSizes es = (if rd then dataStepSizes cfg len last else []) ∧
    drainSizes es = if !rd && quirk then dataStepSizes cfg len last else [] := by
  rw [enqueued_eq, flushSizes_eq, readSizes_eq, drainSizes_eq, h]
  exact ⟨enqueued_dataCalls .., flushed_dataCalls .., captures_dataCalls .., drained_dataCalls ..⟩

end

/-! ### A request whose steps complete -/

/-- The bytes that a shift of `len` bits needs of its buffers are `ceil8 len`. -/
theorem realLen_bytes {len : Nat} (last : Bool) (h : len ≠ 0) :
    realLen len last / 8 ≤ ceil8 len ∧
    (realLen len last % 8 ≠ 0 ∨ last = true → realLen len last / 8 < ceil8 len) := by
  have hreal := realLen_add_exit last h
  generalize realLen len last = real at hreal
  unfold ceil8
  cases last with
  | false =>
    simp only [Bool.false_eq_true, if_false, or_false] at hreal ⊢
    omega
  | true =>
    simp only [if_true] at hreal
    omega

theorem bufsApart_of_admitted {tdi tdo : Option Buf} {len : Nat} {s : State} (h : dataAdmitted tdi tdo len s) :
    BufsApart tdi tdo (ceil8 len) := by
  obtain ⟨-, -, htdi, htdo, hshare⟩ := h
  exact fun a b ha hb => apart_of_not_shareByte (htdi a ha) (htdo b hb) (hshare a b ha hb)

/-- An admitted request whose steps complete: its result, its calls, and what it leaves. -/
theorem dataShift_of_steps {tdi tdo : Option Buf} {len : Nat} {last : Bool} {s t : State}
    (ha : dataAdmitted tdi tdo len s) (hlen : len ≠ 0) (hp : s.pending = []) (hwf : tdo ≠ none → s.mem.wf)
    (h : dataSteps tdi tdo (realLen len last / 8) (realLen len last % 8) last s = .ok (.value 0) t) :
    exec (.dataShift tdi tdo len last) s = .next (t.addResult (.ok (.value 0))) ∧
    Called s t (dataCalls s.cfg s.mem tdi tdo.isSome s.quirk len last) ∧ (tdo = none → t.mem = s.mem) ∧
    t.pending = [] ∧ worked s t ∧ (s.quirk = false ∨ tdo ≠ none → t.diag = s.diag) := by
  obtain ⟨hfull, hpart⟩ := realLen_bytes last hlen
  obtain ⟨hcalled, hmid⟩ := dataSteps_called hp hwf (bufsApart_of_admitted ha) hfull hpart h
  have hbody : dataBody tdi tdo len last s = .ok (.value 0) t := by rw [dataBody_eq, if_neg hlen, h]
  have hworked := dataBody_worked tdi tdo len last s
  have hdiag := fun hq => (dataBody_quiet (tdo := tdo) (s := s) hq tdi len last).2
  rw [hbody] at hworked hdiag
  exact ⟨(exec_dataShift_of_ok ha hbody).1, hcalled, hmid.mem, hmid.pending, hworked, hdiag⟩

/-! ### Without TDO -/

theorem writeDone_completes (n : Nat) {s : State} (h : flushesSucceed s) :
    ∃ t, writeDone n s = .ok () t ∧ flushesSucceed t := by
  obtain ⟨t, hflush, ht⟩ := flush_completes h
  cases hq : s.quirk with
  | false => exact ⟨t, by rw [writeDone_of_not_quirk hq, hflush], ht⟩
  | true => exact ⟨drainRead n t, by rw [writeDone_of_quirk hq, drain_of_flush_ok hflush], drainRead_flushesSucceed n ht⟩

theorem enqTdi_flushesSucceed (tdi : Option Buf) (cur n : Nat) {s : State} (h : flushesSucceed s) :
    flushesSucceed (enqTdi tdi cur n s) := by
  cases tdi <;> exact h

theorem dataChunk_completes (tdi : Option Buf) (cur c : Nat) {s : State} (h : flushesSucceed s) :
    ∃ t, dataChunk tdi none cur c s = .ok () t ∧ flushesSucceed t :=
  writeDone_completes c (enqTdi_flushesSucceed tdi cur c h)

theorem dataChunks_completes (tdi : Option Buf) (sizes : List Nat) (cur : Nat) {s : State} (h : flushesSucceed s) :
    ∃ t, dataChunks tdi none sizes cur s = .ok () t ∧ flushesSucceed t := by
  induction sizes generalizing cur s with
  | nil => exact ⟨s, rfl, h⟩
  | cons c sizes ih =>
    obtain ⟨u, hchunk, hu⟩ := dataChunk_completes tdi cur c h
    obtain ⟨t, hrest, ht⟩ := ih (cur + c) hu
    exact ⟨t, by rw [dataChunks, hchunk, Res.andThen, hrest], ht⟩

theorem dataResidual_completes (tdi : Option Buf) (nbByte nbBit : Nat) {s : State} (h : flushesSucceed s) :
    ∃ t, dataResidual tdi none nbByte nbBit s = .ok () t ∧ flushesSucceed t := by
  unfold dataResidual
  split
  · exact ⟨s, rfl, h⟩
  · exact writeDone_completes 1 (enqTdi_flushesSucceed tdi nbByte 1 h)

theorem dataExit_completes (tdi : Option Buf) (nbByte nbBit : Nat) (last : Bool) {s : State} (h : flushesSucceed s) :
    ∃ t, dataExit tdi none nbByte nbBit last s = .ok () t := by
  unfold dataExit
  split
  · obtain ⟨t, hdone, -⟩ := writeDone_completes (s := enq (exitFrame s.cfg false (finalBit s.mem tdi nbByte nbBit)) s) 1 h
    exact ⟨t, hdone⟩
  · exact ⟨s, rfl⟩

theorem dataSteps_completes (tdi : Option Buf) (nbByte nbBit : Nat) (last : Bool) {s : State} (h : flushesSucceed s) :
    ∃ t, dataSteps tdi none nbByte nbBit last s = .ok (.value 0) t := by
  obtain ⟨t₃, e₃, h₃⟩ := dataChunks_completes tdi (chunkSizes nbByte nbByte (chunkLimit s.cfg)) 0 h
  obtain ⟨t₄, e₄, h₄⟩ := dataResidual_completes tdi nbByte nbBit h₃
  obtain ⟨t₅, e₅⟩ := dataExit_completes tdi nbByte nbBit last h₄
  exact ⟨t₅, by simp only [dataSteps, e₃, Res.andThen, e₄, e₅]⟩

/-- Settles O40: the steps complete, and their calls on success are `dataCalls`, from which the sizes are read. -/
theorem dataShiftWritesOnly : Obligations.DataShiftWritesOnly := by
  intro s tdi len last hs ha hlen hp
  obtain ⟨t, hsteps⟩ := dataSteps_completes tdi (realLen len last / 8) (realLen len last % 8) last hs
  obtain ⟨hexec, ⟨es, htrace, hcalls⟩, hmem, hpending, hworked, hdiag⟩ :=
    dataShift_of_steps ha hlen hp (absurd rfl) hsteps
  obtain ⟨hcfg, horacle, hrequests, hphase, hquirk, hfault, hresults, -⟩ := hworked
  obtain ⟨henqueued, hflushes, hreads, hdrains⟩ := sizes_of_dataCalls _ _ _ _ _ _ _ hcalls
  exact ⟨_, es, hexec, htrace, hcalls, henqueued, hflushes, hreads, hdrains, congrArg (· ++ [_]) hresults, hpending,
    hmem rfl, hphase, hquirk, hfault, fun hq => hdiag (.inl hq), hcfg, horacle, hrequests⟩

/-! ### With TDO, whose reads are scripted -/

theorem Memory.writeBytes_append (m : Memory) (a : Nat) (xs ys : List Byte) :
    m.writeBytes a (xs ++ ys) = (m.writeBytes a xs).writeBytes (a + xs.length) ys := by
  induction xs generalizing m a with
  | nil => rfl
  | cons x xs ih =>
    rw [List.cons_append, Memory.writeBytes, ih, Memory.writeBytes, List.length_cons, Nat.add_assoc, Nat.add_comm 1]

/-- Every flush succeeds, and these are the answers of the reads to come. -/
def Scripted (s : State) (answers : List ReadAnswer) : Prop := flushesSucceed s ∧ s.inputs.read = answers

theorem enqTdi_scripted {tdi : Option Buf} {cur n : Nat} {s : State} {answers : List ReadAnswer}
    (h : Scripted s answers) : Scripted (enqTdi tdi cur n s) answers := by
  cases tdi <;> exact h

theorem flush_scripted {s : State} {answers : List ReadAnswer} (h : Scripted s answers) :
    ∃ t, flush s = .ok () t ∧ Scripted t answers ∧ t.mem = s.mem := by
  obtain ⟨t, hflush, ht⟩ := flush_completes h.1
  obtain ⟨-, hmem, -, -, hread⟩ := flush_state s
  rw [hflush] at hmem hread
  exact ⟨t, hflush, ⟨ht, hread.trans h.2⟩, hmem⟩

theorem captureRead_scripted {bs : List Byte} {s : State} {more : List ReadAnswer} (h : Scripted s (some bs :: more)) :
    ∃ t, captureRead bs.length s = .ok bs t ∧ Scripted t more ∧ t.mem = s.mem := by
  obtain ⟨a, t, -, ⟨-, horacle, -⟩, hmem, -, -, hflush, hscript, hread⟩ := captureRead_state bs.length s
  obtain ⟨rfl, hmore⟩ := hscript _ _ h.2
  refine ⟨t, ?_, ⟨⟨horacle.trans h.1.1, hflush.trans h.1.2⟩, hmore⟩, hmem⟩
  rw [hread]
  simp [cutAnswer]

theorem readBack_scripted {bs : List Byte} {s : State} {more : List ReadAnswer} (h : Scripted s (some bs :: more)) :
    ∃ t, readBack bs.length s = .ok bs t ∧ Scripted t more ∧ t.mem = s.mem := by
  obtain ⟨u, hflush, hu, humem⟩ := flush_scripted h
  obtain ⟨t, hread, ht, htmem⟩ := captureRead_scripted hu
  exact ⟨t, by rw [readBack_of_flush_ok hflush, hread], ht, htmem.trans humem⟩

/-- A step whose read answers `bs` stores what it makes of them. -/
theorem closeStep_scripted {bs : List Byte} {s : State} {more : List ReadAnswer} (a : Nat)
    (store : State → List Byte → List Byte) (h : Scripted s (some bs :: more)) :
    ∃ t v, closeStep (some a) bs.length store s = .ok () t ∧ Scripted t more ∧ v.mem = s.mem ∧
      t.mem = s.mem.writeBytes a (store v bs) := by
  obtain ⟨v, hread, hv, hmem⟩ := readBack_scripted h
  refine ⟨v.setMem (v.mem.writeBytes a (store v bs)), v, by simp only [closeStep, hread], hv, hmem, ?_⟩
  rw [State.setMem_mem, hmem]

section
variable (tdi : Option Buf) (b : Buf) {more : List ReadAnswer} {s : State}

theorem dataChunk_scripted {bs : List Byte} (cur : Nat) (h : Scripted s (some bs :: more)) :
    ∃ t, dataChunk tdi (some b) cur bs.length s = .ok () t ∧ Scripted t more ∧
      t.mem = s.mem.writeBytes (b.base + cur) bs := by
  have henq : Scripted (enq (byteHeader s.cfg tdi.isSome true bs.length) s) (some bs :: more) := h
  obtain ⟨t, v, hclose, ht, -, hmem⟩ := closeStep_scripted (b.base + cur) (fun _ bs => bs)
    (enqTdi_scripted (tdi := tdi) (cur := cur) (n := bs.length) henq)
  rw [enqTdi_mem] at hmem
  exact ⟨t, hclose, ht, hmem⟩

theorem dataChunks_scripted (chunks : List (List Byte)) (cur : Nat) (h : Scripted s (chunks.map some ++ more)) :
    ∃ t, dataChunks tdi (some b) (chunks.map List.length) cur s = .ok () t ∧ Scripted t more ∧
      t.mem = s.mem.writeBytes (b.base + cur) chunks.flatten := by
  induction chunks generalizing cur s with
  | nil => exact ⟨s, rfl, h, rfl⟩
  | cons bs chunks ih =>
    obtain ⟨u, hchunk, hu, humem⟩ := dataChunk_scripted tdi b cur h
    obtain ⟨t, hrest, ht, htmem⟩ := ih (cur + bs.length) hu
    refine ⟨t, by rw [List.map_cons, dataChunks, hchunk, Res.andThen, hrest], ht, ?_⟩
    rw [htmem, humem, List.flatten_cons, Memory.writeBytes_append, Nat.add_assoc]

theorem dataResidual_scripted (nbByte nbBit : Nat) {residual : Byte}
    (h : Scripted s ((if nbBit = 0 then [] else [some [residual]]) ++ more)) :
    ∃ t, dataResidual tdi (some b) nbByte nbBit s = .ok () t ∧ Scripted t more ∧
      t.mem = if nbBit = 0 then s.mem else s.mem.writeBytes (b.base + nbByte) [residualByte nbBit residual] := by
  unfold dataResidual
  by_cases h0 : nbBit = 0
  · rw [if_pos h0] at h ⊢
    exact ⟨s, rfl, h, (if_pos h0).symm⟩
  · rw [if_neg h0] at h ⊢
    have henq : Scripted (enq (bitHeader s.cfg tdi.isSome true nbBit) s) (some [residual] :: more) := h
    obtain ⟨t, v, hclose, ht, -, hmem⟩ := closeStep_scripted (b.base + nbByte) (fun _ bs => bs.map (residualByte nbBit))
      (enqTdi_scripted (tdi := tdi) (cur := nbByte) (n := 1) henq)
    rw [enqTdi_mem] at hmem
    exact ⟨t, hclose, ht, by rw [if_neg h0]; exact hmem⟩

theorem dataExit_scripted (nbByte nbBit : Nat) (last : Bool) {exit : Byte}
    (h : Scripted s ((if last then [some [exit]] else []) ++ more)) :
    ∃ t, dataExit tdi (some b) nbByte nbBit last s = .ok () t ∧
      t.mem = if last then s.mem.writeBytes (b.base + nbByte)
        [s.mem.read (b.base + nbByte) ||| exitBit nbBit exit] else s.mem := by
  cases last with
  | false => exact ⟨s, rfl, rfl⟩
  | true =>
    have henq : Scripted (enq (exitFrame s.cfg true (finalBit s.mem tdi nbByte nbBit)) s) (some [exit] :: more) := h
    obtain ⟨t, v, hclose, -, hv, hmem⟩ :=
      closeStep_scripted (b.base + nbByte) (mergeExit (some b) nbByte nbBit) henq
    have hvmem : v.mem = s.mem := hv
    rw [mergeExit, hvmem] at hmem
    exact ⟨t, hclose, hmem⟩

end

/-- What is in TDO after a shift from memory `m` whose reads answered these bytes (43_data_shifter.md R132, R134, R135). -/
structure Assigned (m m' : Memory) (b : Buf) (nbByte nbBit : Nat) (last : Bool) (bytes : List Byte)
    (residual exit : Byte) : Prop where
  full : ∀ i < nbByte, m'.read (b.base + i) = bytes.getD i 0
  part : nbBit ≠ 0 → m'.read (b.base + nbByte) = residualByte nbBit residual ||| if last then exitBit nbBit exit else 0
  merged : nbBit = 0 → last = true → m'.read (b.base + nbByte) = m.read (b.base + nbByte) ||| exitBit 0 exit

theorem Memory.read_writeBytes_single {m : Memory} (hm : m.wf) (a x : Nat) (v : Byte) :
    (m.writeBytes a [v]).read x = if x = a then v else m.read x := by
  rw [Memory.read_writeBytes hm]
  by_cases hx : x = a
  · subst hx
    simp
  · rw [if_neg hx, if_neg]
    simp only [List.length_singleton]
    omega

/-- The writes of the steps, read back. -/
theorem assigned_of_writes {m m₃ m₄ m₅ : Memory} {b : Buf} {nbByte nbBit : Nat} {last : Bool} {bytes : List Byte}
    {residual exit : Byte} (hwf : m.wf) (hlen : bytes.length = nbByte) (h₃ : m₃ = m.writeBytes b.base bytes)
    (h₄ : m₄ = if nbBit = 0 then m₃ else m₃.writeBytes (b.base + nbByte) [residualByte nbBit residual])
    (h₅ : m₅ = if last then m₄.writeBytes (b.base + nbByte) [m₄.read (b.base + nbByte) ||| exitBit nbBit exit] else m₄) :
    Assigned m m₅ b nbByte nbBit last bytes residual exit := by
  have hwf₃ : m₃.wf := h₃ ▸ Memory.wf_writeBytes hwf _ _
  have hwf₄ : m₄.wf := by
    rw [h₄]
    split
    · exact hwf₃
    · exact Memory.wf_writeBytes hwf₃ _ _
  have hread₃ : ∀ x, m₃.read x = if b.base ≤ x ∧ x < b.base + nbByte then bytes.getD (x - b.base) 0 else m.read x :=
    fun x => by rw [h₃, Memory.read_writeBytes hwf, hlen]
  have hread₄ : ∀ x, m₄.read x =
      if nbBit ≠ 0 ∧ x = b.base + nbByte then residualByte nbBit residual else m₃.read x := fun x => by
    rw [h₄]
    by_cases h0 : nbBit = 0
    · rw [if_pos h0, if_neg fun h => h.1 h0]
    · rw [if_neg h0, Memory.read_writeBytes_single hwf₃]
      simp [h0]
  have hread₅ : ∀ x, m₅.read x = if last = true ∧ x = b.base + nbByte then
      m₄.read (b.base + nbByte) ||| exitBit nbBit exit else m₄.read x := fun x => by
    rw [h₅]
    cases last with
    | false => simp
    | true => simp [Memory.read_writeBytes_single hwf₄]
  refine ⟨fun i hi => ?_, fun h0 => ?_, fun h0 hl => ?_⟩
  · rw [hread₅, if_neg (by omega), hread₄, if_neg (by omega), hread₃, if_pos (by omega), Nat.add_sub_cancel_left]
  · have hpart := (hread₄ (b.base + nbByte)).trans (if_pos ⟨h0, rfl⟩)
    rw [hread₅, hpart]
    cases last <;> simp
  · rw [hread₅, if_pos ⟨hl, rfl⟩, hread₄, if_neg fun h => h.1 h0, hread₃, if_neg (by omega), h0]

theorem dataSteps_scripted {tdi : Option Buf} {b : Buf} {nbByte nbBit : Nat} {last : Bool} {chunks : List (List Byte)}
    {residual exit : Byte} {more : List ReadAnswer} {s : State} (hwf : s.mem.wf) (hbuf : 4 ≤ s.cfg.bufSize)
    (hchunks : chunks.map List.length = chunkSizes nbByte nbByte (chunkLimit s.cfg))
    (h : Scripted s (chunks.map some ++ ((if nbBit = 0 then [] else [some [residual]]) ++
      ((if last then [some [exit]] else []) ++ more)))) :
    ∃ t, dataSteps tdi (some b) nbByte nbBit last s = .ok (.value 0) t ∧
      Assigned s.mem t.mem b nbByte nbBit last chunks.flatten residual exit := by
  have hlen : chunks.flatten.length = nbByte := by
    rw [List.length_flatten, hchunks]
    exact chunkSizes_sum (show 1 ≤ chunkLimit s.cfg by unfold chunkLimit; omega) le_rfl
  obtain ⟨t₃, e₃, h₃, m₃⟩ := dataChunks_scripted tdi b chunks 0 h
  obtain ⟨t₄, e₄, h₄, m₄⟩ := dataResidual_scripted tdi b nbByte nbBit h₃
  obtain ⟨t₅, e₅, m₅⟩ := dataExit_scripted tdi b nbByte nbBit last h₄
  rw [hchunks] at e₃
  exact ⟨t₅, by simp only [dataSteps, e₃, Res.andThen, e₄, e₅], assigned_of_writes hwf hlen m₃ m₄ m₅⟩

/-- Settles O41: each step's read takes the next scripted answer, so the steps complete, with the calls `dataCalls`, and
write what the answers say (`assigned_of_writes`). -/
theorem dataShiftStoresWhatItReads : Obligations.DataShiftStoresWhatItReads := by
  intro s tdi tdo len last chunks residual exit more hs hbuf ha hlen hp hwf hchunks hread
  obtain ⟨t, hsteps, hassigned⟩ := dataSteps_scripted (tdi := tdi) (b := tdo) hwf hbuf hchunks ⟨hs, hread⟩
  obtain ⟨hexec, ⟨es, htrace, hcalls⟩, -, hpending, hworked, hdiag⟩ :=
    dataShift_of_steps ha hlen hp (fun _ => hwf) hsteps
  obtain ⟨hcfg, horacle, hrequests, hphase, hquirk, hfault, hresults, -⟩ := hworked
  obtain ⟨henqueued, hflushes, hreads, hdrains⟩ := sizes_of_dataCalls _ _ _ _ _ _ _ hcalls
  exact ⟨_, es, hexec, htrace, hcalls, henqueued, hflushes, hreads, hdrains, hassigned.full, hassigned.part,
    hassigned.merged, congrArg (· ++ [_]) hresults, hpending, hphase, hquirk, hfault, hdiag (.inr nofun), hcfg, horacle,
    hrequests⟩

end Sys2Proof.Machine
end

section
/-! PROOFS. The block and the reference engine together: the pulses that the engine will have made once it has executed what
a flush sent, and what a read leaves of them (45_engine_frames.md R149, R150, R174). -/

namespace Sys2Proof.Machine

open Host (Outcome)

/-! ### The wire -/

/-- The engine of `t` has the pins, the registers and the waveform of that of `s`; its responses, its draws and the
transfers it holds may differ. -/
def SameWire (s t : State) : Prop :=
  ∃ resp k inbox captured,
    t.engine = { s.engine with resp := resp, draws := k, inbox := inbox, captured := captured }

theorem sameWire_of_engine_eq {s t : State} (h : t.engine = s.engine) : SameWire s t :=
  ⟨s.engine.resp, s.engine.draws, s.engine.inbox, s.engine.captured, h⟩

theorem SameWire.trans {s t u : State} (h : SameWire s t) (h' : SameWire t u) : SameWire s u := by
  obtain ⟨_, _, _, _, he⟩ := h
  obtain ⟨resp, k, inbox, captured, he'⟩ := h'
  exact ⟨resp, k, inbox, captured, by rw [he', he]⟩

theorem setInbox_sameWire (inbox : List (List Byte)) (s : State) : SameWire s (setInbox inbox s) :=
  ⟨s.engine.resp, s.engine.draws, inbox, s.engine.captured, rfl⟩

theorem finishTransfer_sameWire (s : State) : SameWire s (finishTransfer s) := by
  obtain ⟨bs, k, inbox, captured, he⟩ := finishTransfer_engine s
  exact ⟨_, k, inbox, captured, he⟩

/-- From `s` to `t` the engine made pulses with these levels, and its pins keep the last of them. -/
structure Drove (s t : State) (levels : List (Bool × Bool)) : Prop where
  wave : ∃ ps, t.engine.wave = s.engine.wave ++ ps ∧ ps.map Pulse.tms = levels.map Prod.fst ∧
    ps.map Pulse.tdi = levels.map Prod.snd
  tmsPin : t.engine.tmsPin = (levels.map Prod.fst).getLast?.getD s.engine.tmsPin
  tdiPin : t.engine.tdiPin = (levels.map Prod.snd).getLast?.getD s.engine.tdiPin

theorem Pulsed.drove {s t : State} {levels : List (Bool × Bool)} (h : Pulsed s t levels) : Drove s t levels :=
  ⟨h.wave, h.tmsPin, h.tdiPin⟩

theorem drove_of_sameWire {s t : State} (h : SameWire s t) : Drove s t [] := by
  obtain ⟨_, _, _, _, he⟩ := h
  exact ⟨⟨[], by rw [he, List.append_nil], rfl, rfl⟩, by rw [he]; rfl, by rw [he]; rfl⟩

theorem getLast?_append_getD (xs ys : List Bool) (b : Bool) :
    (xs ++ ys).getLast?.getD b = ys.getLast?.getD (xs.getLast?.getD b) := by
  rw [List.getLast?_append]
  cases ys.getLast? <;> rfl

theorem Drove.trans {s t u : State} {levels levels' : List (Bool × Bool)} (h : Drove s t levels)
    (h' : Drove t u levels') : Drove s u (levels ++ levels') := by
  obtain ⟨⟨ps, hwave, htms, htdi⟩, htmsPin, htdiPin⟩ := h
  obtain ⟨⟨ps', hwave', htms', htdi'⟩, htmsPin', htdiPin'⟩ := h'
  refine ⟨⟨ps ++ ps', by rw [hwave', hwave, List.append_assoc], ?_, ?_⟩, ?_, ?_⟩
  · rw [List.map_append, List.map_append, htms, htms']
  · rw [List.map_append, List.map_append, htdi, htdi']
  · rw [htmsPin', htmsPin, List.map_append, getLast?_append_getD]
  · rw [htdiPin', htdiPin, List.map_append, getLast?_append_getD]

theorem Drove.of_sameWire {s t u : State} {levels : List (Bool × Bool)} (h : Drove s t levels) (h' : SameWire t u) :
    Drove s u levels := by
  have hall := h.trans (drove_of_sameWire h')
  rwa [List.append_nil] at hall

theorem Drove.drives {s t : State} {levels : List (Bool × Bool)} (h : Drove s t levels) :
    drives s t (levels.map Prod.fst) (levels.map Prod.snd) := h.wave

/-! ### A transfer of frames -/

/-- The engine executes these well-formed frames one after the other, from `s` to `t`. -/
inductive Executes : List Instr → State → State → Prop
  | nil (s : State) : Executes [] s s
  | cons {i : Instr} {is : List Instr} {s t u : State} (frame : i.isRequest = false) (wf : i.wellFormed = true)
      (step : execFrame i s = .next t) (rest : Executes is t u) : Executes (i :: is) s u

theorem executes_one {i : Instr} {s t : State} (hi : i.isRequest = false) (hw : i.wellFormed = true)
    (h : execFrame i s = .next t) : Executes [i] s t := .cons hi hw h (.nil t)

/-- The bytes of a transfer of these frames. -/
def transferOf (o : OpCodes) (is : List Instr) : List Byte := is.flatMap (encode o)

theorem transferOf_append (o : OpCodes) (is is' : List Instr) :
    transferOf o (is ++ is') = transferOf o is ++ transferOf o is' := List.flatMap_append

theorem transferOf_one (o : OpCodes) (i : Instr) : transferOf o [i] = encode o i := List.flatMap_singleton ..

theorem transferOf_eq_nil {o : OpCodes} {is : List Instr} : transferOf o is = [] ↔ is = [] := by
  cases is with
  | nil => exact ⟨fun _ => rfl, fun _ => rfl⟩
  | cons i is =>
    obtain ⟨op, bs, he, -⟩ := encode_first i o
    simp [transferOf, he]

/-- The end of a transfer is the engine's next move, so it makes it anyway. -/
theorem catchUp_finishTransfer (s : State) : catchUp (finishTransfer s) = catchUp s := by
  match hi : s.engine.inbox with
  | [] => simp only [finishTransfer, hi]
  | [] :: ts => exact (catchUp_next hi (frameStep_nil execFrame ts s)).symm
  | (b :: bs) :: ts => rw [finishTransfer_of_cons hi]

/-- An engine that has received one transfer of frames executes them and ends the transfer. -/
theorem catchUp_executes {is : List Instr} {s t : State} (ho : s.cfg.ops.distinct = true) (h : Executes is s t) :
    catchUp (setInbox [transferOf s.cfg.ops is] s) = finishTransfer (setInbox [[]] t) := by
  induction h with
  | nil s =>
    rw [← catchUp_finishTransfer]
    exact catchUp_nil (finishTransfer_inbox (s := setInbox [[]] s) rfl)
  | @cons i is s t u hi hw hfirst _ ih =>
    have hcfg : t.cfg = s.cfg := (execFrame_engineOnly hfirst).1.1
    rw [hcfg] at ih
    have hdecode := decodeFrame_encode (transferOf s.cfg.ops is) ho hi hw
    have htransfer : transferOf s.cfg.ops (i :: is) = encode s.cfg.ops i ++ transferOf s.cfg.ops is := List.flatMap_cons
    have hstep := frameStep_of_decodeFrame execFrame [] (s := setInbox [transferOf s.cfg.ops (i :: is)] s) hdecode
    rw [setInbox_setInbox, execFrame_setInbox hfirst, afterFrame, ← htransfer] at hstep
    rw [catchUp_next rfl hstep, catchUp_finishTransfer, ih ho]

/-! ### The block's calls -/

/-- An engine that is idle, and whose state is known, runs. -/
theorem engineRuns_of_idle {s : State} (ho : s.oracle = .reference) (hi : s.engine.inbox = [])
    (hs : s.engine.sync = true) : engineRuns s := ⟨ho, hs, by rw [catchUp_nil hi, hi]⟩

/-- From `s` to `t` no pulse is added to those the engine will have made, and it still runs. -/
structure Holds (s t : State) : Prop where
  runs : engineRuns t
  wire : SameWire (catchUp s) (catchUp t)

theorem Holds.trans {s t u : State} (h : Holds s t) (h' : Holds t u) : Holds s u := ⟨h'.runs, h.wire.trans h'.wire⟩

/-- A change of the block and the caller alone. -/
theorem holds_of_sameEngine {s t : State} (h : sameEngine s t) (hc : t.cfg = s.cfg) (ho : t.oracle = s.oracle)
    (hr : engineRuns s) : Holds s t :=
  ⟨engineRuns_sameEngine h hc ho hr, sameWire_of_engine_eq (by rw [catchUp_sameEngine h hc]; rfl)⟩

theorem enq_holds (bs : List Byte) {s : State} (h : engineRuns s) : Holds s (enq bs s) :=
  holds_of_sameEngine ⟨rfl, rfl, rfl, rfl⟩ rfl rfl h

theorem enqTdi_holds (tdi : Option Buf) (cur n : Nat) {s : State} (h : engineRuns s) :
    Holds s (enqTdi tdi cur n s) := by
  cases tdi with
  | none => exact holds_of_sameEngine ⟨rfl, rfl, rfl, rfl⟩ rfl rfl h
  | some b => exact enq_holds _ h

theorem addResult_holds (r : RequestResult) {s : State} (h : engineRuns s) : Holds s (s.addResult r) :=
  holds_of_sameEngine ⟨rfl, rfl, rfl, rfl⟩ rfl rfl h

theorem callRead_holds (n : Nat) {s : State} (h : engineRuns s) : Holds s (callRead n s).2 := by
  obtain ⟨resp, k, he, -, -, -, hruns, hcatch⟩ := callRead_runs n h
  exact ⟨hruns, resp, k, (catchUp s).engine.inbox, (catchUp s).engine.captured, by rw [hcatch, he]⟩

theorem drainRead_holds (n : Nat) {s : State} (h : engineRuns s) : Holds s (drainRead n s) := by
  have hread := callRead_holds n h
  refine hread.trans ?_
  unfold drainRead
  dsimp only
  split <;> exact holds_of_sameEngine ⟨rfl, rfl, rfl, rfl⟩ rfl rfl hread.runs

theorem captureRead_holds {n : Nat} {s t : State} {bs : List Byte} (hr : engineRuns s)
    (h : captureRead n s = .ok bs t) : Holds s t := by
  have hread := callRead_holds n hr
  refine hread.trans ?_
  unfold captureRead at h
  dsimp only at h
  split at h
  · split at h
    · cases h
      exact holds_of_sameEngine ⟨rfl, rfl, rfl, rfl⟩ rfl rfl hread.runs
    · cases h
  · cases h

/-- A flush that succeeds: once the engine has caught up it has executed the frames that were pending. -/
theorem callFlush_executes {is : List Instr} {s t : State} (h : engineRuns s) (ho : s.cfg.ops.distinct = true)
    (hp : s.pending = transferOf s.cfg.ops is) (hex : Executes is (catchUp s) t)
    (hr : (callFlush s).1 = (s.pending.length : Int)) :
    engineRuns (callFlush s).2 ∧ SameWire t (catchUp (callFlush s).2) := by
  obtain ⟨hcatch, hsync, horacle⟩ := callFlush_runs h hr
  have hcfg : (catchUp s).cfg = s.cfg := (catchUp_engineOnly s).1.1
  rw [hp, ← hcfg, catchUp_executes (hcfg.symm ▸ ho) hex] at hcatch
  refine ⟨⟨horacle, hsync, ?_⟩, ?_⟩
  · rw [hcatch]
    exact finishTransfer_inbox (s := setInbox [[]] t) rfl
  · rw [hcatch]
    exact ((setInbox_sameWire [[]] t).trans (finishTransfer_sameWire _)).trans (sameWire_of_engine_eq rfl)

/-- From `s` to `t` the pulses that the engine will have made grow by pulses with these levels, and it still runs. -/
structure Plays (s t : State) (levels : List (Bool × Bool)) : Prop where
  runs : engineRuns t
  drove : Drove (catchUp s) (catchUp t) levels

theorem Holds.plays {s t : State} (h : Holds s t) : Plays s t [] := ⟨h.runs, drove_of_sameWire h.wire⟩

theorem plays_refl {s : State} (h : engineRuns s) : Plays s s [] := ⟨h, drove_of_sameWire (sameWire_of_engine_eq rfl)⟩

theorem Plays.trans {s t u : State} {levels levels' : List (Bool × Bool)} (h : Plays s t levels)
    (h' : Plays t u levels') : Plays s u (levels ++ levels') := ⟨h'.runs, h.drove.trans h'.drove⟩

theorem Plays.then_holds {s t u : State} {levels : List (Bool × Bool)} (h : Plays s t levels) (h' : Holds t u) :
    Plays s u levels := ⟨h'.runs, h.drove.of_sameWire h'.wire⟩

theorem Holds.then_plays {s t u : State} {levels : List (Bool × Bool)} (h : Holds s t) (h' : Plays t u levels) :
    Plays s u levels := h.plays.trans h'

theorem flush_plays {is : List Instr} {levels : List (Bool × Bool)} {s t u : State} (hr : engineRuns s)
    (ho : s.cfg.ops.distinct = true) (hp : s.pending = transferOf s.cfg.ops is) (hex : Executes is (catchUp s) u)
    (hd : Drove (catchUp s) u levels) (h : flush s = .ok () t) : Plays s t levels := by
  rcases flush_cases s with ⟨hnil, heq⟩ | ⟨-, hret, heq⟩ | ⟨-, -, heq⟩ <;> rw [heq] at h <;> cases h
  · rw [transferOf_eq_nil.mp (hp.symm.trans hnil)] at hex
    cases hex
    exact ⟨hr, hd⟩
  · obtain ⟨hruns, hwire⟩ := callFlush_executes hr ho hp hex hret
    exact ⟨hruns, hd.of_sameWire hwire⟩

/-- From an idle engine, what the engine will have made is what a claim says it drives. -/
theorem Plays.drives {s t : State} {levels : List (Bool × Bool)} (h : Plays s t levels) (hi : s.engine.inbox = []) :
    drives s (catchUp t) (levels.map Prod.fst) (levels.map Prod.snd) := by
  have hdrives := h.drove.drives
  rwa [catchUp_nil hi] at hdrives

end Sys2Proof.Machine
end

section
/-! PROOFS. From end to end: the pulses of a TMS_SHIFT and of a CLOCK_TICK on the reference engine (45_engine_frames.md R152,
R162, R163, R174). -/

namespace Sys2Proof.Machine

/-! ### Frames of TMS bits -/

/-- The frame of `f.1` TMS bits with data byte `f.2`. -/
def tmsInstr (f : Nat × Byte) : Instr := .opTmsW f.1 f.2

/-- The levels that these frames drive. -/
def tmsLevelsOf (fs : List (Nat × Byte)) : List (Bool × Bool) := fs.flatMap fun f => tmsLevels f.1 f.2

/-- The counts of these frames are counts that the engine decodes. -/
def TmsCounts (fs : List (Nat × Byte)) : Prop := ∀ f ∈ fs, 1 ≤ f.1 ∧ f.1 ≤ 6

theorem TmsCounts.executes {fs : List (Nat × Byte)} (h : TmsCounts fs) (s : State) :
    ∃ t, Executes (fs.map tmsInstr) s t ∧ Drove s t (tmsLevelsOf fs) := by
  induction fs generalizing s with
  | nil => exact ⟨s, .nil s, drove_of_sameWire (sameWire_of_engine_eq rfl)⟩
  | cons f fs ih =>
    obtain ⟨t, hothers, hdrove⟩ := ih (fun g hg => h g (List.mem_cons_of_mem f hg)) (clock (tmsLevels f.1 f.2) s).2
    exact ⟨t, .cons rfl (decide_eq_true (h f List.mem_cons_self)) rfl hothers,
      (clock_pulsed (tmsLevels f.1 f.2) s).drove.trans hdrove⟩

/-- The frames of a sequence (41_tms_shifter.md R108). -/
def tmsFrameList (cfg : Config) (bits : Nat → Bool) (len : Nat) : List (Nat × Byte) :=
  (List.range (ceilDiv len tmsChunk)).map fun i =>
    (tmsBitsIn len i, tmsData cfg.tmsTdiLevel bits (tmsChunk * i) (tmsBitsIn len i))

section
variable (cfg : Config) (bits : Nat → Bool) (len : Nat)

theorem tmsFrames_eq : tmsFrames cfg bits len = (tmsFrameList cfg bits len).map fun f => encode cfg.ops (tmsInstr f) := by
  rw [tmsFrames, tmsFrameList, List.map_map]
  exact List.map_congr_left fun i _ => tmsFrame_eq_encode cfg bits len i

theorem tmsFrameList_counts : TmsCounts (tmsFrameList cfg bits len) := by
  intro f hf
  obtain ⟨i, hi, rfl⟩ := List.mem_map.mp hf
  exact tmsBitsIn_bounds (List.mem_range.mp hi)

theorem tmsLevels_tmsData (tdiLevel : Bool) (off : Nat) {n : Nat} (hn : n ≤ 6) :
    tmsLevels n (tmsData tdiLevel bits off n) = (List.range n).map fun j => (bits (off + j), tdiLevel) := by
  refine List.map_congr_left fun j hj => ?_
  have hj' : j < n := List.mem_range.mp hj
  rw [getLsbD_tmsData _ _ _ _ (by omega), getLsbD_tmsData _ _ _ _ (by omega), decide_eq_true hj',
    decide_eq_false (show ¬ j = 7 by omega), decide_eq_false (show ¬ 7 < n by omega)]
  simp

theorem tmsLevelsOf_tmsFrameList :
    tmsLevelsOf (tmsFrameList cfg bits len) = (List.range len).map fun k => (bits k, cfg.tmsTdiLevel) := by
  rw [← flatMap_tmsBits_all, tmsLevelsOf, tmsFrameList, List.flatMap_map]
  exact List.flatMap_congr fun i hi =>
    tmsLevels_tmsData bits _ _ (tmsBitsIn_bounds (List.mem_range.mp hi)).2

end

/-! ### TMS_SHIFT's body -/

theorem flushDrain_plays {fs : List (Nat × Byte)} {n : Nat} {s t : State} (hr : engineRuns s)
    (ho : s.cfg.ops.distinct = true) (hfs : TmsCounts fs) (hp : s.pending = transferOf s.cfg.ops (fs.map tmsInstr))
    (h : flushDrain n s = .ok () t) : Plays s t (tmsLevelsOf fs) := by
  obtain ⟨u, hex, hdrove⟩ := hfs.executes (catchUp s)
  obtain ⟨_, v, hflush, -⟩ := andThen_eq_ok h
  have hplays := flush_plays hr ho hp hex hdrove hflush
  rw [flushDrain_of_flush_ok hflush] at h
  cases h
  split
  · exact hplays.then_holds (drainRead_holds n hplays.runs)
  · exact hplays

/-- Wherever the flushes come between the frames, the engine will have made the pulses of those that were queued and of
those that follow. -/
theorem sendTmsFrames_plays {cfg : Config} {perFlush n k : Nat} {queued fs : List (Nat × Byte)} {s t : State}
    (hr : engineRuns s) (hc : s.cfg = cfg) (ho : cfg.ops.distinct = true) (hqueued : TmsCounts queued)
    (hfs : TmsCounts fs) (hp : s.pending = transferOf cfg.ops (queued.map tmsInstr))
    (h : ((sendTmsFrames perFlush n (fs.map fun f => encode cfg.ops (tmsInstr f)) k s).andThen
      fun _ s => flushDrain n s) = .ok () t) : Plays s t (tmsLevelsOf (queued ++ fs)) := by
  induction fs generalizing queued k s with
  | nil =>
    rw [List.append_nil]
    subst hc
    exact flushDrain_plays hr ho hqueued hp h
  | cons f fs ih =>
    have henq := enq_holds (encode cfg.ops (tmsInstr f)) hr
    have hcounts : TmsCounts (queued ++ [f]) := fun g hg => by
      rcases List.mem_append.mp hg with hg | hg
      · exact hqueued g hg
      · exact hfs g (List.mem_singleton.mp hg ▸ List.mem_cons_self)
    have hcounts' : TmsCounts fs := fun g hg => hfs g (List.mem_cons_of_mem f hg)
    have hpending : (enq (encode cfg.ops (tmsInstr f)) s).pending =
        transferOf cfg.ops ((queued ++ [f]).map tmsInstr) := by
      rw [List.map_append, List.map_singleton, transferOf_append, transferOf_one, ← hp]
      rfl
    refine henq.then_plays ?_
    rw [List.append_cons]
    rw [List.map_cons, sendTmsFrames] at h
    by_cases hk : k + 1 = perFlush
    · rw [if_pos hk, Res.andThen_assoc] at h
      obtain ⟨_, u, hflush, hrest⟩ := andThen_eq_ok h
      obtain ⟨hnil, -⟩ := flushDrain_ok hflush
      have hworked := flushDrain_worked n (enq (encode cfg.ops (tmsInstr f)) s)
      rw [hflush] at hworked
      obtain ⟨hcfg, -⟩ := hworked
      subst hc
      have hfirst := flushDrain_plays henq.runs ho hcounts hpending hflush
      have hothers := ih (queued := []) hfirst.runs hcfg nofun hcounts' hnil hrest
      have hall := hfirst.trans hothers
      rwa [tmsLevelsOf, tmsLevelsOf, ← List.flatMap_append] at hall
    · rw [if_neg hk] at h
      exact ih henq.runs hc hcounts hcounts' hpending h

theorem tmsBody_plays {bits : Nat → Bool} {len : Nat} {s t : State} {v : OkValue} (hr : engineRuns s)
    (ho : s.cfg.ops.distinct = true) (hp : s.pending = []) (h : tmsBody bits len s = .ok v t) :
    Plays s t ((List.range len).map fun k => (bits k, s.cfg.tmsTdiLevel)) := by
  by_cases h0 : len = 0
  · subst h0
    rw [tmsBody_zero] at h
    cases h
    exact plays_refl hr
  · rw [tmsBody, if_neg h0, tmsFrames_eq] at h
    obtain ⟨_, u, hsent, hok⟩ := andThen_eq_ok h
    cases hok
    rw [← tmsLevelsOf_tmsFrameList]
    exact sendTmsFrames_plays (queued := []) hr rfl ho nofun (tmsFrameList_counts s.cfg bits len) hp hsent

theorem map_range_const (b : Bool) (n : Nat) : ((List.range n).map fun _ => b) = List.replicate n b := by
  rw [List.map_const', List.length_range]

/-- The levels of bits that are listed by their index, with TDI at one level. -/
theorem map_range_levels (f : Nat → Bool) (b : Bool) (n : Nat) :
    ((List.range n).map fun k => (f k, b)).map Prod.fst = (List.range n).map f ∧
    ((List.range n).map fun k => (f k, b)).map Prod.snd = List.replicate n b := by
  rw [List.map_map, List.map_map]
  exact ⟨rfl, map_range_const b n⟩

/-- Settles O58: whatever the flushes, the engine will have made the pulses of all the frames (`tmsBody_plays`), whose levels
are the sequence. -/
theorem tmsWaveformIsTheInput : Obligations.TmsWaveformIsTheInput := by
  intro s t tms len v horacle hinbox hsync ho hp h hv
  obtain ⟨u, hbody, rfl⟩ := tmsShift_success h hv
  have hplays := tmsBody_plays (engineRuns_of_idle horacle hinbox hsync) ho hp hbody
  have hall := hplays.then_holds (addResult_holds (.ok v) hplays.runs)
  have hdrives := hall.drives hinbox
  rw [(map_range_levels _ _ _).1, (map_range_levels _ _ _).2] at hdrives
  exact ⟨hdrives, hall.runs.2.2⟩

/-! ### The fast path of CLOCK_TICK -/

theorem Drove.held {s t : State} {n : Nat} (h : Drove s t (heldLevels s n)) :
    t.engine.tmsPin = s.engine.tmsPin ∧ t.engine.tdiPin = s.engine.tdiPin := by
  obtain ⟨-, htms, htdi⟩ := h
  rw [heldLevels_tms, List.getLast?_replicate] at htms
  rw [heldLevels_tdi, List.getLast?_replicate] at htdi
  split at htms <;> exact ⟨htms, by split at htdi <;> exact htdi⟩

/-- One clock-only frame, which makes `n` pulses. -/
theorem clockFrame_plays {i : Instr} {units n : Nat} {s t : State} (hr : engineRuns s) (ho : s.cfg.ops.distinct = true)
    (hp : s.pending = []) (hi : i.isRequest = false) (hw : units ≠ 0 → i.wellFormed = true) (hn : units = 0 → n = 0)
    (hex : ∀ s, execFrame i s = .next (clock (heldLevels s n) s).2)
    (h : clockFrame units (encode s.cfg.ops i) s = .ok () t) :
    Plays s t (heldLevels (catchUp s) n) ∧ t.pending = [] ∧ t.cfg = s.cfg := by
  by_cases h0 : units = 0
  · rw [clockFrame, if_pos h0] at h
    cases h
    rw [hn h0]
    exact ⟨plays_refl hr, hp, rfl⟩
  · rw [clockFrame, if_neg h0] at h
    have henq := enq_holds (encode s.cfg.ops i) hr
    have hcatch : catchUp (enq (encode s.cfg.ops i) s) = onto (enq (encode s.cfg.ops i) s) (catchUp s) :=
      catchUp_sameEngine ⟨rfl, rfl, rfl, rfl⟩ rfl
    have hpending : (enq (encode s.cfg.ops i) s).pending = transferOf s.cfg.ops [i] := by
      simp [enq, hp, transferOf_one]
    have hplays := flush_plays henq.runs ho hpending (executes_one hi (hw h0) (hex _)) (clock_pulsed _ _).drove h
    obtain ⟨hnil, -, hcfg⟩ := flush_ok h
    rw [hcatch] at hplays
    exact ⟨henq.then_plays hplays, hnil, hcfg⟩

theorem clockFast_plays {count : Nat} {s t : State} {v : OkValue} (hr : engineRuns s) (ho : s.cfg.ops.distinct = true)
    (hp : s.pending = []) (hcount : count / 8 ≤ 65536) (h : clockFast count s = .ok v t) :
    Plays s t (heldLevels (catchUp s) count) := by
  obtain ⟨_, t', hframes, hok⟩ := andThen_eq_ok h
  cases hok
  obtain ⟨_, u, hbytes, hbits⟩ := andThen_eq_ok hframes
  obtain ⟨hfirst, hpu, hcu⟩ := clockFrame_plays (i := .opClkBytes (count / 8)) (n := 8 * (count / 8)) hr ho hp rfl
    (fun h0 => decide_eq_true (by omega)) (by omega) (fun _ => rfl) hbytes
  obtain ⟨hsecond, -, -⟩ := clockFrame_plays (i := .opClkBits (count % 8)) (n := count % 8) hfirst.runs (hcu.symm ▸ ho) hpu
    rfl (fun h0 => decide_eq_true (by omega)) id (fun _ => rfl) hbits
  obtain ⟨htms, htdi⟩ := hfirst.drove.held
  have hall := hfirst.trans hsecond
  rw [heldLevels, heldLevels, htms, htdi, List.replicate_append_replicate, Nat.div_add_mod] at hall
  exact hall

/-- An admitted CLOCK_TICK of the fast path fits in its count field (42_clock_ticker.md R120). -/
theorem groups_le_of_clockRefusal {count : Nat} {s : State} (hcap : s.cfg.clkOnlyCapable = true)
    (h : clockRefusal count s = none) : count / 8 ≤ 65536 := by
  by_contra hgt
  have hlong : maxClkGroups < count / 8 := Nat.not_le.mp hgt
  simp only [clockRefusal, hcap, hlong, decide_true, Bool.true_and, if_true] at h
  split_ifs at h

/-- Settles O59: the fast path makes the pulses of its frames, the second of which finds the levels that the first one
held; the fallback path is TMS_SHIFT's body on a constant sequence. -/
theorem clockTickMakesCountPulses : Obligations.ClockTickMakesCountPulses := by
  intro s t tmsLevel tdiLevel count v horacle hinbox hsync ho hp h hv
  have hr := engineRuns_of_idle horacle hinbox hsync
  obtain ⟨u, hb, rfl⟩ := exec_success (i := .clockTick tmsLevel tdiLevel count) rfl nofun h hv
  generalize hres : Res.ok v u = r at hb
  cases hb with
  | clockFast hadm hcap =>
    have hplays := clockFast_plays hr ho hp (groups_le_of_clockRefusal hcap hadm) hres.symm
    have hdrives := (hplays.then_holds (addResult_holds (.ok v) hplays.runs)).drives hinbox
    rw [heldLevels_tms, heldLevels_tdi, catchUp_nil hinbox] at hdrives
    exact ⟨fun _ => hdrives, fun hnot => absurd hnot (by simp [hcap])⟩
  | clockFallback hadm hcap =>
    have hplays := tmsBody_plays hr ho hp hres.symm
    have hdrives := (hplays.then_holds (addResult_holds (.ok v) hplays.runs)).drives hinbox
    rw [(map_range_levels _ _ _).1, (map_range_levels _ _ _).2, map_range_const] at hdrives
    exact ⟨fun hyes => absurd hyes (by simp [hcap]), fun _ => hdrives⟩

end Sys2Proof.Machine
end

section
/-! PROOFS. From end to end: the pulses of a DATA_SHIFT that writes or reads (45_engine_frames.md R154 to R160, R171, R174). -/

namespace Sys2Proof.Machine

/-! ### The frames of a DATA_SHIFT -/

/-- The TDI level of pulse `k`: bit `k` of the buffer, or, without TDI, the level held. -/
def shiftBit (m : Memory) (tdi : Option Buf) (held : Bool) (k : Nat) : Bool :=
  match tdi with
  | some b => bufBit m b k
  | none => held

/-- The levels of `n` pulses from pulse `k` on, with TMS held at `tms`. -/
def shiftLevels (tms : Bool) (f : Nat → Bool) (k n : Nat) : List (Bool × Bool) :=
  (List.range n).map fun j => (tms, f (k + j))

section
variable (tms : Bool) (f : Nat → Bool) (k n : Nat)

theorem shiftLevels_tms : (shiftLevels tms f k n).map Prod.fst = List.replicate n tms := by
  rw [shiftLevels, List.map_map]
  exact map_range_const tms n

theorem shiftLevels_tdi : (shiftLevels tms f k n).map Prod.snd = (List.range n).map fun j => f (k + j) := by
  rw [shiftLevels, List.map_map]
  rfl

theorem shiftLevels_append : shiftLevels tms f 0 k ++ shiftLevels tms f k n = shiftLevels tms f 0 (k + n) := by
  simp [shiftLevels, List.range_add]

end

/-- The bytes are a frame that drives these levels on an engine whose pins are at `tms` and `tdi`. -/
def FrameDrives (o : OpCodes) (bytes : List Byte) (tms tdi : Bool) (levels : List (Bool × Bool)) : Prop :=
  ∃ i, i.isRequest = false ∧ i.wellFormed = true ∧ bytes = encode o i ∧
    ∀ s, s.engine.tmsPin = tms → s.engine.tdiPin = tdi → ∃ t, execFrame i s = .next t ∧ Drove s t levels

theorem dataLevels_eq (m : Memory) (b : Buf) {s : State} {bits : List Bool} {k n : Nat}
    (h : bits = (List.range n).map fun j => bufBit m b (k + j)) (held : Bool) :
    dataLevels s bits = shiftLevels s.engine.tmsPin (shiftBit m (some b) held) k n := by
  rw [dataLevels, h, List.map_map]
  rfl

theorem heldLevels_eq (m : Memory) (s : State) (k n : Nat) :
    heldLevels s n = shiftLevels s.engine.tmsPin (shiftBit m none s.engine.tdiPin) k n := by
  simp [heldLevels, shiftLevels, shiftBit, List.map_const']

/-- The bits of TDI bytes are the buffer's. -/
theorem allBits_readBytes (m : Memory) (b : Buf) (cur c : Nat) :
    allBits (m.readBytes (b.base + cur) c) = (List.range (8 * c)).map fun j => bufBit m b (8 * cur + j) := by
  rw [allBits, Memory.length_readBytes]
  refine List.map_congr_left fun j hj => ?_
  have hj' : j / 8 < c := by
    rw [List.mem_range] at hj
    omega
  rw [bitAt, bufBit, Memory.readBytes, List.getD_eq_getElem _ _ (by simpa using hj'), List.getElem_map,
    List.getElem_range, show (8 * cur + j) / 8 = cur + j / 8 by omega, show (8 * cur + j) % 8 = j % 8 by omega,
    Nat.add_assoc]

theorem lowBits_read (m : Memory) (b : Buf) (nbByte : Nat) {n : Nat} (hn : n ≤ 8) :
    lowBits n (m.read (b.base + nbByte)) = (List.range n).map fun j => bufBit m b (8 * nbByte + j) := by
  refine List.map_congr_left fun j hj => ?_
  rw [bufBit_byte _ _ _ (lt_of_lt_of_le (List.mem_range.mp hj) hn)]

section
variable (cfg : Config) (m : Memory) {tdi : Option Buf} {rd : Bool} (hwr : tdi ≠ none ∨ rd = true) {tms pin held : Bool}
  (hpin : tdi = none → pin = held)
include hwr hpin

/-- A chunk's frame (43_data_shifter.md R132). -/
theorem byteFrame_drives (cur : Nat) {c : Nat} (h1 : 1 ≤ c) (h2 : c ≤ 65536) :
    FrameDrives cfg.ops (byteHeader cfg tdi.isSome rd c :: tdiBytes m tdi cur c).flatten tms pin
      (shiftLevels tms (shiftBit m tdi held) (8 * cur) (8 * c)) := by
  have hcount : byteCount c = true := decide_eq_true ⟨h1, h2⟩
  cases tdi with
  | none =>
    obtain rfl : rd = true := hwr.resolve_left (absurd rfl)
    obtain rfl := hpin rfl
    refine ⟨.opByteR cfg.rdNeg c, rfl, hcount, (List.append_nil _).trans (byteHeader_read cfg c), fun s htms htdi => ?_⟩
    refine ⟨_, rfl, ?_⟩
    rw [← htms, ← htdi, ← heldLevels_eq]
    exact (clockCaptureBytes_pulsed _ _ s).drove
  | some b =>
    have hlen : (m.readBytes (b.base + cur) c).length = c := Memory.length_readBytes _ _ _
    have hbytes : (byteHeader cfg true rd c :: tdiBytes m (some b) cur c).flatten =
        byteHeader cfg true rd (m.readBytes (b.base + cur) c).length ++ m.readBytes (b.base + cur) c := by
      rw [hlen]
      simp [tdiBytes]
    have hlevels := fun (s : State) => dataLevels_eq (s := s) m b (allBits_readBytes m b cur c) held
    cases rd with
    | false =>
      refine ⟨.opByteW (m.readBytes (b.base + cur) c), rfl, by rw [Instr.wellFormed, hlen, hcount],
        hbytes.trans (byteHeader_write cfg _), fun s htms _ => ⟨_, rfl, ?_⟩⟩
      rw [← htms, ← hlevels s]
      exact (clock_pulsed _ s).drove
    | true =>
      refine ⟨.opByteWr cfg.rdNeg (m.readBytes (b.base + cur) c), rfl, by rw [Instr.wellFormed, hlen, hcount],
        hbytes.trans (byteHeader_append_eq_encode cfg _), fun s htms _ => ⟨_, rfl, ?_⟩⟩
      rw [← htms, ← hlevels s]
      exact (clockCaptureBytes_pulsed _ _ s).drove

/-- The residual frame (43_data_shifter.md R134). -/
theorem bitFrame_drives (nbByte : Nat) {nbBit : Nat} (h1 : 1 ≤ nbBit) (h2 : nbBit ≤ 8) :
    FrameDrives cfg.ops (bitHeader cfg tdi.isSome rd nbBit :: tdiBytes m tdi nbByte 1).flatten tms pin
      (shiftLevels tms (shiftBit m tdi held) (8 * nbByte) nbBit) := by
  have hcount : bitCount nbBit = true := decide_eq_true ⟨h1, h2⟩
  cases tdi with
  | none =>
    obtain rfl : rd = true := hwr.resolve_left (absurd rfl)
    obtain rfl := hpin rfl
    refine ⟨.opBitR cfg.rdNeg nbBit, rfl, hcount, (List.append_nil _).trans (bitHeader_read cfg nbBit),
      fun s htms htdi => ⟨_, rfl, ?_⟩⟩
    rw [← htms, ← htdi, ← heldLevels_eq]
    exact (clockCaptureBits_pulsed _ _ s).drove
  | some b =>
    have hbytes : (bitHeader cfg true rd nbBit :: tdiBytes m (some b) nbByte 1).flatten =
        bitHeader cfg true rd nbBit ++ [m.read (b.base + nbByte)] := rfl
    have hlevels := fun (s : State) => dataLevels_eq (s := s) m b (lowBits_read m b nbByte h2) held
    cases rd with
    | false =>
      refine ⟨.opBitW nbBit (m.read (b.base + nbByte)), rfl, hcount, hbytes.trans (bitHeader_write cfg _ _),
        fun s htms _ => ⟨_, rfl, ?_⟩⟩
      rw [← htms, ← hlevels s]
      exact (clock_pulsed _ s).drove
    | true =>
      refine ⟨.opBitWr cfg.rdNeg nbBit (m.read (b.base + nbByte)), rfl, hcount,
        hbytes.trans (bitHeader_append_eq_encode cfg _ _), fun s htms _ => ⟨_, rfl, ?_⟩⟩
      rw [← htms, ← hlevels s]
      exact (clockCaptureBits_pulsed _ _ s).drove

end

/-- The exit frame makes one pulse, with TMS 1 and TDI at the final bit (43_data_shifter.md R135). -/
theorem exitFrame_drives (cfg : Config) (rd fb tms pin : Bool) :
    FrameDrives cfg.ops (exitFrame cfg rd fb) tms pin [(true, fb)] := by
  have hlevels : tmsLevels 1 (0x01 ||| level7 fb) = [(true, fb)] := by cases fb <;> rfl
  cases rd with
  | false =>
    refine ⟨.opTmsW 1 (0x01 ||| level7 fb), rfl, rfl, exitFrame_write cfg fb, fun s _ _ => ⟨_, rfl, ?_⟩⟩
    rw [← hlevels]
    exact (clock_pulsed _ s).drove
  | true =>
    refine ⟨.opTmsWr cfg.rdNeg 1 (0x01 ||| level7 fb), rfl, rfl, exitFrame_eq_encode cfg fb, fun s _ _ => ⟨_, rfl, ?_⟩⟩
    rw [← hlevels]
    exact (clockCaptureBits_pulsed _ _ s).drove

/-! ### One step -/

theorem SameWire.pins {s t : State} (h : SameWire s t) :
    t.engine.tmsPin = s.engine.tmsPin ∧ t.engine.tdiPin = s.engine.tdiPin := by
  obtain ⟨_, _, _, _, he⟩ := h
  rw [he]
  exact ⟨rfl, rfl⟩

/-- A step whose frame is pending, in state `u`, where state `s` is before it was enqueued. -/
theorem closeStep_plays {tdo : Option Nat} {n : Nat} {store : State → List Byte → List Byte} {bytes : List Byte}
    {levels : List (Bool × Bool)} {s u t : State} (hu : Holds s u) (hc : u.cfg = s.cfg)
    (ho : s.cfg.ops.distinct = true) (hp : u.pending = bytes)
    (hf : FrameDrives s.cfg.ops bytes (catchUp s).engine.tmsPin (catchUp s).engine.tdiPin levels)
    (h : closeStep tdo n store u = .ok () t) : Plays s t levels := by
  obtain ⟨i, hi, hw, hbytes, hexec⟩ := hf
  obtain ⟨htms, htdi⟩ := hu.wire.pins
  obtain ⟨w, hstep, hdrove⟩ := hexec (catchUp u) htms htdi
  have hpending : u.pending = transferOf u.cfg.ops [i] := by rw [hp, hbytes, hc, transferOf_one]
  have hflush : ∀ v, flush u = .ok () v → Plays s v levels := fun v hv =>
    hu.then_plays (flush_plays hu.runs (hc ▸ ho) hpending (executes_one hi hw hstep) hdrove hv)
  cases tdo with
  | none =>
    have hdone : writeDone n u = .ok () t := h
    cases hq : u.quirk with
    | false =>
      rw [writeDone_of_not_quirk hq] at hdone
      exact hflush t hdone
    | true =>
      rw [writeDone_of_quirk hq] at hdone
      obtain ⟨_, v, hv, hdrain⟩ := andThen_eq_ok hdone
      cases hdrain
      exact (hflush v hv).then_holds (drainRead_holds n (hflush v hv).runs)
  | some a =>
    simp only [closeStep] at h
    cases hread : readBack n u with
    | err e v =>
      rw [hread] at h
      cases h
    | ok bs v =>
      rw [hread] at h
      cases h
      obtain ⟨_, v', hv', hcapture⟩ := andThen_eq_ok hread
      have hread' := (hflush v' hv').then_holds (captureRead_holds (hflush v' hv').runs hcapture)
      exact hread'.then_holds (holds_of_sameEngine ⟨rfl, rfl, rfl, rfl⟩ rfl rfl hread'.runs)

/-- State `s` is between two steps of a DATA_SHIFT that began in `s₀`, and the engine will have made its first `k` pulses. -/
structure Shifted (tdi tdo : Option Buf) (total k : Nat) (s₀ s : State) : Prop where
  midway : Midway tdi tdo total s₀ s
  plays : Plays s₀ s (shiftLevels (catchUp s₀).engine.tmsPin (shiftBit s₀.mem tdi (catchUp s₀).engine.tdiPin) 0 k)

theorem Shifted.tmsPin {tdi tdo : Option Buf} {total k : Nat} {s₀ s : State} (h : Shifted tdi tdo total k s₀ s) :
    (catchUp s).engine.tmsPin = (catchUp s₀).engine.tmsPin := by
  rw [h.plays.drove.tmsPin, shiftLevels_tms, List.getLast?_replicate]
  split <;> rfl

/-- Without TDI the pin stays. -/
theorem Shifted.tdiPin {tdi tdo : Option Buf} {total k : Nat} {s₀ s : State} (h : Shifted tdi tdo total k s₀ s)
    (hn : tdi = none) : (catchUp s).engine.tdiPin = (catchUp s₀).engine.tdiPin := by
  subst hn
  have hconst := map_range_const (catchUp s₀).engine.tdiPin k
  rw [h.plays.drove.tdiPin, shiftLevels_tdi]
  simp only [shiftBit]
  rw [hconst, List.getLast?_replicate]
  split <;> rfl

section
variable {tdi tdo : Option Buf} {total : Nat} {s₀ s t : State} (ho : s₀.cfg.ops.distinct = true)
  (ha : BufsApart tdi tdo total)
include ho

/-- A step whose frame drives the next `n` pulses. -/
theorem Shifted.next {k n m cur c : Nat} {header : List Byte} {store : State → List Byte → List Byte} {i : Nat}
    (h : Shifted tdi tdo total k s₀ s) (hmid : Midway tdi tdo total s₀ t)
    (hf : FrameDrives s₀.cfg.ops (header :: tdiBytes s₀.mem tdi cur c).flatten (catchUp s₀).engine.tmsPin
      (catchUp s).engine.tdiPin
      (shiftLevels (catchUp s₀).engine.tmsPin (shiftBit s₀.mem tdi (catchUp s₀).engine.tdiPin) k n))
    (hc : cur + c ≤ total) (hok : closeStep (tdoAt tdo i) m store (enqTdi tdi cur c (enq header s)) = .ok () t) :
    Shifted tdi tdo total (k + n) s₀ t := by
  have henq := enq_holds header h.plays.runs
  obtain ⟨-, hpending, -⟩ := enqTdi_called tdi cur c header h.midway.pending
  obtain ⟨hcfg, -⟩ := enqTdi_worked tdi cur c (enq header s)
  rw [← h.tmsPin, ← h.midway.cfg, ← tdiBytes_congr h.midway.tdi hc] at hf
  have hstep := closeStep_plays (henq.trans (enqTdi_holds tdi cur c henq.runs)) hcfg (h.midway.cfg ▸ ho) hpending hf hok
  have hall := h.plays.trans hstep
  rw [h.tmsPin, shiftLevels_append] at hall
  exact ⟨hmid, hall⟩

include ha

theorem dataChunks_shifted {sizes : List Nat} {cur : Nat} (h : Shifted tdi tdo total (8 * cur) s₀ s)
    (hwr : sizes ≠ [] → tdi ≠ none ∨ tdo.isSome = true) (hsizes : ∀ c ∈ sizes, 1 ≤ c ∧ c ≤ 65536)
    (hsum : cur + sizes.sum ≤ total) (hok : dataChunks tdi tdo sizes cur s = .ok () t) :
    Shifted tdi tdo total (8 * (cur + sizes.sum)) s₀ t := by
  induction sizes generalizing cur s with
  | nil =>
    cases hok
    exact h
  | cons c sizes ih =>
    rw [List.sum_cons] at hsum ⊢
    obtain ⟨h1, h2⟩ := hsizes c List.mem_cons_self
    obtain ⟨_, u, hchunk, hrest⟩ := andThen_eq_ok hok
    have hf := byteFrame_drives s₀.cfg s₀.mem (tms := (catchUp s₀).engine.tmsPin) (hwr (List.cons_ne_nil _ _))
      h.tdiPin cur h1 h2
    have hmid := dataChunk_midway h.midway ha (by omega) hchunk
    rw [dataChunk, h.midway.cfg] at hchunk
    have hu := h.next ho hmid hf (by omega) hchunk
    rw [← Nat.mul_add] at hu
    have hwr' : sizes ≠ [] → tdi ≠ none ∨ tdo.isSome = true := fun _ => hwr (List.cons_ne_nil _ _)
    have ht := ih hu hwr' (fun k hk => hsizes k (List.mem_cons_of_mem c hk)) (by omega) hrest
    rwa [Nat.add_assoc] at ht

theorem dataResidual_shifted {nbByte nbBit : Nat} (h : Shifted tdi tdo total (8 * nbByte) s₀ s)
    (hwr : nbBit ≠ 0 → tdi ≠ none ∨ tdo.isSome = true) (hbit : nbBit < 8) (hn : nbBit ≠ 0 → nbByte < total)
    (hok : dataResidual tdi tdo nbByte nbBit s = .ok () t) : Shifted tdi tdo total (8 * nbByte + nbBit) s₀ t := by
  have hmid := dataResidual_midway h.midway ha hn hok
  unfold dataResidual at hok
  split at hok
  · next h0 =>
    cases hok
    rw [h0]
    exact h
  · next h0 =>
    have hf := bitFrame_drives s₀.cfg s₀.mem (tms := (catchUp s₀).engine.tmsPin) (hwr h0) h.tdiPin nbByte
      (Nat.one_le_iff_ne_zero.mpr h0) hbit.le
    rw [h.midway.cfg] at hok
    exact h.next ho hmid hf (hn h0) hok

omit ha

theorem dataExit_plays {nbByte nbBit : Nat} {last : Bool} (h : Shifted tdi tdo total (8 * nbByte + nbBit) s₀ s)
    (hbit : nbBit < 8) (hn : last = true → nbByte < total) (hok : dataExit tdi tdo nbByte nbBit last s = .ok () t) :
    Plays s₀ t (shiftLevels (catchUp s₀).engine.tmsPin (shiftBit s₀.mem tdi (catchUp s₀).engine.tdiPin) 0
        (8 * nbByte + nbBit) ++
      if last then [(true, shiftBit s₀.mem tdi false (8 * nbByte + nbBit))] else []) := by
  unfold dataExit at hok
  cases last with
  | false =>
    cases hok
    rw [if_neg Bool.false_ne_true, List.append_nil]
    exact h.plays
  | true =>
    have hfinal : finalBit s.mem tdi nbByte nbBit = shiftBit s₀.mem tdi false (8 * nbByte + nbBit) := by
      rw [finalBit_congr nbBit h.midway.tdi (hn rfl)]
      cases tdi with
      | none => rfl
      | some b => exact (bufBit_byte _ _ _ hbit).symm
    have hpending : (enq (exitFrame s.cfg tdo.isSome (finalBit s.mem tdi nbByte nbBit)) s).pending =
        exitFrame s.cfg tdo.isSome (finalBit s.mem tdi nbByte nbBit) := by simp [enq, h.midway.pending]
    rw [if_pos rfl, ← hfinal]
    exact h.plays.trans (closeStep_plays (enq_holds _ h.plays.runs) rfl (h.midway.cfg ▸ ho) hpending
      (exitFrame_drives s.cfg tdo.isSome _ _ _) hok)

end

/-- All the steps of a shift that writes or reads, or is an exit bit alone. -/
theorem dataSteps_plays {tdi tdo : Option Buf} {nbByte nbBit total : Nat} {last : Bool} {s t : State} {v : OkValue}
    (hr : engineRuns s) (ho : s.cfg.ops.distinct = true) (hp : s.pending = []) (hwf : s.mem.wf)
    (hmin : 4 ≤ s.cfg.bufSize) (hmax : s.cfg.bufSize ≤ 65539) (ha : BufsApart tdi tdo total)
    (hwr : tdi ≠ none ∨ tdo.isSome = true ∨ nbByte = 0 ∧ nbBit = 0) (hbit : nbBit < 8) (hfull : nbByte ≤ total)
    (hpart : nbBit ≠ 0 ∨ last = true → nbByte < total) (h : dataSteps tdi tdo nbByte nbBit last s = .ok v t) :
    Plays s t (shiftLevels (catchUp s).engine.tmsPin (shiftBit s.mem tdi (catchUp s).engine.tdiPin) 0
        (8 * nbByte + nbBit) ++
      if last then [(true, shiftBit s.mem tdi false (8 * nbByte + nbBit))] else []) := by
  have hlim : 1 ≤ chunkLimit s.cfg ∧ chunkLimit s.cfg ≤ 65536 := by
    unfold chunkLimit
    omega
  have hsum : (chunkSizes nbByte nbByte (chunkLimit s.cfg)).sum = nbByte := chunkSizes_sum hlim.1 le_rfl
  have hsizes : ∀ k ∈ chunkSizes nbByte nbByte (chunkLimit s.cfg), 1 ≤ k ∧ k ≤ 65536 := fun k hk =>
    (chunkSizes_bounds hlim.1 hk).imp_right fun hle => hle.trans hlim.2
  have hwr₃ : chunkSizes nbByte nbByte (chunkLimit s.cfg) ≠ [] → tdi ≠ none ∨ tdo.isSome = true := fun hne => by
    rcases hwr with htdi | htdo | ⟨rfl, -⟩
    · exact .inl htdi
    · exact .inr htdo
    · exact absurd (chunkSizes_zero 0 _) hne
  have hwr₄ : nbBit ≠ 0 → tdi ≠ none ∨ tdo.isSome = true := fun h0 => by
    rcases hwr with htdi | htdo | ⟨-, hzero⟩
    · exact .inl htdi
    · exact .inr htdo
    · exact absurd hzero h0
  obtain ⟨_, t₅, h₅, hok⟩ := andThen_eq_ok h
  cases hok
  obtain ⟨_, t₄, h₄, hexit⟩ := andThen_eq_ok h₅
  obtain ⟨_, t₃, hchunks, hresidual⟩ := andThen_eq_ok h₄
  have hstart : Shifted tdi tdo total (8 * 0) s s := ⟨midway_refl hp fun _ => hwf, plays_refl hr⟩
  have shifted₃ := dataChunks_shifted ho ha hstart hwr₃ hsizes (by omega) hchunks
  rw [hsum, Nat.zero_add] at shifted₃
  have shifted₄ := dataResidual_shifted ho ha shifted₃ hwr₄ hbit (fun h0 => hpart (.inl h0)) hresidual
  exact dataExit_plays ho shifted₄ hbit (fun hl => hpart (.inr hl)) hexit

end Sys2Proof.Machine
end

section
/-! PROOFS. From end to end: a DATA_SHIFT that neither writes nor reads stops the engine at its first frame
(45_engine_frames.md R157, R161, R167); and the two ends of a DATA_SHIFT together. -/

namespace Sys2Proof.Machine

open Host (Outcome)

/-! ### An engine that has stopped -/

/-- The engine stops at this frame and names it. -/
def Unmodelled (i : Instr) : Prop :=
  i.isRequest = false ∧ i.wellFormed = true ∧
    ∀ s, execFrame i s = .fault (.engineUnmodelled (encode s.cfg.ops i))

theorem opByteN_unmodelled {c : Nat} (h1 : 1 ≤ c) (h2 : c ≤ 65536) : Unmodelled (.opByteN c) :=
  ⟨rfl, decide_eq_true ⟨h1, h2⟩, fun _ => rfl⟩

theorem opBitN_unmodelled {m : Nat} (h1 : 1 ≤ m) (h2 : m ≤ 8) : Unmodelled (.opBitN m) :=
  ⟨rfl, decide_eq_true ⟨h1, h2⟩, fun _ => rfl⟩

/-- Since state `s₀` the engine has made no pulse, and it is at frame `i`. -/
structure Stuck (i : Instr) (s₀ s : State) : Prop where
  reference : s.oracle = .reference
  sync : s.engine.sync = true
  cfg : s.cfg = s₀.cfg
  wave : s.engine.wave = s₀.engine.wave
  inbox : ∃ transfers, s.engine.inbox = encode s₀.cfg.ops i :: transfers

section
variable {i : Instr} {s₀ s : State} (hi : Unmodelled i) (ho : s₀.cfg.ops.distinct = true)
include hi ho

theorem Stuck.decodes (h : Stuck i s₀ s) : decodeFrame s.cfg.ops (encode s₀.cfg.ops i) = some (i, []) := by
  obtain ⟨hframe, hwf, -⟩ := hi
  have hdecode := decodeFrame_encode (o := s₀.cfg.ops) [] ho hframe hwf
  rw [List.append_nil] at hdecode
  rw [h.cfg, hdecode]

/-- It stays where it is. -/
theorem Stuck.catchUp (h : Stuck i s₀ s) : catchUp s = s := by
  obtain ⟨transfers, hinbox⟩ := h.inbox
  refine catchUp_stuck hinbox fun t ht => ?_
  rw [frameStep_of_decodeFrame execFrame transfers (h.decodes hi ho), hi.2.2] at ht
  cases ht

theorem Stuck.step (h : Stuck i s₀ s) : step s = .fault (.engineUnmodelled (encode s₀.cfg.ops i)) := by
  obtain ⟨transfers, hinbox⟩ := h.inbox
  rw [step_of_inbox hinbox, frameStep_of_decodeFrame exec transfers (h.decodes hi ho), exec_eq_execFrame hi.1, hi.2.2,
    setInbox_cfg, h.cfg, afterFrame]

end

/-! ### The block's calls on it -/

/-- A flush that succeeds on the reference engine adds its transfer to those the engine holds. -/
theorem callFlush_delivers {s : State} (ho : s.oracle = .reference) (hs : s.engine.sync = true)
    (hr : (callFlush s).1 = (s.pending.length : Int)) :
    (callFlush s).2.engine = (setInbox (s.engine.inbox ++ [s.pending]) s).engine := by
  obtain ⟨fs, hf⟩ := flushAnswer_state s.pending.length s
  have hr' : (flushAnswer s.pending.length s).1 = (s.pending.length : Int) := hr
  simp only [callFlush, hr', hf, deliver, State.setInputs_oracle, State.setInputs_engine, ho, hs, and_self, if_true]
  rfl

/-- What a read leaves of the reference engine, once that has executed what it can. -/
theorem callRead_engine (n : Nat) {s : State} (ho : s.oracle = .reference) :
    ∃ resp k, (callRead n s).2.engine = { (catchUp s).engine with resp := resp, draws := k } := by
  have hready : readyToRead s = catchUp s := by simp only [readyToRead, ho]
  have ho' : (catchUp s).oracle = .reference := (catchUp_engineOnly s).1.2.1.trans ho
  simp only [callRead, hready]
  split
  · simp only [settleResponses, State.setInputs_oracle, ho', settledEngine]
    split
    · split
      · exact ⟨_, (catchUp s).engine.draws, rfl⟩
      · exact ⟨_, _, rfl⟩
    · exact ⟨_, _, rfl⟩
  · split
    · exact ⟨_, (catchUp s).engine.draws, rfl⟩
    · simp only [ho']
      exact ⟨_, _, rfl⟩

theorem drainRead_engine (n : Nat) (s : State) : (drainRead n s).engine = (callRead n s).2.engine := by
  unfold drainRead
  dsimp only
  split <;> rfl

section
variable {i : Instr} {s₀ s t : State}

theorem Stuck.enq (h : Stuck i s₀ s) (bs : List Byte) : Stuck i s₀ (enq bs s) :=
  ⟨h.reference, h.sync, h.cfg, h.wave, h.inbox⟩

theorem Stuck.addResult (h : Stuck i s₀ s) (r : RequestResult) : Stuck i s₀ (s.addResult r) :=
  ⟨h.reference, h.sync, h.cfg, h.wave, h.inbox⟩

theorem Stuck.of_flush (h : Stuck i s₀ s) (hok : flush s = .ok () t) : Stuck i s₀ t := by
  rcases flush_cases s with ⟨-, heq⟩ | ⟨-, hret, heq⟩ | ⟨-, -, heq⟩ <;> rw [heq] at hok <;> cases hok
  · exact h
  · have hengine := callFlush_delivers h.reference h.sync hret
    obtain ⟨⟨hcfg, horacle, -⟩, -⟩ := callFlush_state s
    obtain ⟨transfers, hinbox⟩ := h.inbox
    refine ⟨horacle.trans h.reference, by rw [hengine]; exact h.sync, hcfg.trans h.cfg, by rw [hengine]; exact h.wave,
      transfers ++ [s.pending], ?_⟩
    rw [hengine, setInbox_inbox, hinbox]
    rfl

theorem Stuck.of_drainRead (hi : Unmodelled i) (ho : s₀.cfg.ops.distinct = true) (h : Stuck i s₀ s) (n : Nat) :
    Stuck i s₀ (drainRead n s) := by
  obtain ⟨a, -, -, ⟨hcfg, horacle, -⟩, -⟩ := drainRead_state n s
  obtain ⟨resp, k, hread⟩ := callRead_engine n h.reference
  rw [h.catchUp hi ho, ← drainRead_engine] at hread
  exact ⟨horacle.trans h.reference, by rw [hread]; exact h.sync, hcfg.trans h.cfg, by rw [hread]; exact h.wave,
    by rw [hread]; exact h.inbox⟩

theorem Stuck.of_writeDone (hi : Unmodelled i) (ho : s₀.cfg.ops.distinct = true) {n : Nat}
    (hflushed : ∀ u, flush s = .ok () u → Stuck i s₀ u) (hok : writeDone n s = .ok () t) : Stuck i s₀ t := by
  cases hq : s.quirk with
  | false =>
    rw [writeDone_of_not_quirk hq] at hok
    exact hflushed t hok
  | true =>
    rw [writeDone_of_quirk hq] at hok
    obtain ⟨_, u, hflush, hdrain⟩ := andThen_eq_ok hok
    cases hdrain
    exact (hflushed u hflush).of_drainRead hi ho n

/-- The first flush gives an idle engine the frame that stops it. -/
theorem stuck_of_flush (hr : s₀.oracle = .reference) (hbox : s₀.engine.inbox = []) (hs : s₀.engine.sync = true)
    (hp : s₀.pending = []) (hok : flush (Machine.enq (encode s₀.cfg.ops i) s₀) = .ok () t) : Stuck i s₀ t := by
  have hpending : (Machine.enq (encode s₀.cfg.ops i) s₀).pending = encode s₀.cfg.ops i := by simp [Machine.enq, hp]
  rcases flush_cases (Machine.enq (encode s₀.cfg.ops i) s₀) with ⟨hnil, -⟩ | ⟨-, hret, heq⟩ | ⟨-, -, heq⟩
  · obtain ⟨op, bs, he, -⟩ := encode_first i s₀.cfg.ops
    rw [hpending, he] at hnil
    cases hnil
  · rw [heq] at hok
    cases hok
    have hengine := callFlush_delivers (s := Machine.enq (encode s₀.cfg.ops i) s₀) hr hs hret
    obtain ⟨⟨hcfg, horacle, -⟩, -⟩ := callFlush_state (Machine.enq (encode s₀.cfg.ops i) s₀)
    refine ⟨horacle.trans hr, by rw [hengine]; exact hs, hcfg, by rw [hengine]; rfl, [], ?_⟩
    rw [hengine, setInbox_inbox, hpending]
    exact congrArg (· ++ [encode s₀.cfg.ops i]) hbox
  · rw [heq] at hok
    cases hok

end

/-! ### The steps of a shift with neither buffer -/

section
variable {i : Instr} {s₀ s t : State} (hi : Unmodelled i) (ho : s₀.cfg.ops.distinct = true)
include hi ho

theorem Stuck.of_step (h : Stuck i s₀ s) (bs : List Byte) {n : Nat} (hok : writeDone n (Machine.enq bs s) = .ok () t) :
    Stuck i s₀ t :=
  Stuck.of_writeDone hi ho (fun _ hflush => (h.enq bs).of_flush hflush) hok

theorem Stuck.of_dataChunks (h : Stuck i s₀ s) {sizes : List Nat} {cur : Nat}
    (hok : dataChunks none none sizes cur s = .ok () t) : Stuck i s₀ t := by
  induction sizes generalizing cur s with
  | nil =>
    cases hok
    exact h
  | cons c sizes ih =>
    obtain ⟨_, u, hchunk, hrest⟩ := andThen_eq_ok hok
    exact ih (h.of_step hi ho _ hchunk) hrest

theorem Stuck.of_dataResidual (h : Stuck i s₀ s) {nbByte nbBit : Nat}
    (hok : dataResidual none none nbByte nbBit s = .ok () t) : Stuck i s₀ t := by
  unfold dataResidual at hok
  split at hok
  · cases hok
    exact h
  · exact h.of_step hi ho _ hok

theorem Stuck.of_dataExit (h : Stuck i s₀ s) {nbByte nbBit : Nat} {last : Bool}
    (hok : dataExit none none nbByte nbBit last s = .ok () t) : Stuck i s₀ t := by
  unfold dataExit at hok
  split at hok
  · exact h.of_step hi ho _ hok
  · cases hok
    exact h

end

/-- The steps leave the engine at the first of their frames: a chunk's, or with no full byte the residual one. -/
theorem dataSteps_stuck {nbByte nbBit : Nat} {last : Bool} {s t : State} {v : OkValue} (hr : s.oracle = .reference)
    (hbox : s.engine.inbox = []) (hs : s.engine.sync = true) (ho : s.cfg.ops.distinct = true) (hp : s.pending = [])
    (hmin : 4 ≤ s.cfg.bufSize) (hmax : s.cfg.bufSize ≤ 65539) (hne : nbByte ≠ 0 ∨ nbBit ≠ 0) (hbit : nbBit < 8)
    (h : dataSteps none none nbByte nbBit last s = .ok v t) : ∃ i, Unmodelled i ∧ Stuck i s t := by
  obtain ⟨_, t₅, h₅, hok⟩ := andThen_eq_ok h
  cases hok
  obtain ⟨_, t₄, h₄, hexit⟩ := andThen_eq_ok h₅
  obtain ⟨_, t₃, hchunks, hresidual⟩ := andThen_eq_ok h₄
  have hlim : 1 ≤ chunkLimit s.cfg ∧ chunkLimit s.cfg ≤ 65536 := by
    unfold chunkLimit
    omega
  cases hsizes : chunkSizes nbByte nbByte (chunkLimit s.cfg) with
  | nil =>
    have hsum := chunkSizes_sum (fuel := nbByte) hlim.1 le_rfl
    rw [hsizes] at hsum
    have h0 : nbBit ≠ 0 := hne.resolve_left (not_not.mpr hsum.symm)
    have hi := opBitN_unmodelled (Nat.one_le_iff_ne_zero.mpr h0) hbit.le
    rw [hsizes] at hchunks
    cases hchunks
    rw [dataResidual, if_neg h0] at hresidual
    have hstep : writeDone 1 (enq (bitHeader s.cfg false false nbBit) s) = .ok () t₄ := hresidual
    rw [bitHeader_neither] at hstep
    have hstuck := Stuck.of_writeDone hi ho (fun _ => stuck_of_flush hr hbox hs hp) hstep
    exact ⟨_, hi, hstuck.of_dataExit hi ho hexit⟩
  | cons c sizes =>
    obtain ⟨h1, h2⟩ := chunkSizes_bounds hlim.1 (hsizes.symm ▸ List.mem_cons_self)
    have hi := opByteN_unmodelled h1 (h2.trans hlim.2)
    rw [hsizes] at hchunks
    obtain ⟨_, u, hchunk, hrest⟩ := andThen_eq_ok hchunks
    have hstep : writeDone c (enq (byteHeader s.cfg false false c) s) = .ok () u := hchunk
    rw [byteHeader_neither] at hstep
    have hstuck := Stuck.of_writeDone hi ho (fun _ => stuck_of_flush hr hbox hs hp) hstep
    exact ⟨_, hi, ((hstuck.of_dataChunks hi ho hrest).of_dataResidual hi ho hresidual).of_dataExit hi ho hexit⟩

/-! ### The whole request -/

/-- A DATA_SHIFT that is not refused is admitted (43_data_shifter.md R128). -/
theorem dataAdmitted_of_dataRefusal {tdi tdo : Option Buf} {len : Nat} {s : State}
    (h : dataRefusal tdi tdo len s = none) : dataAdmitted tdi tdo len s := by
  have hready := phase_of_dataRefusal_none h
  unfold dataRefusal at h
  rw [if_neg (not_not.mpr hready)] at h
  split at h
  · cases h
  · next hlim =>
    split at h
    · cases h
    · next hlong =>
      split at h
      · cases h
      · next halias =>
        simp only [Bool.not_eq_true, Bool.not_eq_false', Bool.and_eq_true] at hlong
        obtain ⟨htdi, htdo⟩ := hlong
        refine ⟨hready, Nat.not_le.mp hlim, ?_, ?_, ?_⟩
        · rintro b rfl
          exact of_decide_eq_true htdi
        · rintro b rfl
          exact of_decide_eq_true htdo
        · rintro a b rfl rfl hshare
          exact halias (overlap_iff.mpr hshare)

/-- A DATA_SHIFT that records a success: it was admitted, and its steps succeeded. -/
theorem dataShift_success {tdi tdo : Option Buf} {len : Nat} {last : Bool} {s t : State} {v : OkValue}
    (h : exec (.dataShift tdi tdo len last) s = .next t) (hv : t.results = s.results ++ [.ok v]) :
    ∃ u, dataAdmitted tdi tdo len s ∧ len ≠ 0 ∧
      dataSteps tdi tdo (realLen len last / 8) (realLen len last % 8) last s = .ok v u ∧ t = u.addResult (.ok v) := by
  obtain ⟨u, hb, ht⟩ := exec_success (i := .dataShift tdi tdo len last) rfl nofun h hv
  generalize hr : Res.ok v u = r at hb
  cases hb with
  | dataShift hadm =>
    rw [dataBody_eq] at hr
    split at hr
    · cases hr
    · next hlen => exact ⟨u, dataAdmitted_of_dataRefusal hadm, hlen, hr.symm, ht⟩

/-- The levels of all the steps, as a claim lists them. -/
theorem tdiLevels_eq (m : Memory) (tdi : Option Buf) {tms : Bool} (held : Bool) {len : Nat} {last : Bool} (h : len ≠ 0) :
    (shiftLevels tms (shiftBit m tdi held) 0 (realLen len last) ++
      if last then [(true, shiftBit m tdi false (realLen len last))] else []).map Prod.snd =
      tdiLevels m tdi held len last := by
  have hreal := realLen_add_exit last h
  rw [List.map_append, shiftLevels_tdi]
  simp only [Nat.zero_add]
  cases tdi with
  | none =>
    rw [tdiLevels]
    simp only [shiftBit]
    rw [map_range_const]
    cases last <;> rfl
  | some b =>
    cases last with
    | false => exact List.append_nil _
    | true =>
      rw [if_pos rfl] at hreal
      rw [tdiLevels, ← hreal, List.range_succ, List.map_append]
      rfl

/-- Settles O60: each step plays its frame from where the step before left the pins (`dataSteps_plays`); with neither buffer
the engine stops at the first of them (`dataSteps_stuck`). -/
theorem dataWaveformIsTheInput : Obligations.DataWaveformIsTheInput := by
  intro s t tdi tdo len last v horacle hinbox hsync ho hp hmin hmax hwf h hv
  obtain ⟨u, hadm, hlen, hsteps, rfl⟩ := dataShift_success h hv
  have hbit : realLen len last % 8 < 8 := Nat.mod_lt _ (by omega)
  have hsplit := Nat.div_add_mod (realLen len last) 8
  refine ⟨fun hwr => ?_, ?_⟩
  · obtain ⟨hfull, hpart⟩ := realLen_bytes last hlen
    have hwr' : tdi ≠ none ∨ tdo.isSome = true ∨ realLen len last / 8 = 0 ∧ realLen len last % 8 = 0 :=
      hwr.imp_right (Or.imp Option.isSome_iff_ne_none.mpr fun hzero => by rw [hzero]; exact ⟨rfl, rfl⟩)
    have hplays := dataSteps_plays (engineRuns_of_idle horacle hinbox hsync) ho hp hwf hmin hmax
      (bufsApart_of_admitted hadm) hwr' hbit hfull hpart hsteps
    rw [hsplit, catchUp_nil hinbox] at hplays
    have hall := hplays.then_holds (addResult_holds (.ok v) hplays.runs)
    have hdrives := hall.drives hinbox
    rw [tdiLevels_eq _ _ _ hlen, List.map_append, shiftLevels_tms] at hdrives
    refine ⟨?_, hall.runs.2.2⟩
    cases last <;> exact hdrives
  · rintro rfl rfl hreal
    obtain ⟨i, hi, hstuck⟩ := dataSteps_stuck horacle hinbox hsync ho hp hmin hmax (by omega) hbit hsteps
    have hend := hstuck.addResult (.ok v)
    rw [hend.catchUp hi ho]
    exact ⟨drives_of_wave_eq hend.wave, _, hend.step hi ho⟩

end Sys2Proof.Machine
end

section
/-! PROOFS. TEARDOWN from READY or FAILED (44_teardown.md R141, R143 to R145): its calls, and what the engine will have
executed. -/

namespace Sys2Proof.Machine

/-! ### The frames of the self-test -/

/-- The frames of the self-test (44_teardown.md R143). -/
def teardownInstrs (cfg : Config) : List Instr :=
  [.opSetLow cfg.tdLowVal cfg.tdLowDir, .opSetHigh cfg.tdHighVal cfg.tdHighDir, .opLoopbackOn,
    .opByteWr cfg.rdNeg cfg.probe]

theorem teardownFrames_eq (cfg : Config) : teardownFrames cfg = (teardownInstrs cfg).map (encode cfg.ops) := by
  simp only [teardownFrames, teardownInstrs, List.map_cons, List.map_nil, byteHeader_append_eq_encode]
  rfl

theorem flatten_teardownFrames (cfg : Config) :
    (teardownFrames cfg).flatten = transferOf cfg.ops (teardownInstrs cfg) := by
  rw [teardownFrames_eq, transferOf, List.flatMap_def]

/-- The engine's registers as the first three frames write them. -/
def testRegisters (cfg : Config) (s : State) : State :=
  s.setEngine { s.engine with
    gpioLow := (cfg.tdLowVal, cfg.tdLowDir)
    gpioHigh := (cfg.tdHighVal, cfg.tdHighDir)
    loop := true }

/-- What the frames do on the engine: the registers are written, and the probe is shifted with TMS held. -/
theorem teardownInstrs_execute {cfg : Config} (h1 : 1 ≤ cfg.probe.length) (h2 : cfg.probe.length ≤ 65536) (s : State) :
    ∃ t, Executes (teardownInstrs cfg) s t ∧
      drives s t (List.replicate (8 * cfg.probe.length) s.engine.tmsPin)
        ((List.range (8 * cfg.probe.length)).map (bitAt cfg.probe)) ∧
      t.engine.gpioLow = (cfg.tdLowVal, cfg.tdLowDir) ∧ t.engine.gpioHigh = (cfg.tdHighVal, cfg.tdHighDir) ∧
      t.engine.loop = true := by
  have hcount : byteCount cfg.probe.length = true := decide_eq_true ⟨h1, h2⟩
  obtain ⟨hdrives, -, -, hloop, hgpioLow, hgpioHigh, -⟩ :=
    clockCaptureBytes_captures cfg.probe.length (dataLevels (testRegisters cfg s) (allBits cfg.probe))
      (testRegisters cfg s)
  rw [dataLevels_tms, dataLevels_tdi, length_allBits] at hdrives
  exact ⟨_, .cons rfl rfl rfl (.cons rfl rfl rfl (.cons rfl rfl rfl (.cons rfl hcount rfl (.nil _)))), hdrives,
    hgpioLow, hgpioHigh, hloop⟩

/-! ### The self-test, from the state in which its frames are pending -/

theorem enqAll_engine (frames : List (List Byte)) (s : State) : (enqAll frames s).engine = s.engine := by
  induction frames generalizing s with
  | nil => rfl
  | cons frame frames ih => exact ih (enq frame s)

theorem callFlush_scripted {r : Int} {rs : List Int} {s : State} (h : s.inputs.flush = r :: rs) :
    (callFlush s).1 = r := by
  simp [callFlush, flushAnswer, h]

theorem teardownRead_holds {s : State} (h : engineRuns s) : Holds s (teardownRead s) := by
  have hread := callRead_holds s.cfg.probe.length h
  refine hread.trans ?_
  unfold teardownRead
  dsimp only
  split <;> exact holds_of_sameEngine ⟨rfl, rfl, rfl, rfl⟩ rfl rfl hread.runs

/-- The state in which the frames of the self-test are pending. -/
def queuedTest (s : State) : State := enqAll (teardownFrames s.cfg) s

section
variable {s : State} {r : Int} {rs : List Int} (hp : s.pending = []) (hr : s.inputs.flush = r :: rs)
include hp

theorem queuedTest_pending : (queuedTest s).pending = transferOf s.cfg.ops (teardownInstrs s.cfg) ∧
    (queuedTest s).pending.length = 10 + s.cfg.probe.length := by
  obtain ⟨-, -, -, hpending, -⟩ := enqAll_state (teardownFrames s.cfg) s
  rw [hp, List.nil_append] at hpending
  exact ⟨hpending.trans (flatten_teardownFrames s.cfg), (congrArg List.length hpending).trans (length_teardownFrames s.cfg)⟩

include hr

omit hp in
theorem callFlush_queuedTest : (callFlush (queuedTest s)).1 = r := by
  obtain ⟨-, -, -, -, -, hinputs⟩ := enqAll_state (teardownFrames s.cfg) s
  exact callFlush_scripted ((congrArg Inputs.flush hinputs).trans hr)

/-- The self-test is its flush, and then its read or a warning. -/
theorem selfTest_eq : selfTest s =
    if r = ((10 + s.cfg.probe.length : Nat) : Int) then teardownRead (callFlush (queuedTest s)).2
    else (callFlush (queuedTest s)).2.addDiag (.teardownMismatchFlush (10 + s.cfg.probe.length) r) := by
  have heq : selfTest s = if (callFlush (queuedTest s)).1 = ((queuedTest s).pending.length : Int)
      then teardownRead (callFlush (queuedTest s)).2
      else (callFlush (queuedTest s)).2.addDiag
        (.teardownMismatchFlush (queuedTest s).pending.length (callFlush (queuedTest s)).1) := rfl
  rw [heq, callFlush_queuedTest hr, (queuedTest_pending hp).2]

/-- The events and the warnings of the self-test (44_teardown.md R143 to R145). -/
theorem selfTest_logs {a : ReadAnswer} {as : List ReadAnswer} (ha : s.inputs.read = a :: as) :
    (selfTest s).trace = s.trace ++ ((teardownFrames s.cfg).map Event.enq ++
      (.flush (10 + s.cfg.probe.length) r ::
        if r = ((10 + s.cfg.probe.length : Nat) : Int) then [.read s.cfg.probe.length (cutAnswer s.cfg.probe.length a)]
        else [])) ∧
    (selfTest s).diag = s.diag ++
      (if r ≠ ((10 + s.cfg.probe.length : Nat) : Int) then [.teardownMismatchFlush (10 + s.cfg.probe.length) r]
       else if answersAll s.cfg.probe.length (cutAnswer s.cfg.probe.length a) then []
       else [.teardownMismatchRead s.cfg.probe.length (cutAnswer s.cfg.probe.length a)]) := by
  have heq := selfTest_eq hp hr
  obtain ⟨⟨hcfg, -⟩, -, hdiag, -, htrace, hinputs⟩ := enqAll_state (teardownFrames s.cfg) s
  obtain ⟨⟨hfcfg, -⟩, -, hfdiag, -, hftrace, hfread⟩ := callFlush_state (queuedTest s)
  rw [(queuedTest_pending hp).2, callFlush_queuedTest hr] at hftrace
  have hflushed : (callFlush (queuedTest s)).2.trace = s.trace ++ ((teardownFrames s.cfg).map Event.enq ++
      [.flush (10 + s.cfg.probe.length) r]) :=
    hftrace.trans (by rw [queuedTest, htrace, List.append_assoc])
  have hwarned : (callFlush (queuedTest s)).2.diag = s.diag := hfdiag.trans hdiag
  have hanswer : (callFlush (queuedTest s)).2.inputs.read = a :: as :=
    (hfread.trans (congrArg Inputs.read hinputs)).trans ha
  have hconfig : (callFlush (queuedTest s)).2.cfg = s.cfg := hfcfg.trans hcfg
  by_cases hsize : r = ((10 + s.cfg.probe.length : Nat) : Int)
  · obtain ⟨-, -, -, answer, hrtrace, hrdiag, hrread⟩ := teardownRead_state (callFlush (queuedTest s)).2
    obtain rfl := hrread a as hanswer
    rw [hconfig, hflushed] at hrtrace
    rw [hconfig, hwarned] at hrdiag
    rw [heq, if_pos hsize, if_pos hsize, if_neg (not_not.mpr hsize), hrtrace, hrdiag]
    exact ⟨by simp, rfl⟩
  · rw [heq, if_neg hsize, if_neg hsize, if_pos hsize, State.addDiag_trace, State.addDiag_diag, hflushed, hwarned]
    exact ⟨rfl, rfl⟩

/-- After a flush that returned the size the engine will have executed the four frames. -/
theorem selfTest_executes (hsize : r = ((10 + s.cfg.probe.length : Nat) : Int)) (horacle : s.oracle = .reference)
    (hinbox : s.engine.inbox = []) (hsync : s.engine.sync = true) (ho : s.cfg.ops.distinct = true) {w : State}
    (hw : Executes (teardownInstrs s.cfg) (queuedTest s) w) :
    engineRuns (selfTest s) ∧ SameWire w (catchUp (selfTest s)) := by
  obtain ⟨⟨hcfg, hor, -⟩, -⟩ := enqAll_state (teardownFrames s.cfg) s
  have hengine : (queuedTest s).engine = s.engine := enqAll_engine (teardownFrames s.cfg) s
  have hbox : (queuedTest s).engine.inbox = [] := (congrArg Engine.inbox hengine).trans hinbox
  have hpending := (queuedTest_pending hp).1
  have hops : (queuedTest s).cfg.ops = s.cfg.ops := congrArg Config.ops hcfg
  rw [← catchUp_nil hbox] at hw
  rw [← hops] at hpending ho
  have hret : (callFlush (queuedTest s)).1 = ((queuedTest s).pending.length : Int) := by
    rw [callFlush_queuedTest hr, (queuedTest_pending hp).2, hsize]
  obtain ⟨hruns, hwire⟩ := callFlush_executes (engineRuns_of_idle (hor.trans horacle) hbox
    ((congrArg Engine.sync hengine).trans hsync)) ho hpending hw hret
  have hread := teardownRead_holds hruns
  rw [selfTest_eq hp hr, if_pos hsize]
  exact ⟨hread.runs, hwire.trans hread.wire⟩

end

/-! ### The whole request -/

/-- Settles O46: the self-test is one transfer of the four frames (`selfTest_logs`), which an idle engine executes as soon as
it may (`selfTest_executes`), and TEARDOWN then closes. -/
theorem teardownSelfTest : Obligations.TeardownSelfTest := by
  intro s r rs a as hphase h1 h2 hfits hp hr ha
  have hprobe : probeOk s.cfg = true := decide_eq_true ⟨h1, h2, hfits⟩
  obtain ⟨⟨hcfg, horacle, hrequests, -, hquirk, hfault, hresults, -⟩, hmem, hpending⟩ := selfTest_state s
  obtain ⟨htrace, hdiag⟩ := selfTest_logs hp hr ha
  rw [teardownFrames_eq] at htrace
  have hexec : exec .teardown s = .next (((selfTest s).setPhase .closed).addResult (.ok .unit)) := by
    rw [exec_teardown_of_open hphase, if_pos hprobe]
  refine ⟨_, hexec, rfl, congrArg (· ++ [_]) hresults, htrace, hdiag, hpending, hmem, hquirk, hfault,
    ⟨hcfg, horacle, hrequests⟩, fun href hinbox hsync ho hsize => ?_⟩
  have huengine := enqAll_engine (teardownFrames s.cfg) s
  obtain ⟨w, hw, ⟨ps, hwave, htms, htdi⟩, hlow, hhigh, hloop⟩ := teardownInstrs_execute h1 h2 (queuedTest s)
  rw [queuedTest, huengine] at hwave htms
  obtain ⟨hruns, hwire⟩ := selfTest_executes hp hr hsize href hinbox hsync ho hw
  have hend : Holds (selfTest s) (((selfTest s).setPhase .closed).addResult (.ok .unit)) :=
    holds_of_sameEngine ⟨rfl, rfl, rfl, rfl⟩ rfl rfl hruns
  obtain ⟨_, _, _, _, he⟩ := hwire.trans hend.wire
  rw [he]
  refine ⟨⟨ps, ?_, htms, htdi⟩, hlow, hhigh, hloop, ?_⟩
  · rw [he]
    exact hwave
  · rw [← he]
    exact hend.runs.2.2

end Sys2Proof.Machine
end
